-- ==== Sys2Proof/Word.lean ====
section
/-! DEFINITION. The word types of the block (00_scope.md R11): unsigned values of 8, 16 and 32 bits. -/
namespace Sys2Proof

/-- A `u8`: a bus byte, a character code, a colour channel, a bitmap byte. -/
abbrev Byte := BitVec 8

/-- A `u16`: a coordinate operand, an RGB565 colour, a controller address as sent. -/
abbrev Half := BitVec 16

/-- A `u32`: the element index `SRC` of a host array. -/
abbrev Word := BitVec 32

end Sys2Proof
end

