-- ==== Sys2Proof/Config.lean ====
section
/-! DEFINITION. The constants the spec fixes (00_scope.md R9, R10), the parameters it leaves open, and the free
values: opaque constants with no body, of which nothing can be proved but that they exist. -/
namespace Sys2Proof.Config

/-- `W`, the panel width in pixels (00_scope.md R9). -/
def panelW : Nat := 160
/-- `H`, the panel height in pixels (R9). -/
def panelH : Nat := 80
/-- `COL_OFF`, added to every column address sent (R9). -/
def colOff : Nat := 0
/-- `ROW_OFF`, added to every row address sent (R9). -/
def rowOff : Nat := 24
/-- `GLYPH_W` (R9). -/
def glyphW : Nat := 7
/-- `GLYPH_H` (R9). -/
def glyphH : Nat := 16
/-- `ceil_div(a, b)` (R13). -/
def ceilDiv (a b : Nat) : Nat := (a + b - 1) / b
/-- `GLYPH_BANDS = ceil(GLYPH_H / 8)` (R9). -/
def glyphBands : Nat := ceilDiv glyphH 8
/-- `GLYPH_BYTES = GLYPH_W × GLYPH_BANDS` (R9). -/
def glyphBytes : Nat := glyphW * glyphBands
/-- `FIRST_CH`, the character code of glyph index 0 (R9). -/
def firstCh : Nat := 0x20
/-- `GAP_W`, the width of the gap column; the spec's own decision D7 (R10). -/
def gapW : Nat := 1
/-- `LINE_LEN`, the capacity of the scratch line; the spec's own decision D18 (R10). -/
def lineLen : Nat := 160
/-- `T_RST_LOW` in milliseconds (R9). -/
def tRstLow : Nat := 100
/-- `T_RST_HIGH` (R9). -/
def tRstHigh : Nat := 120
/-- `T_SWRESET` (R9). -/
def tSwReset : Nat := 120
/-- `T_SLPOUT` (R9). -/
def tSlpOut : Nat := 120
/-- `T_SLPIN` (R9). -/
def tSlpIn : Nat := 120
/-- `ORIENT_NORMAL` (R9). -/
def orientNormal : Byte := 0x68#8
/-- `ORIENT_FLIPPED` (R9). -/
def orientFlipped : Byte := 0xA8#8
/-- `COLMODE_16` (R9). -/
def colMode16 : Byte := 0x05#8
/-- `BLACK`; the spec's own decision D21 (R10). -/
def black : Half := 0x0000#16
/-- `WHITE`; the spec's own decision D21 (R10). -/
def white : Half := 0xFFFF#16
/-- The longest stream of pixels: the whole panel (40_bus_transport.md R149). -/
def maxStream : Nat := 12800
/-- The number of elements a 32-bit element index can name (20_memory.md R60). -/
def spaceSize : Nat := 2 ^ 32

/-- The open parameter behind `NATIVE_COLS` (R10, decision D24): any natural. -/
opaque nativeCols : Nat
/-- The open parameter behind `NATIVE_ROWS` (R10, decision D24): any natural. -/
opaque nativeRows : Nat

/-- FREE VALUE (log 10, 11, 16, 17): the `n`-th free value of the block, read as `w` bits. -/
opaque freeBits : (w n : Nat) → BitVec w
/-- FREE VALUE (log 11, 19): the `n`-th free value of the block, read as a level. -/
opaque freeBool : (n : Nat) → Bool
/-- FREE VALUE (log 11): the `n`-th free value of the block, read as an unbounded integer (`GOFF`). -/
opaque freeInt : (n : Nat) → Int

/-- FREE VALUE (log 15): what the host's `PIX` holds at an index the state does not list. -/
opaque pixUnlisted : (i : Nat) → Half
/-- FREE VALUE (log 15): what the host's `BITS` holds at an index the state does not list. -/
opaque bitsUnlisted : (i : Nat) → Byte
/-- FREE VALUE (log 15): what the host's `TEXT` holds at an index the state does not list. -/
opaque textUnlisted : (i : Nat) → Byte
/-- FREE VALUE (log 14): what the glyph table holds at an index inside it that the state does not list. -/
opaque romUnlisted : (i : Nat) → Byte

/-- FREE VALUE (log 21): level `field` of the sink in its `gen`-th unspecified state. -/
opaque sinkBool : (gen field : Nat) → Bool
/-- FREE VALUE (log 21): register `field` of the sink in its `gen`-th unspecified state. -/
opaque sinkBits : (w gen field : Nat) → BitVec w
/-- FREE VALUE (log 21, 23): pointer `field` of the sink in its `gen`-th unspecified state. -/
opaque sinkNat : (gen field : Nat) → Nat
/-- FREE VALUE (log 21, 23): what the pixel memory holds at address `a` in its `gen`-th unspecified state. -/
opaque panelUnlisted : (gen a : Nat) → Half

end Sys2Proof.Config
end

