-- ==== Sys2Proof/Syntax.lean ====
section
/-! DEFINITION. The instructions: one constructor per row of spec/opcode_table.json. The eleven request operations
(30_encoding.md R101), the thirteen bus frames (R104) and the fifteen internal micro-operations (R118). -/
namespace Sys2Proof

/-- One request operation, bus frame or micro-operation, with exactly the operands its rule names. -/
inductive Instr where
  -- request operations (30_encoding.md R101)
  /-- BEGIN (44_lifecycle.md R243). -/
  | reqBegin
  /-- RESET, the operation on the panel (44_lifecycle.md R244). -/
  | reqReset
  /-- POWER on (44_lifecycle.md R246). -/
  | reqPower (on : Bool)
  /-- FLIP on (44_lifecycle.md R247). -/
  | reqFlip (on : Bool)
  /-- INVERSE on (44_lifecycle.md R248). -/
  | reqInverse (on : Bool)
  /-- FILL x, y, w, h, color (42_raster.md R192). -/
  | reqFill (x y w h color : Half)
  /-- BLIT x, y, w, h, src (42_raster.md R195). -/
  | reqBlit (x y w h : Half) (src : Word)
  /-- MONOBLIT x, y, w, h, src, fg, bg (42_raster.md R198). -/
  | reqMonoBlit (x y w h : Half) (src : Word) (fg bg : Half)
  /-- DRAWCHAR x, y, ch, fg, bg (43_text.md R223). -/
  | reqDrawChar (x y : Half) (ch : Byte) (fg bg : Half)
  /-- DRAWSTRING x, y, src, len, fg, bg (43_text.md R226). -/
  | reqDrawString (x y : Half) (src : Word) (len : Half) (fg bg : Half)
  /-- RGB r, g, b (42_raster.md R190). -/
  | reqRgb (r g b : Byte)
  -- bus frames (30_encoding.md R104)
  /-- SOFT_RESET, 0x01. -/
  | frmSoftReset
  /-- EXIT_SLEEP, 0x11. -/
  | frmExitSleep
  /-- ENTER_SLEEP, 0x10. -/
  | frmEnterSleep
  /-- SET_ORIENT, 0x36 and its argument byte. -/
  | frmSetOrient (arg : Byte)
  /-- SET_COLMODE, 0x3A and its argument byte. -/
  | frmSetColMode (arg : Byte)
  /-- NORMAL_ON, 0x13. -/
  | frmNormalOn
  /-- INVERT_OFF, 0x20. -/
  | frmInvertOff
  /-- INVERT_ON, 0x21. -/
  | frmInvertOn
  /-- DISPLAY_ON, 0x29. -/
  | frmDisplayOn
  /-- DISPLAY_OFF, 0x28. -/
  | frmDisplayOff
  /-- COL_ADDR_SET, 0x2A, start and end, each high byte first. -/
  | frmColAddrSet (start stop : Half)
  /-- ROW_ADDR_SET, 0x2B, start and end, each high byte first. -/
  | frmRowAddrSet (start stop : Half)
  /-- MEM_WRITE, 0x2C and its pixel words, each high byte first. -/
  | frmMemWrite (pixels : List Half)
  -- micro-operations (40_bus_transport.md, 41_addressing.md)
  /-- TX8(b) (40_bus_transport.md R140). -/
  | mopTx8 (b : Byte)
  /-- TX16(v) (R141). -/
  | mopTx16 (v : Half)
  /-- TXN(c, P) (R143). -/
  | mopTxn (c : Byte) (payload : List Byte)
  /-- ACQUIRE (R144). -/
  | mopAcquire
  /-- RELEASE (R151). -/
  | mopRelease
  /-- SENDCMD0(c) (R145). -/
  | mopSendCmd0 (c : Byte)
  /-- SENDCMD1(c, a) (R146). -/
  | mopSendCmd1 (c a : Byte)
  /-- SENDCMDN(c, A, n), `n` the length of `A` (R147). -/
  | mopSendCmdN (c : Byte) (args : List Byte)
  /-- SENDDATA16(V, n), `n` the length of `V` (R148). -/
  | mopSendData16 (pixels : List Half)
  /-- SENDDATAREP(v, n) (R149). -/
  | mopSendDataRep (v : Half) (n : Nat)
  /-- SENDDATA8, named by the source and not defined (R150). -/
  | mopSendData8
  /-- DELAY(n), `n` in milliseconds (R152). -/
  | mopDelay (n : Nat)
  /-- RSTPULSE (R153). -/
  | mopRstPulse
  /-- CLIP(x, y, w, h) (41_addressing.md R171). -/
  | mopClip (x y w h : Half)
  /-- SELECT(x, y, w, h) (41_addressing.md R174). -/
  | mopSelect (x y w h : Nat)
  deriving DecidableEq, Repr

/-- The three kinds of row: format `REQ`, formats `F0` to `FS`, format `MICRO` (30_encoding.md R112, R113). -/
inductive Kind where
  | request
  | frame
  | micro
  deriving DecidableEq, Repr

/-- The kind of an instruction's row. -/
def Instr.kind : Instr → Kind
  | .reqBegin | .reqReset | .reqPower _ | .reqFlip _ | .reqInverse _ | .reqFill _ _ _ _ _ | .reqBlit _ _ _ _ _
  | .reqMonoBlit _ _ _ _ _ _ _ | .reqDrawChar _ _ _ _ _ | .reqDrawString _ _ _ _ _ _ | .reqRgb _ _ _ => .request
  | .frmSoftReset | .frmExitSleep | .frmEnterSleep | .frmSetOrient _ | .frmSetColMode _ | .frmNormalOn
  | .frmInvertOff | .frmInvertOn | .frmDisplayOn | .frmDisplayOff | .frmColAddrSet _ _ | .frmRowAddrSet _ _
  | .frmMemWrite _ => .frame
  | .mopTx8 _ | .mopTx16 _ | .mopTxn _ _ | .mopAcquire | .mopRelease | .mopSendCmd0 _ | .mopSendCmd1 _ _
  | .mopSendCmdN _ _ | .mopSendData16 _ | .mopSendDataRep _ _ | .mopSendData8 | .mopDelay _ | .mopRstPulse
  | .mopClip _ _ _ _ | .mopSelect _ _ _ _ => .micro

/-- The fields of a request (30_encoding.md R100) and, under the same names, the operand registers that hold them
(10_state.md R21). -/
structure Operands where
  /-- `OP`: the operation code. -/
  op : BitVec 4
  /-- `ON`: the Boolean argument. -/
  on : Bool
  /-- `CH`: the character code. -/
  ch : Byte
  /-- `X`. -/
  x : Half
  /-- `Y`. -/
  y : Half
  /-- `WD`: the requested width. -/
  wd : Half
  /-- `HT`: the requested height. -/
  ht : Half
  /-- `C0`: the colour, or the foreground colour. -/
  c0 : Half
  /-- `C1`: the background colour. -/
  c1 : Half
  /-- `SRC`: element index of the host array's first element. -/
  src : Word
  /-- `LEN`: the number of characters. -/
  len : Half
  /-- `R8`. -/
  r8 : Byte
  /-- `G8`. -/
  g8 : Byte
  /-- `B8`. -/
  b8 : Byte
  deriving DecidableEq, Repr

/-- What the block is given to run next. A request arrives as the packed word of 30_encoding.md R100. A frame (as its
bytes, R103) and a micro-operation are no requests (R118): the model lets them be run alone (log 2). -/
inductive Code where
  | request (w : BitVec 181)
  | frame (bytes : List Byte)
  | micro (i : Instr)
  deriving DecidableEq, Repr

end Sys2Proof
end

