-- ==== Sys2Proof/Decode.lean ====
section
/-! DEFINITION. The two encodings of 30_encoding.md: the packed request word (R100, R101) and the bus frame (R103, R104),
each with its decoder and its encoder. -/
namespace Sys2Proof

/-- Why no instruction is read. -/
inductive DecodeError where
  /-- request codes 0x0 and 0xC to 0xF (30_encoding.md R114) -/
  | reservedRequest
  /-- a frame of no byte at all -/
  | emptyFrame
  /-- a command byte that is none of the thirteen (30_encoding.md R115) -/
  | unknownCommand
  /-- a payload that is not of the length the command's format has (30_encoding.md R103) -/
  | frameLength
  /-- a micro-operation code that holds a request or a frame -/
  | notMicro
  deriving DecidableEq, Repr

-- The packed request word (30_encoding.md R100).

/-- The fields of the packed word, from bit 180 down. -/
def unpack (w : BitVec 181) : Operands where
  op := w.extractLsb' 177 4
  on := w.getLsbD 176
  ch := w.extractLsb' 168 8
  x := w.extractLsb' 152 16
  y := w.extractLsb' 136 16
  wd := w.extractLsb' 120 16
  ht := w.extractLsb' 104 16
  c0 := w.extractLsb' 88 16
  c1 := w.extractLsb' 72 16
  src := w.extractLsb' 40 32
  len := w.extractLsb' 24 16
  r8 := w.extractLsb' 16 8
  g8 := w.extractLsb' 8 8
  b8 := w.extractLsb' 0 8

/-- `{req_op, req_on, req_ch, req_x, req_y, req_w, req_h, req_c0, req_c1, req_src, req_len, req_r, req_g, req_b}`. -/
def pack (o : Operands) : BitVec 181 :=
  o.op ++ BitVec.ofBool o.on ++ o.ch ++ o.x ++ o.y ++ o.wd ++ o.ht ++ o.c0 ++ o.c1 ++ o.src ++ o.len ++ o.r8 ++ o.g8 ++ o.b8

/-- The operation a request's fields name (30_encoding.md R101); fields it does not use are ignored (R100). -/
def decodeFields (o : Operands) : Except DecodeError Instr :=
  match o.op.toNat with
  | 0x1 => .ok .reqBegin
  | 0x2 => .ok .reqReset
  | 0x3 => .ok (.reqPower o.on)
  | 0x4 => .ok (.reqFlip o.on)
  | 0x5 => .ok (.reqInverse o.on)
  | 0x6 => .ok (.reqFill o.x o.y o.wd o.ht o.c0)
  | 0x7 => .ok (.reqBlit o.x o.y o.wd o.ht o.src)
  | 0x8 => .ok (.reqMonoBlit o.x o.y o.wd o.ht o.src o.c0 o.c1)
  | 0x9 => .ok (.reqDrawChar o.x o.y o.ch o.c0 o.c1)
  | 0xA => .ok (.reqDrawString o.x o.y o.src o.len o.c0 o.c1)
  | 0xB => .ok (.reqRgb o.r8 o.g8 o.b8)
  | _ => .error .reservedRequest

/-- A request of which every field is zero. -/
def zeroOperands : Operands :=
  { op := 0, on := false, ch := 0, x := 0, y := 0, wd := 0, ht := 0, c0 := 0, c1 := 0, src := 0, len := 0,
    r8 := 0, g8 := 0, b8 := 0 }

/-- The fields a request operation fills: its code (30_encoding.md R101), its operands, and zero in every field it does
not use. No fields for a frame or a micro-operation. -/
def encodeFields : Instr → Option Operands
  | .reqBegin => some { zeroOperands with op := 0x1#4 }
  | .reqReset => some { zeroOperands with op := 0x2#4 }
  | .reqPower on => some { zeroOperands with op := 0x3#4, on := on }
  | .reqFlip on => some { zeroOperands with op := 0x4#4, on := on }
  | .reqInverse on => some { zeroOperands with op := 0x5#4, on := on }
  | .reqFill x y w h color => some { zeroOperands with op := 0x6#4, x := x, y := y, wd := w, ht := h, c0 := color }
  | .reqBlit x y w h src => some { zeroOperands with op := 0x7#4, x := x, y := y, wd := w, ht := h, src := src }
  | .reqMonoBlit x y w h src fg bg =>
    some { zeroOperands with op := 0x8#4, x := x, y := y, wd := w, ht := h, src := src, c0 := fg, c1 := bg }
  | .reqDrawChar x y ch fg bg => some { zeroOperands with op := 0x9#4, x := x, y := y, ch := ch, c0 := fg, c1 := bg }
  | .reqDrawString x y src len fg bg =>
    some { zeroOperands with op := 0xA#4, x := x, y := y, src := src, len := len, c0 := fg, c1 := bg }
  | .reqRgb r g b => some { zeroOperands with op := 0xB#4, r8 := r, g8 := g, b8 := b }
  | .frmSoftReset | .frmExitSleep | .frmEnterSleep | .frmSetOrient _ | .frmSetColMode _ | .frmNormalOn
  | .frmInvertOff | .frmInvertOn | .frmDisplayOn | .frmDisplayOff | .frmColAddrSet _ _ | .frmRowAddrSet _ _
  | .frmMemWrite _ | .mopTx8 _ | .mopTx16 _ | .mopTxn _ _ | .mopAcquire | .mopRelease | .mopSendCmd0 _
  | .mopSendCmd1 _ _ | .mopSendCmdN _ _ | .mopSendData16 _ | .mopSendDataRep _ _ | .mopSendData8 | .mopDelay _
  | .mopRstPulse | .mopClip _ _ _ _ | .mopSelect _ _ _ _ => none

-- Bus frames (30_encoding.md R103, R104, R108).

/-- `hi8(v)` (00_scope.md R12). -/
def hi8 (v : Half) : Byte := v.extractLsb' 8 8

/-- `lo8(v)` (00_scope.md R12). -/
def lo8 (v : Half) : Byte := v.extractLsb' 0 8

/-- A 16-bit word as two bytes, the more significant first (20_memory.md R67). -/
def halfBytes (v : Half) : List Byte := [hi8 v, lo8 v]

/-- A stream of 16-bit words as bytes, in order (30_encoding.md R108). -/
def pixelBytes (vs : List Half) : List Byte := vs.flatMap halfBytes

/-- `{a, b}`: the 16-bit word of two bytes, the more significant first (20_memory.md R90, R91). -/
def halfOf (hi lo : Byte) : Half := hi ++ lo

/-- The 16-bit words of a byte stream, none for an odd number of bytes. -/
def halvesOf : List Byte → Option (List Half)
  | [] => some []
  | [_] => none
  | hi :: lo :: rest => (halvesOf rest).map (halfOf hi lo :: ·)

/-- Format `F0`: no payload. -/
def formatF0 (i : Instr) : List Byte → Except DecodeError Instr
  | [] => .ok i
  | _ => .error .frameLength

/-- Format `F1`: one argument byte. -/
def formatF1 (f : Byte → Instr) : List Byte → Except DecodeError Instr
  | [a] => .ok (f a)
  | _ => .error .frameLength

/-- Format `F4`: start and end, each high byte first. -/
def formatF4 (f : Half → Half → Instr) : List Byte → Except DecodeError Instr
  | [a0, a1, a2, a3] => .ok (f (halfOf a0 a1) (halfOf a2 a3))
  | _ => .error .frameLength

/-- Format `FS`: `N ≥ 1` pixel words. -/
def formatFS (f : List Half → Instr) (payload : List Byte) : Except DecodeError Instr :=
  match halvesOf payload with
  | some (v :: vs) => .ok (f (v :: vs))
  | _ => .error .frameLength

/-- The frame that a whole transaction's bytes are; the command byte is the whole opcode (30_encoding.md R113). -/
def decodeFrame : List Byte → Except DecodeError Instr
  | [] => .error .emptyFrame
  | c :: payload =>
    match c.toNat with
    | 0x01 => formatF0 .frmSoftReset payload
    | 0x10 => formatF0 .frmEnterSleep payload
    | 0x11 => formatF0 .frmExitSleep payload
    | 0x13 => formatF0 .frmNormalOn payload
    | 0x20 => formatF0 .frmInvertOff payload
    | 0x21 => formatF0 .frmInvertOn payload
    | 0x28 => formatF0 .frmDisplayOff payload
    | 0x29 => formatF0 .frmDisplayOn payload
    | 0x36 => formatF1 .frmSetOrient payload
    | 0x3A => formatF1 .frmSetColMode payload
    | 0x2A => formatF4 .frmColAddrSet payload
    | 0x2B => formatF4 .frmRowAddrSet payload
    | 0x2C => formatFS .frmMemWrite payload
    | _ => .error .unknownCommand

/-- The command byte and payload of a bus frame (30_encoding.md R104); none for a request or a micro-operation. -/
def frameParts : Instr → Option (Byte × List Byte)
  | .frmSoftReset => some (0x01#8, [])
  | .frmExitSleep => some (0x11#8, [])
  | .frmEnterSleep => some (0x10#8, [])
  | .frmSetOrient a => some (0x36#8, [a])
  | .frmSetColMode a => some (0x3A#8, [a])
  | .frmNormalOn => some (0x13#8, [])
  | .frmInvertOff => some (0x20#8, [])
  | .frmInvertOn => some (0x21#8, [])
  | .frmDisplayOn => some (0x29#8, [])
  | .frmDisplayOff => some (0x28#8, [])
  | .frmColAddrSet start stop => some (0x2A#8, halfBytes start ++ halfBytes stop)
  | .frmRowAddrSet start stop => some (0x2B#8, halfBytes start ++ halfBytes stop)
  | .frmMemWrite pixels => some (0x2C#8, pixelBytes pixels)
  | .reqBegin | .reqReset | .reqPower _ | .reqFlip _ | .reqInverse _ | .reqFill _ _ _ _ _ | .reqBlit _ _ _ _ _
  | .reqMonoBlit _ _ _ _ _ _ _ | .reqDrawChar _ _ _ _ _ | .reqDrawString _ _ _ _ _ _ | .reqRgb _ _ _
  | .mopTx8 _ | .mopTx16 _ | .mopTxn _ _ | .mopAcquire | .mopRelease | .mopSendCmd0 _ | .mopSendCmd1 _ _
  | .mopSendCmdN _ _ | .mopSendData16 _ | .mopSendDataRep _ _ | .mopSendData8 | .mopDelay _ | .mopRstPulse
  | .mopClip _ _ _ _ | .mopSelect _ _ _ _ => none

-- Both encodings together.

/-- The decoder: total, rejecting by name. A micro-operation has no binary encoding (30_encoding.md R113) and stands for
itself. -/
def decode : Code → Except DecodeError Instr
  | .request w => decodeFields (unpack w)
  | .frame bytes => decodeFrame bytes
  | .micro i => if i.kind = .micro then .ok i else .error .notMicro

/-- The encoder, written from the same tables. -/
def encode (i : Instr) : Code :=
  match encodeFields i, frameParts i with
  | some o, _ => .request (pack o)
  | none, some (c, payload) => .frame (c :: payload)
  | none, none => .micro i

-- The table's numbering of an instruction's bits (log 4).

/-- The `n` low bytes of `w`, the least significant first. -/
def lowBytes : (n w : Nat) → List Byte
  | 0, _ => []
  | n + 1, w => BitVec.ofNat 8 w :: lowBytes n (w / 256)

/-- How many bytes the shortest frame with this command byte has (30_encoding.md R103). -/
def frameBytes (c : Nat) : Nat :=
  if c = 0x36 ∨ c = 0x3A then 2 else if c = 0x2A ∨ c = 0x2B then 5 else if c = 0x2C then 3 else 1

/-- A request whose operation code is `op` and whose other fields are zero. -/
def requestOf (op : Nat) : Code := .request (pack { zeroOperands with op := BitVec.ofNat 4 op })

/-- The code that spec/opcode_table.json numbers as the bits `w`, `nbits` of them. A row of format `REQ` gives bits only to
`req_op` (`match` and `mask` over four bits, written at bits 3 to 0); the packed word has it at bits 180 to 177; both are
read. A frame's first byte is bits 7 to 0; bytes the table does not give are 0. See log 4. -/
def tableCode (nbits w : Nat) : Code :=
  if nbits ≤ 8 ∧ w < 16 then requestOf w
  else if 181 ≤ nbits then
    if w / 2 ^ 177 % 16 = 0 then requestOf (w % 16) else .request (BitVec.ofNat 181 w)
  else .frame (lowBytes (max ((nbits + 7) / 8) (frameBytes (w % 256))) w)

/-- The instruction the decoder reads from an instruction whose bits, numbered as the opcode table numbers them, are
`w`. -/
def decodeTableWord (nbits w : Nat) : Option Instr := (decode (tableCode nbits w)).toOption

end Sys2Proof
end

