-- ==== Sys2Proof/Machine/Operands.lean ====
section
/-! DEFINITION. Operand forms: clipping (41_addressing.md R171), address bytes (30_encoding.md R107), colour packing
(42_raster.md R190), glyph lookup (43_text.md R221), the bit test of a bitmap (42_raster.md R199). -/
namespace Sys2Proof.Machine

/-- CLIP(x, y, w, h) (41_addressing.md R171): the clipped width and height, none if nothing is left. -/
def clip (x y w h : Nat) : Option (Nat × Nat) :=
  if Config.panelW ≤ x ∨ Config.panelH ≤ y then none
  else if w = 0 ∨ h = 0 then none
  else some (min w (Config.panelW - x), min h (Config.panelH - y))

/-- The payload of COL_ADDR_SET or ROW_ADDR_SET for logical coordinates `from` to `from + n - 1` and the offset `off`
(30_encoding.md R107): each address a zero byte, then its low byte. -/
def addressBytes (off first n : Nat) : List Byte :=
  [0x00#8, BitVec.ofNat 8 (first + off), 0x00#8, BitVec.ofNat 8 (first + n - 1 + off)]

/-- `((r >> 3) << 11) | ((g >> 2) << 5) | (b >> 3)` as a `u16` (42_raster.md R190). -/
def packRgb (r g b : Byte) : Half :=
  ((r.zeroExtend 16 >>> 3) <<< 11) ||| ((g.zeroExtend 16 >>> 2) <<< 5) ||| (b.zeroExtend 16 >>> 3)

/-- `glyph_index(ch) = ch - 0x20`, an integer (43_text.md R221). -/
def glyphIndex (ch : Byte) : Int := (ch.toNat : Int) - Config.firstCh

/-- `glyph_offset(ch)` (43_text.md R221). -/
def glyphOffset (ch : Byte) : Int := glyphIndex ch * Config.glyphW * Config.ceilDiv Config.glyphH 8

/-- The bit test `(byte & (1 << (row % 8))) ≠ 0` choosing between the two colours (42_raster.md R198, R199). -/
def monoColor (byte : Byte) (row : Nat) (fg bg : Half) : Half :=
  if byte &&& (1#8 <<< (row % 8)) ≠ 0#8 then fg else bg

end Sys2Proof.Machine
end

