-- ==== Sys2Proof/Machine/Memory.lean ====
section
/-! DEFINITION. The element-indexed spaces of 20_memory.md R60 to R66 as sparse data in one canonical form: the listed
indices strictly rise. An index that is not listed has no listed value, so no entry can equal what an unlisted index reads
as; what the machine sees there is a free value (log 15, log 21). For bytes this is a list of `Host.Cell`. -/
namespace Sys2Proof.Machine

/-- A space of `w`-bit elements: the elements whose contents are known, by index. -/
abbrev Memory (w : Nat) := List (Nat × BitVec w)

/-- A space of bytes is a list of the host's cells. -/
abbrev ByteMemory := List Host.Cell

/-- The element listed at index `a`, if one is. -/
def Memory.get {w : Nat} : Memory w → Nat → Option (BitVec w)
  | [], _ => none
  | (b, v) :: m, a => if b = a then some v else Memory.get m a

/-- `MemWrite` (00_scope.md R15): list `v` at index `a`, keeping the order. -/
def Memory.put {w : Nat} : Memory w → Nat → BitVec w → Memory w
  | [], a, v => [(a, v)]
  | (b, u) :: m, a, v =>
    if a < b then (a, v) :: (b, u) :: m
    else if a = b then (a, v) :: m
    else (b, u) :: Memory.put m a v

/-- Every listed index is above `a`, and they strictly rise. -/
def Memory.risesFrom {w : Nat} : (a : Nat) → Memory w → Bool
  | _, [] => true
  | a, (b, _) :: m => decide (a < b) && Memory.risesFrom b m

/-- The canonical form: the listed indices strictly rise. -/
def Memory.wf {w : Nat} : Memory w → Bool
  | [] => true
  | (a, _) :: m => Memory.risesFrom a m

end Sys2Proof.Machine
end

