-- ==== Sys2Proof/Machine/Pins.lean ====
section
/-! DEFINITION. The pin registers (10_state.md R30) and the waveform of one byte (40_bus_transport.md R140, 30_encoding.md
R106). -/
namespace Sys2Proof.Machine

/-- The pin output registers and the output enables of the five lines (10_state.md R30). -/
structure Pins where
  /-- `CS_N`, the active-low device-select line. -/
  csN : Bool
  /-- `DC`, the command/data selector. -/
  dc : Bool
  /-- `RST_N`, the active-low hardware reset line. -/
  rstN : Bool
  /-- `SCK`, the serial clock, idle low. -/
  sck : Bool
  /-- `MOSI`, the serial data. -/
  mosi : Bool
  /-- `CS_N` is driven. -/
  csNOe : Bool
  /-- `DC` is driven. -/
  dcOe : Bool
  /-- `RST_N` is driven. -/
  rstNOe : Bool
  /-- `SCK` is driven. -/
  sckOe : Bool
  /-- `MOSI` is driven. -/
  mosiOe : Bool
  deriving DecidableEq, Repr

/-- The levels of `MOSI` and `SCK` while one bit is sent: the data changes while the clock is low, then a leading edge and
a trailing edge (40_bus_transport.md R140). -/
def bitWave (v : Bool) : List (Bool × Bool) := [(v, false), (v, true), (v, false)]

/-- The levels of `MOSI` and `SCK` while `b` is sent, for `i` from 7 down to 0 (40_bus_transport.md R140). -/
def byteWave (b : Byte) : List (Bool × Bool) := [7, 6, 5, 4, 3, 2, 1, 0].flatMap fun i => bitWave (b.getLsbD i)

/-- The levels of `MOSI` at the rising edges of `SCK`, `sck` the level before. -/
def risingSamples : (sck : Bool) → List (Bool × Bool) → List Bool
  | _, [] => []
  | sck, (mosi, sck') :: rest => if !sck && sck' then mosi :: risingSamples sck' rest else risingSamples sck' rest

/-- The byte of eight bits received most significant first (20_memory.md R67). -/
def assemble (bits : List Bool) : Byte := bits.foldl (fun acc v => (acc <<< 1) ||| (if v then 1#8 else 0#8)) 0#8

/-- The byte a receiver assembles from the waveform of `b`. -/
def receivedByte (b : Byte) : Byte := assemble (risingSamples false (byteWave b))

/-- The pins after a waveform. -/
def Pins.follow (p : Pins) : List (Bool × Bool) → Pins
  | [] => p
  | (mosi, sck) :: rest => Pins.follow { p with mosi := mosi, sck := sck } rest

end Sys2Proof.Machine
end

