-- ==== Sys2Proof/Machine/Sink.lean ====
section
/-! DEFINITION. The panel controller as a sink of frames: the reference model of 20_memory.md R87 to R94. It is environment,
in scope by 00_scope.md R3 item 7. What the rules leave unspecified is a free value (log 21, 22, 23). -/
namespace Sys2Proof.Machine

/-- What the sink takes the next byte sent with `DC` high for: the argument of the last command (20_memory.md R89 "expect
argument bytes"), one of the two bytes of a pixel (R91), or nothing its rules give a meaning. -/
inductive Expect where
  /-- no byte -/
  | nothing
  /-- the argument of 0x36 (R93) -/
  | orient
  /-- the argument of 0x3A (R93) -/
  | colMode
  /-- the argument bytes of 0x2A after those already received (R90) -/
  | columns (got : List Byte)
  /-- the argument bytes of 0x2B after those already received (R90) -/
  | rows (got : List Byte)
  /-- the first byte of a pixel (R91) -/
  | pixelHi
  /-- the second byte of a pixel whose first was `hi` (R91) -/
  | pixelLo (hi : Byte)
  /-- bytes after an input the rules leave unspecified (R92) -/
  | unspecified
  deriving DecidableEq, Repr

/-- The sink's state (20_memory.md R88). `expect` and `gen` are the model's own (log 21, log 22). -/
structure Sink where
  /-- `S_SLEEP`. -/
  sleep : Bool
  /-- `S_DISPON`. -/
  dispOn : Bool
  /-- `S_INV`. -/
  inv : Bool
  /-- `S_NORMAL`. -/
  normal : Bool
  /-- `S_ORIENT`. -/
  orient : Byte
  /-- `S_COLMODE`. -/
  colMode : Byte
  /-- `WIN_XS`. -/
  winXS : Half
  /-- `WIN_XE`. -/
  winXE : Half
  /-- `WIN_YS`. -/
  winYS : Half
  /-- `WIN_YE`. -/
  winYE : Half
  /-- `PTR_COL`. -/
  ptrCol : Nat
  /-- `PTR_ROW`. -/
  ptrRow : Nat
  /-- `S_WRITING`: 0x2C was the last command byte. -/
  writing : Bool
  /-- `PANEL`, the pixels whose values are known, by `panelAddr`. -/
  panel : Memory 16
  /-- What the next byte sent with `DC` high is. -/
  expect : Expect
  /-- Which set of free values stands for what is unspecified. -/
  gen : Nat
  deriving DecidableEq, Repr

/-- The index of the pixel at a column and a row address. A column address is taken to be below 65536, which every address sent in
two bytes is (20_memory.md R90): the model's choice where `NATIVE_COLS` is larger (log 30). -/
def panelAddr (col row : Nat) : Nat := row * 65536 + col

/-- `PANEL[col][row]`: the value written there, or a free value where none is known (log 21). -/
def Sink.pixel (k : Sink) (col row : Nat) : Half :=
  (k.panel.get (panelAddr col row)).getD (Config.panelUnlisted k.gen (panelAddr col row))

/-- The native memory, a rectangle of `NATIVE_COLS ≥ 160` by `NATIVE_ROWS ≥ 104` pixels, has a pixel at this address (00_scope.md
R10, decision D24): `NATIVE_COLS` is `max 160 Config.nativeCols`, `NATIVE_ROWS` is `max 104 Config.nativeRows`. Each bound is tested
in two parts, so that an address in 160 by 104 is seen to have a pixel without the open parameters; that the parts are the two
bounds is `nativePixel_iff`. -/
def nativePixel (col row : Nat) : Bool :=
  (decide (col < 160) || decide (col < Config.nativeCols)) && (decide (row < 104) || decide (row < Config.nativeRows))

/-- `PANEL` and the pointer become unspecified (20_memory.md R92; log 23). -/
def Sink.losePanel (k : Sink) : Sink :=
  { k with panel := [], gen := k.gen + 1, ptrCol := Config.sinkNat (k.gen + 1) 0, ptrRow := Config.sinkNat (k.gen + 1) 1 }

/-- Every piece of the sink's state becomes unspecified (20_memory.md R93; log 21, log 22). -/
def Sink.loseAll (k : Sink) : Sink where
  sleep := Config.sinkBool (k.gen + 1) 0
  dispOn := Config.sinkBool (k.gen + 1) 1
  inv := Config.sinkBool (k.gen + 1) 2
  normal := Config.sinkBool (k.gen + 1) 3
  writing := Config.sinkBool (k.gen + 1) 4
  orient := Config.sinkBits 8 (k.gen + 1) 0
  colMode := Config.sinkBits 8 (k.gen + 1) 1
  winXS := Config.sinkBits 16 (k.gen + 1) 2
  winXE := Config.sinkBits 16 (k.gen + 1) 3
  winYS := Config.sinkBits 16 (k.gen + 1) 4
  winYE := Config.sinkBits 16 (k.gen + 1) 5
  ptrCol := Config.sinkNat (k.gen + 1) 0
  ptrRow := Config.sinkNat (k.gen + 1) 1
  panel := []
  expect := .nothing
  gen := k.gen + 1

/-- The window's start is not beyond its end (20_memory.md R92). -/
def Sink.windowValid (k : Sink) : Bool :=
  decide (k.winXS.toNat ≤ k.winXE.toNat) && decide (k.winYS.toNat ≤ k.winYE.toNat)

/-- The pointer has just passed the window's last pixel: exactly as many pixels as the window holds were received. -/
def Sink.windowFull (k : Sink) : Bool :=
  k.windowValid && decide (k.ptrCol = k.winXS.toNat) && decide (k.ptrRow = k.winYE.toNat + 1)

/-- The frame being received may end here: no argument byte and no pixel of the window is outstanding. -/
def Sink.frameComplete (k : Sink) : Bool :=
  match k.expect with
  | .nothing => true
  | .unspecified => true
  | .pixelHi => k.windowFull
  | .orient | .colMode | .columns _ | .rows _ | .pixelLo _ => false

/-- The end of a frame (30_encoding.md R116): at the next command byte, or at the de-assertion of `CS_N`. A stream of fewer
pixels than the window holds leaves `PANEL` unspecified (20_memory.md R92); arguments cut off leave everything so. -/
def Sink.endFrame (k : Sink) : Sink :=
  match k.expect with
  | .nothing => k
  | .unspecified => { k with expect := .nothing }
  | .pixelHi => if k.windowFull then { k with expect := .nothing } else { k.losePanel with expect := .nothing }
  | .pixelLo _ => { k.losePanel with expect := .nothing }
  | .orient | .colMode | .columns _ | .rows _ => k.loseAll

/-- A command byte, with no frame before it outstanding (20_memory.md R89). -/
def Sink.decodeCommand (k : Sink) (c : Byte) : Sink :=
  let k := { k with writing := decide (c = 0x2C#8), expect := .nothing }
  match c.toNat with
  | 0x01 => k.loseAll
  | 0x10 => { k with sleep := true }
  | 0x11 => { k with sleep := false }
  | 0x13 => { k with normal := true }
  | 0x20 => { k with inv := false }
  | 0x21 => { k with inv := true }
  | 0x28 => { k with dispOn := false }
  | 0x29 => { k with dispOn := true }
  | 0x36 => { k with expect := .orient }
  | 0x3A => { k with expect := .colMode }
  | 0x2A => { k with expect := .columns [] }
  | 0x2B => { k with expect := .rows [] }
  | 0x2C => { k with ptrCol := k.winXS.toNat, ptrRow := k.winYS.toNat, expect := .pixelHi }
  | _ => { k.loseAll with expect := .unspecified }

/-- A byte received with `DC` low. -/
def Sink.command (k : Sink) (c : Byte) : Sink := k.endFrame.decodeCommand c

/-- One pixel (20_memory.md R91). It holds for colour mode 0x05, a valid window and no more pixels than it holds; anything
else leaves `PANEL` unspecified (R92; log 23). -/
def Sink.writePixel (k : Sink) (v : Half) : Sink :=
  if k.colMode = Config.colMode16 ∧ k.windowValid = true ∧ k.ptrRow ≤ k.winYE.toNat ∧ nativePixel k.ptrCol k.ptrRow = true then
    let k := { k with panel := k.panel.put (panelAddr k.ptrCol k.ptrRow) v, expect := .pixelHi }
    if k.ptrCol = k.winXE.toNat then { k with ptrCol := k.winXS.toNat, ptrRow := k.ptrRow + 1 }
    else { k with ptrCol := k.ptrCol + 1 }
  else { k.losePanel with expect := .unspecified }

/-- A byte received with `DC` high (20_memory.md R90, R91, R93). Where none is expected, all of the sink becomes unspecified, its
settings too; so it does when a stream goes on after a pixel that left `PANEL` unspecified, as in another colour mode (R91, R92):
the model's choice, log 22 and log 23. -/
def Sink.data (k : Sink) (b : Byte) : Sink :=
  match k.expect with
  | .orient => { k with orient := b, expect := .nothing }
  | .colMode => { k with colMode := b, expect := .nothing }
  | .columns [a0, a1, a2] => { k with winXS := halfOf a0 a1, winXE := halfOf a2 b, expect := .nothing }
  | .columns got => { k with expect := .columns (got ++ [b]) }
  | .rows [a0, a1, a2] => { k with winYS := halfOf a0 a1, winYE := halfOf a2 b, expect := .nothing }
  | .rows got => { k with expect := .rows (got ++ [b]) }
  | .pixelHi => { k with expect := .pixelLo b }
  | .pixelLo hi => k.writePixel (halfOf hi b)
  | .nothing => { k.loseAll with expect := .unspecified }
  | .unspecified => { k.loseAll with expect := .unspecified }

/-- A byte received with the level of `DC` sampled with it (20_memory.md R87). -/
def Sink.receive (k : Sink) (dc : Bool) (b : Byte) : Sink := if dc then k.data b else k.command b

/-- A low pulse on `RST_N` (20_memory.md R93). -/
def Sink.resetPulse (k : Sink) : Sink := k.loseAll

/-- The sink after one frame that it received from its first byte to its last, `ended` if the end of the frame was seen (by
the de-assertion of `CS_N`, 30_encoding.md R116). -/
def Sink.frame (k : Sink) (ended : Bool) (c : Byte) (payload : List Byte) : Sink :=
  let k := payload.foldl Sink.data (k.command c)
  if ended then k.endFrame else k

end Sys2Proof.Machine
end

