-- ==== Sys2Proof/Machine/Trace.lean ====
section
/-! DEFINITION. The events of 00_scope.md R16, the events a transaction emits (40_bus_transport.md R143), the frame view of a
trace (R16) and the pairs of `DC` level and byte the panel receives (40_bus_transport.md R155). -/
namespace Sys2Proof.Machine

/-- The closed alphabet of trace events (00_scope.md R16). -/
inductive Event where
  | acq
  | rel
  | cs (l : Bool)
  | dc (l : Bool)
  | rst (l : Bool)
  | tx8 (b : Byte)
  | delay (ms : Nat)
  | pinCfg
  | busInit
  deriving DecidableEq, Repr

/-- A line event of the device-select line, which exists only if `HAS_CS` (40_bus_transport.md R142). -/
def csEvents (hasCs l : Bool) : List Event := if hasCs then [.cs l] else []

/-- The payload's events: the selector goes high only if a payload follows (40_bus_transport.md R143). -/
def payloadEvents (payload : List Byte) : List Event :=
  match payload with
  | [] => []
  | b :: bs => .dc true :: (b :: bs).map .tx8

/-- The events of `TXN(c, P)` (40_bus_transport.md R143). -/
def txnEvents (hasCs : Bool) (c : Byte) (payload : List Byte) : List Event :=
  .acq :: csEvents hasCs false ++ .dc false :: .tx8 c :: payloadEvents payload ++ .rel :: csEvents hasCs true

/-- A line of the frame view (00_scope.md R16). -/
inductive View where
  | frame (c : Byte) (payload : List Byte)
  | rst (l : Bool)
  | delay (ms : Nat)
  deriving DecidableEq, Repr

/-- The frame view of the rest of a trace, `sent` the bytes since the last `ACQ` if a transaction is open. R16 defines it for the
transactions of R143. That any bytes between an `ACQ` and a `REL` count as a frame, whatever `DC` and `CS_N` are, is the model's
choice for transport micro-operations run alone; so it is that a `DELAY` or `RST` between them stands before their frame, and that a
frame still open at the end of the trace does not stand in the view (log 29). -/
def frameViewFrom : (sent : Option (List Byte)) → List Event → List View
  | _, [] => []
  | _, .acq :: es => frameViewFrom (some []) es
  | some (c :: payload), .rel :: es => .frame c payload :: frameViewFrom none es
  | _, .rel :: es => frameViewFrom none es
  | some bytes, .tx8 b :: es => frameViewFrom (some (bytes ++ [b])) es
  | none, .tx8 _ :: es => frameViewFrom none es
  | sent, .rst l :: es => .rst l :: frameViewFrom sent es
  | sent, .delay n :: es => .delay n :: frameViewFrom sent es
  | sent, .cs _ :: es => frameViewFrom sent es
  | sent, .dc _ :: es => frameViewFrom sent es
  | sent, .pinCfg :: es => frameViewFrom sent es
  | sent, .busInit :: es => frameViewFrom sent es

/-- The frame view of a trace: its frames, its `RST` events and its `DELAY` events, in order (00_scope.md R16). -/
def frameView (es : List Event) : List View := frameViewFrom none es

/-- The pairs (level of `DC`, byte) the panel receives, `l` the level before the trace (40_bus_transport.md R155). -/
def dcBytes : (l : Bool) → List Event → List (Bool × Byte)
  | _, [] => []
  | _, .dc l :: es => dcBytes l es
  | l, .tx8 b :: es => (l, b) :: dcBytes l es
  | l, .acq :: es => dcBytes l es
  | l, .rel :: es => dcBytes l es
  | l, .cs _ :: es => dcBytes l es
  | l, .rst _ :: es => dcBytes l es
  | l, .delay _ :: es => dcBytes l es
  | l, .pinCfg :: es => dcBytes l es
  | l, .busInit :: es => dcBytes l es

/-- The bus lock after a trace, `none` if the trace acquires a bus that is held or shifts a byte out on a bus that is not
(40_bus_transport.md R140, R144, R151). -/
def lockAfter : (held : Bool) → List Event → Option Bool
  | held, [] => some held
  | held, .acq :: es => if held then none else lockAfter true es
  | _, .rel :: es => lockAfter false es
  | held, .tx8 _ :: es => if held then lockAfter held es else none
  | held, .cs _ :: es => lockAfter held es
  | held, .dc _ :: es => lockAfter held es
  | held, .rst _ :: es => lockAfter held es
  | held, .delay _ :: es => lockAfter held es
  | held, .pinCfg :: es => lockAfter held es
  | held, .busInit :: es => lockAfter held es

/-- The event exists under these straps (00_scope.md R16). -/
def Event.allowed (hasCs hasRst : Bool) : Event → Bool
  | .cs _ => hasCs
  | .rst _ => hasRst
  | .acq | .rel | .dc _ | .tx8 _ | .delay _ | .pinCfg | .busInit => true

/-- The number of pixel words a frame streams: half the payload of a `0x2C` frame (30_encoding.md R108). -/
def View.pixels : View → Nat
  | .frame c payload => if c = 0x2C#8 then payload.length / 2 else 0
  | .rst _ => 0
  | .delay _ => 0

/-- The number of pixel words a trace streams. -/
def pixelCount (es : List Event) : Nat := ((frameView es).map View.pixels).sum

end Sys2Proof.Machine
end

