-- ==== Sys2Proof/Machine/State.lean ====
section
/-! DEFINITION. The state of the block (10_state.md), of the panel sink (20_memory.md R88) and of what stands outside: host
arrays, glyph table, straps, arbiter, requests to come. -/
namespace Sys2Proof.Machine

/-- There is no fault: "The block raises no exception, fault or trap of any kind" (60_exceptions.md R270). No step raises
one. -/
inductive Fault where
  deriving DecidableEq, Repr

/-- Why the model gives a step no next state. -/
inductive Refusal where
  /-- An instruction without a meaning. No arm of `exec` raises it. Safe. -/
  | notModelled (mnemonic : String)
  /-- A request other than BEGIN or RGB, or a micro-operation that drives a line, while `BEGUN = 0`: not defined, "a model
  refuses it" (10_state.md R28, 93_implementation_defined.md U2). Raised by the requests, `acquire`, TX8, TX16 and RSTPULSE.
  Safe. -/
  | beforeBegin
  /-- ACQUIRE while `LOCK = 1`, which "is never executed" (40_bus_transport.md R144). Raised by `acquire`. Safe. -/
  | lockHeld
  /-- TX8 or TX16 while `LOCK = 0`, against the precondition of 40_bus_transport.md R140. Raised by TX8 and TX16. Safe. -/
  | lockNotHeld
  /-- RSTPULSE without a reset line, against its precondition `HAS_RST` (40_bus_transport.md R153). Safe. -/
  | noResetLine
  /-- Operands outside the domain the rule states: SELECT (41_addressing.md R174), SENDDATA16, SENDDATAREP
  (40_bus_transport.md R148, R149), MEM_WRITE without a pixel (30_encoding.md R103). Raised by those four. Safe. -/
  | operandDomain
  /-- SENDDATA8, of which "A model must not give it a meaning" (40_bus_transport.md R150). Safe. -/
  | sendData8
  /-- A frame or micro-operation code that holds none (30_encoding.md R115). Raised by `step`. Safe. -/
  | badCode
  deriving DecidableEq, Repr

/-- `PSTATE`, the Controller Power State (10_state.md R27). -/
inductive PState where
  | uninit
  | sleeping
  | awake
  deriving DecidableEq, Repr

/-- `SEQ`, the sequencer position (10_state.md R24): idle, or the operation being executed and how many events of it have
been emitted (log 18). -/
inductive Seq where
  | idle
  | running (op : BitVec 4) (pos : Nat)
  deriving DecidableEq, Repr

/-- The working registers (10_state.md R22). -/
structure Work where
  /-- `WC`: clipped width. -/
  wc : BitVec 8
  /-- `HC`: clipped height. -/
  hc : BitVec 8
  /-- `ROW`. -/
  row : BitVec 8
  /-- `COL`. -/
  col : BitVec 8
  /-- `CNT`: words still to send of a stream. -/
  cnt : BitVec 14
  /-- `CURX`: text cursor. -/
  curx : Half
  /-- `CIDX`: index of the current character. -/
  cidx : Half
  /-- `GOFF`: byte offset of the current glyph. -/
  goff : Int
  /-- `SUBX`: the arguments of a primitive that a composite operation invokes, from here on (10_state.md R25). -/
  subx : Half
  /-- `SUBY`. -/
  suby : Half
  /-- `SUBW`. -/
  subw : Half
  /-- `SUBH`. -/
  subh : Half
  /-- `SUBC0`. -/
  subc0 : Half
  /-- `SUBC1`. -/
  subc1 : Half
  /-- `SUBSRC`. -/
  subsrc : Word
  /-- `SUBSP`: where the composite operation goes on. -/
  subsp : BitVec 2
  deriving DecidableEq, Repr

/-- The machine and its surroundings. Plain data. -/
structure State where
  /-- `PSTATE` (10_state.md R27). -/
  pstate : PState
  /-- `BEGUN` (10_state.md R28). -/
  begun : Bool
  /-- `BUSY` (10_state.md R26). -/
  busy : Bool
  /-- `SEQ` (10_state.md R24). -/
  seq : Seq
  /-- `LOCK` (10_state.md R38). -/
  lock : Bool
  /-- `bus_req` (40_bus_transport.md R144). -/
  busReq : Bool
  /-- `DLY` (10_state.md R31). -/
  dly : Nat
  /-- `resp_done` (10_state.md R32). -/
  respDone : Bool
  /-- `resp_data` (10_state.md R32). -/
  respData : Half
  /-- The operand registers (10_state.md R21). -/
  opnd : Operands
  /-- The working registers (10_state.md R22). -/
  work : Work
  /-- `LINE[0..159]`, the scratch line (10_state.md R35). -/
  line : Vector Half 160
  /-- The pin registers and output enables (10_state.md R30). -/
  pins : Pins
  /-- `TRACE` (10_state.md R39), the newest event first. -/
  traceRev : List Event
  /-- The panel controller as a sink (20_memory.md R88). -/
  sink : Sink
  /-- Strap `HAS_CS` (10_state.md R29). -/
  hasCs : Bool
  /-- Strap `HAS_RST` (10_state.md R29). -/
  hasRst : Bool
  /-- `GLYPH_COUNT` (00_scope.md R10). -/
  glyphCount : Nat
  /-- `GLYPH_ROM` (20_memory.md R63). -/
  rom : ByteMemory
  /-- `PIX` (20_memory.md R60). -/
  pix : Memory 16
  /-- `BITS` (20_memory.md R61). -/
  bits : ByteMemory
  /-- `TEXT` (20_memory.md R62). -/
  text : ByteMemory
  /-- How many more acquisitions the arbiter grants, `none` for every one (40_bus_transport.md R144; log 5). -/
  grants : Option Nat
  /-- What the host presents next, in order (log 3). -/
  inputs : List Code
  /-- `blk_rst` is asserted (70_reset_and_hazards.md R300). -/
  blkRst : Bool
  /-- The model's own: index of the next free value. -/
  freeCtr : Nat
  deriving DecidableEq, Repr

/-- `TRACE` in the order of emission (10_state.md R39). -/
def State.trace (s : State) : List Event := s.traceRev.reverse

/-- Working registers at zero (log 12). -/
def zeroWork : Work :=
  { wc := 0, hc := 0, row := 0, col := 0, cnt := 0, curx := 0, cidx := 0, goff := 0, subx := 0, suby := 0, subw := 0,
    subh := 0, subc0 := 0, subc1 := 0, subsrc := 0, subsp := 0 }

/-- The pins after the block's reset: no line driven (10_state.md R40), the output registers at their inactive levels
(log 12). -/
def resetPins : Pins :=
  { csN := true, dc := true, rstN := true, sck := false, mosi := false, csNOe := false, dcOe := false, rstNOe := false,
    sckOe := false, mosiOe := false }

/-- The sink of the reset state (log 20). -/
def resetSink : Sink :=
  { sleep := false, dispOn := false, inv := false, normal := false, orient := 0, colMode := 0, winXS := 0, winXE := 0,
    winYS := 0, winYE := 0, ptrCol := 0, ptrRow := 0, writing := false, panel := [], expect := .nothing, gen := 0 }

/-- The machine right after the block's reset (10_state.md R40, 70_reset_and_hazards.md R306). -/
def State.reset : State :=
  { pstate := .uninit, begun := false, busy := false, seq := .idle, lock := false, busReq := false, dly := 0,
    respDone := false, respData := 0, opnd := zeroOperands, work := zeroWork, line := Vector.replicate 160 0,
    pins := resetPins, traceRev := [], sink := resetSink, hasCs := true, hasRst := true, glyphCount := 0, rom := [],
    pix := [], bits := [], text := [], grants := none, inputs := [], blkRst := false, freeCtr := 0 }

end Sys2Proof.Machine
end

