-- ==== Sys2Proof/Machine/Ops.lean ====
section
/-! DEFINITION. The shared operations: events, the transaction and the other transport micro-operations
(40_bus_transport.md), SELECT (41_addressing.md R174), the reads of the source spaces (20_memory.md), accepting and completing
a request (30_encoding.md R102) and the block's own reset (70_reset_and_hazards.md R300). The block takes no exception and
returns from none (60_exceptions.md R270, R277, R279). -/
namespace Sys2Proof.Machine

/-- How a sequence of micro-operations ends. -/
inductive Res where
  /-- its last step is done -/
  | done (s : State)
  /-- it waits in an ACQUIRE that the arbiter never grants (60_exceptions.md R278) -/
  | hung (s : State)
  /-- the spec gives it no meaning here -/
  | refused (r : Refusal)

/-- The next micro-operation, once the one before is done. -/
def Res.andThen : Res → (State → Res) → Res
  | .done s, f => f s
  | .hung s, _ => .hung s
  | .refused r, _ => .refused r

/-- Apply a change of registers once the micro-operation before is done. -/
def Res.map (f : State → State) : Res → Res
  | .done s => .done (f s)
  | .hung s => .hung s
  | .refused r => .refused r

-- Events and lines.

/-- The next position after `n` micro-operations (10_state.md R25). -/
def Seq.advance (n : Nat) : Seq → Seq
  | .idle => .idle
  | .running op pos => .running op (pos + n)

/-- `emit(e)` (00_scope.md R16). -/
def State.emit (e : Event) (s : State) : State :=
  { s with traceRev := e :: s.traceRev, seq := s.seq.advance 1 }

/-- `CS(l)`: nothing without a device-select line (40_bus_transport.md R142). A rising `CS_N` ends the frame the sink is
receiving (30_encoding.md R116). -/
def State.driveCs (l : Bool) (s : State) : State :=
  if s.hasCs then
    State.emit (.cs l)
      { s with pins := { s.pins with csN := l }, sink := if l then s.sink.endFrame else s.sink }
  else s

/-- `DC(l)` (40_bus_transport.md R142). -/
def State.driveDc (l : Bool) (s : State) : State :=
  State.emit (.dc l) { s with pins := { s.pins with dc := l } }

/-- `RST(l)` (40_bus_transport.md R153). A low level resets the panel controller (20_memory.md R93). -/
def State.driveRst (l : Bool) (s : State) : State :=
  State.emit (.rst l)
    { s with pins := { s.pins with rstN := l }, sink := if l then s.sink else s.sink.resetPulse }

/-- The sink listens: always without a device-select line, else while `CS_N` is low (20_memory.md R87; log 27). -/
def State.sinkListens (s : State) : Bool := !s.hasCs || !s.pins.csN

/-- TX8(b) (40_bus_transport.md R140): the waveform on `MOSI` and `SCK`, and the byte the sink samples from it. -/
def State.tx8 (b : Byte) (s : State) : State :=
  State.emit (.tx8 b)
    { s with
      pins := s.pins.follow (byteWave b)
      sink := if s.sinkListens then s.sink.receive s.pins.dc (receivedByte b) else s.sink }

/-- TX16(v) (40_bus_transport.md R141). -/
def State.tx16 (v : Half) (s : State) : State := State.tx8 (lo8 v) (State.tx8 (hi8 v) s)

/-- TX8 of each byte in turn, as one update of the four fields TX8 writes; that it is TX8 repeated is
`State.tx8s_eq_foldl`. -/
def State.tx8s (bytes : List Byte) (s : State) : State :=
  { s with
    traceRev := (bytes.map Event.tx8).reverse ++ s.traceRev
    seq := s.seq.advance bytes.length
    pins := bytes.foldl (fun p b => p.follow (byteWave b)) s.pins
    sink := if s.sinkListens then bytes.foldl (fun k b => k.receive s.pins.dc (receivedByte b)) s.sink else s.sink }

-- The transaction.

/-- ACQUIRE (40_bus_transport.md R144). Without a grant the block waits with `bus_req = 1` and `LOCK = 0`
(60_exceptions.md R278). -/
def acquire (s : State) : Res :=
  if s.begun = false then .refused .beforeBegin
  else if s.lock = true then .refused .lockHeld
  else
    match s.grants with
    | none => .done (State.emit .acq { s with busReq := true, lock := true })
    | some 0 => .hung { s with busReq := true }
    | some (n + 1) => .done (State.emit .acq { s with busReq := true, lock := true, grants := some n })

/-- RELEASE (40_bus_transport.md R151). -/
def State.release (s : State) : State := State.emit .rel { s with busReq := false, lock := false }

/-- The payload of a transaction: the selector goes high only if a payload follows (40_bus_transport.md R143). -/
def State.sendPayload (payload : List Byte) (s : State) : State :=
  match payload with
  | [] => s
  | b :: bs => State.tx8s (b :: bs) (State.driveDc true s)

/-- TXN(c, P) (40_bus_transport.md R143). -/
def txn (c : Byte) (payload : List Byte) (s : State) : Res :=
  (acquire s).map fun s =>
    State.driveCs true (State.release (State.sendPayload payload (State.tx8 c (State.driveDc false (State.driveCs false s)))))

/-- SENDCMD0(c) (40_bus_transport.md R145). -/
def sendCmd0 (c : Byte) (s : State) : Res := txn c [] s

/-- SENDCMD1(c, a) (40_bus_transport.md R146). -/
def sendCmd1 (c a : Byte) (s : State) : Res := txn c [a] s

/-- SENDCMDN(c, A, n) (40_bus_transport.md R147). -/
def sendCmdN (c : Byte) (args : List Byte) (s : State) : Res := txn c args s

/-- SENDDATA16(V, n) (40_bus_transport.md R148). -/
def sendData16 (pixels : List Half) (s : State) : Res := txn 0x2C#8 (pixelBytes pixels) s

/-- `CNT <- n`. -/
def State.setCnt (n : Nat) (s : State) : State := { s with work := { s.work with cnt := BitVec.ofNat 14 n } }

/-- SENDDATAREP(v, n): one transaction, `CNT` counted down from `n` (40_bus_transport.md R149). -/
def sendDataRep (v : Half) (n : Nat) (s : State) : Res :=
  (txn 0x2C#8 (pixelBytes (List.replicate n v)) (State.setCnt n s)).map (State.setCnt 0)

-- Delay and reset pulse.

/-- DELAY(n): one event; `DLY` is 0 again when it is over (40_bus_transport.md R152, 10_state.md R31). -/
def State.delay (n : Nat) (s : State) : State := State.emit (.delay n) { s with dly := 0 }

/-- RSTPULSE (40_bus_transport.md R153). -/
def State.rstPulse (s : State) : State :=
  State.delay Config.tRstHigh (State.driveRst true (State.delay Config.tRstLow (State.driveRst false s)))

-- Addressing.

/-- `WC <- w_c; HC <- h_c` (41_addressing.md R171). -/
def State.setClip (wc hc : Nat) (s : State) : State :=
  { s with work := { s.work with wc := BitVec.ofNat 8 wc, hc := BitVec.ofNat 8 hc } }

/-- SELECT(x, y, w, h): the column frame, then the row frame (41_addressing.md R174). -/
def select (x y w h : Nat) (s : State) : Res :=
  (sendCmdN 0x2A#8 (addressBytes Config.colOff x w) s).andThen (sendCmdN 0x2B#8 (addressBytes Config.rowOff y h))

-- Reading the source spaces.

/-- `n` free values are used up. -/
def State.useFree (n : Nat) (s : State) : State := { s with freeCtr := s.freeCtr + n }

/-- What the host's `PIX` holds at index `i` (20_memory.md R60; log 15). -/
def State.pixAt (s : State) (i : Nat) : Half := (s.pix.get i).getD (Config.pixUnlisted i)

/-- What the host's `BITS` holds at index `i` (20_memory.md R61; log 15). -/
def State.bitsAt (s : State) (i : Nat) : Byte := (Memory.get s.bits i).getD (Config.bitsUnlisted i)

/-- What the host's `TEXT` holds at index `i` (20_memory.md R62; log 15). -/
def State.textAt (s : State) (i : Nat) : Byte := (Memory.get s.text i).getD (Config.textUnlisted i)

/-- What the glyph table holds at byte `i` inside it (20_memory.md R63; log 14). -/
def State.romAt (s : State) (i : Nat) : Byte := (Memory.get s.rom i).getD (Config.romUnlisted i)

/-- `SrcPix(i)` (00_scope.md R15). An index past the 32-bit range reads as a free value (20_memory.md R60; log 17). -/
def readPix (i : Nat) (s : State) : Half × State :=
  if i < Config.spaceSize then (s.pixAt i, s) else (Config.freeBits 16 s.freeCtr, s.useFree 1)

/-- `SrcByte(i)` (00_scope.md R15), as `readPix`. -/
def readBits (i : Nat) (s : State) : Byte × State :=
  if i < Config.spaceSize then (s.bitsAt i, s) else (Config.freeBits 8 s.freeCtr, s.useFree 1)

/-- `Text(i)` (00_scope.md R15), as `readPix`. -/
def readText (i : Nat) (s : State) : Byte × State :=
  if i < Config.spaceSize then (s.textAt i, s) else (Config.freeBits 8 s.freeCtr, s.useFree 1)

/-- `Rom(i)` (00_scope.md R15). Outside the table every read gives a fresh free value (20_memory.md R63; log 16). -/
def readRom (i : Int) (s : State) : Byte × State :=
  if 0 ≤ i ∧ i < (Config.glyphBytes * s.glyphCount : Nat) then (s.romAt i.toNat, s)
  else (Config.freeBits 8 s.freeCtr, s.useFree 1)

-- Accepting and completing a request.

/-- The handshake accepts a request (30_encoding.md R102, 10_state.md R25): the operand registers are loaded, `BUSY <- 1`,
`SEQ` stands at step 0. `resp_data`, unspecified until the request is over (R32), keeps its value: the model's choice (log 10). -/
def State.accept (load : Operands → Operands) (s : State) : State :=
  { s with opnd := load s.opnd, busy := true, seq := .running (load s.opnd).op 0, respDone := false }

/-- The last step is done (10_state.md R25, R32): `SEQ` is idle, `BUSY <- 0`, `resp_done`. `resp_data` is unspecified
(log 10). -/
def State.complete (s : State) : State :=
  { s with busy := false, seq := .idle, respDone := true, respData := Config.freeBits 16 s.freeCtr,
           freeCtr := s.freeCtr + 1 }

/-- The last step of RGB: as `State.complete`, with a value on `resp_data` (42_raster.md R190). -/
def State.completeWith (v : Half) (s : State) : State :=
  { s with busy := false, seq := .idle, respDone := true, respData := v }

/-- How a request ends. One that waits for a grant stays in progress (60_exceptions.md R278; log 5). -/
def Res.request : Res → Host.Outcome State Fault Refusal
  | .done s => .next s.complete
  | .hung s => .next s
  | .refused r => .refused r

/-- How a micro-operation ends that is run alone (log 2). In a wait without a grant the sequencer is busy. -/
def Res.micro : Res → Host.Outcome State Fault Refusal
  | .done s => .next s
  | .hung s => .next { s with busy := true }
  | .refused r => .refused r

/-- A request that uses the bus or the lines: ignored while `BUSY = 1` (60_exceptions.md R276), refused before BEGIN
(10_state.md R28; log 6). With the bus held by an ACQUIRE run alone, one that sends no frame completes and leaves it held: the model's
choice (log 7). -/
def serve (load : Operands → Operands) (body : State → Res) (s : State) : Host.Outcome State Fault Refusal :=
  if s.busy = true then .next s
  else if s.begun = false then .refused .beforeBegin
  else (body (s.accept load)).request

-- The block's own reset.

/-- Operand registers with unspecified contents (10_state.md R40; log 11). -/
def freeOperands (n : Nat) : Operands :=
  { op := Config.freeBits 4 n, on := Config.freeBool n, ch := Config.freeBits 8 n, x := Config.freeBits 16 n,
    y := Config.freeBits 16 (n + 1), wd := Config.freeBits 16 (n + 2), ht := Config.freeBits 16 (n + 3),
    c0 := Config.freeBits 16 (n + 4), c1 := Config.freeBits 16 (n + 5), src := Config.freeBits 32 n,
    len := Config.freeBits 16 (n + 6), r8 := Config.freeBits 8 (n + 1), g8 := Config.freeBits 8 (n + 2),
    b8 := Config.freeBits 8 (n + 3) }

/-- Working registers with unspecified contents (10_state.md R40; log 11). -/
def freeWork (n : Nat) : Work :=
  { wc := Config.freeBits 8 (n + 4), hc := Config.freeBits 8 (n + 5), row := Config.freeBits 8 (n + 6),
    col := Config.freeBits 8 (n + 7), cnt := Config.freeBits 14 n, curx := Config.freeBits 16 (n + 7),
    cidx := Config.freeBits 16 (n + 8), goff := Config.freeInt n, subx := Config.freeBits 16 (n + 9),
    suby := Config.freeBits 16 (n + 10), subw := Config.freeBits 16 (n + 11), subh := Config.freeBits 16 (n + 12),
    subc0 := Config.freeBits 16 (n + 13), subc1 := Config.freeBits 16 (n + 14), subsrc := Config.freeBits 32 (n + 1),
    subsp := Config.freeBits 2 n }

/-- Pins no longer driven, their output registers unspecified (10_state.md R30, R40; log 11). -/
def freePins (n : Nat) : Pins :=
  { csN := Config.freeBool (n + 1), dc := Config.freeBool (n + 2), rstN := Config.freeBool (n + 3),
    sck := Config.freeBool (n + 4), mosi := Config.freeBool (n + 5), csNOe := false, dcOe := false, rstNOe := false,
    sckOe := false, mosiOe := false }

/-- The block's own reset (10_state.md R40, 70_reset_and_hazards.md R300, R302, R304). In the middle of a request the events
already emitted stay in `TRACE` and the sink becomes unspecified (R302); else `TRACE` is empty again and the panel is not
reached (R304). `blk_rst` is released; straps, arrays, glyph table, arbiter and host are outside the block (log 11). -/
def State.blockReset (s : State) : State :=
  { s with
    pstate := .uninit, begun := false, busy := false, seq := .idle, lock := false, busReq := false, dly := 0,
    respDone := false, respData := Config.freeBits 16 (s.freeCtr + 15), opnd := freeOperands s.freeCtr,
    work := freeWork s.freeCtr, line := Vector.ofFn fun i => Config.freeBits 16 (s.freeCtr + 16 + i.val),
    pins := freePins s.freeCtr, traceRev := if s.busy then s.traceRev else [],
    sink := if s.busy then s.sink.loseAll else s.sink, blkRst := false, freeCtr := s.freeCtr + 176 }

-- What the step around an instruction does.

/-- The fields of a presented request are latched into the operand registers of the same name (10_state.md R21, 30_encoding.md
R102). Nothing is latched for a frame or a micro-operation that is run alone; the pulse of `resp_done` of a request before it is over
(10_state.md R32, log 2). -/
def State.latch (c : Code) (s : State) : State :=
  match c with
  | .request w => { s with opnd := unpack w }
  | .frame _ => { s with respDone := false }
  | .micro _ => { s with respDone := false }

/-- A request with a reserved code: accepted and completed at once, no event, no state change, `resp_data` unspecified
(30_encoding.md R114). It is so before BEGIN too, where R28 lets a model refuse: the model's choice (log 9). So is
that it leaves a bus held that an ACQUIRE run alone holds (log 7). -/
def State.completeReserved (s : State) : State :=
  { s with respDone := true, respData := Config.freeBits 16 s.freeCtr, freeCtr := s.freeCtr + 1 }

/-- Nothing is presented: the block waits in `IDLE` (10_state.md R40); the pulse of `resp_done` is over (R32). `resp_data`, then
unspecified (R32), keeps its value: the model's choice (log 10). -/
def State.idleStep (s : State) : State := { s with respDone := false }

/-- Present the code that the opcode table numbers as the bits `w`, `nbits` of them, as the next thing to run: the sequencer is idle
(`BUSY` is 0, `SEQ` is `IDLE`, 10_state.md R24). A wait for a grant that the block is in is given up by this, no event of the hardware,
and `bus_req` keeps its level: the model's choice (log 3). -/
def State.present (s : State) (nbits w : Nat) : State :=
  { s with inputs := tableCode nbits w :: s.inputs, busy := false, seq := .idle, blkRst := false }

end Sys2Proof.Machine
end

