-- ==== Sys2Proof/WellFormed.lean ====
section
/-! DEFINITION. The operand domains the rules state. A request has none: every operand value is legal
(60_exceptions.md R271). -/
namespace Sys2Proof

/-- The precondition of SELECT (41_addressing.md R174); outside it "SELECT is not defined and is never invoked". -/
def selectDomain (x y w h : Nat) : Bool :=
  decide (1 ≤ w) && decide (1 ≤ h) && decide (x + w ≤ Config.panelW) && decide (y + h ≤ Config.panelH)

/-- `n ≥ 1` pixel words (40_bus_transport.md R148; format `FS`, 30_encoding.md R103). -/
def streamDomain (pixels : List Half) : Bool := !pixels.isEmpty

/-- `n ≥ 1`, at most 12800 (40_bus_transport.md R149). -/
def repDomain (n : Nat) : Bool := decide (1 ≤ n) && decide (n ≤ Config.maxStream)

/-- The operands of the instruction are in the domain its rule states. -/
def Instr.wf : Instr → Bool
  | .frmMemWrite pixels => streamDomain pixels
  | .mopSendData16 pixels => streamDomain pixels
  | .mopSendDataRep _ n => repDomain n
  | .mopSelect x y w h => selectDomain x y w h
  | .reqBegin | .reqReset | .reqPower _ | .reqFlip _ | .reqInverse _ | .reqFill _ _ _ _ _ | .reqBlit _ _ _ _ _
  | .reqMonoBlit _ _ _ _ _ _ _ | .reqDrawChar _ _ _ _ _ | .reqDrawString _ _ _ _ _ _ | .reqRgb _ _ _
  | .frmSoftReset | .frmExitSleep | .frmEnterSleep | .frmSetOrient _ | .frmSetColMode _ | .frmNormalOn
  | .frmInvertOff | .frmInvertOn | .frmDisplayOn | .frmDisplayOff | .frmColAddrSet _ _ | .frmRowAddrSet _ _
  | .mopTx8 _ | .mopTx16 _ | .mopTxn _ _ | .mopAcquire | .mopRelease | .mopSendCmd0 _ | .mopSendCmd1 _ _
  | .mopSendCmdN _ _ | .mopSendData8 | .mopDelay _ | .mopRstPulse | .mopClip _ _ _ _ => true

end Sys2Proof
end

