-- ==== Sys2Proof/Machine/Frames.lean ====
section
/-! DEFINITION. The thirteen bus frames (30_encoding.md R104): the block sends each as one transaction
(40_bus_transport.md R143), and the sink reads it (20_memory.md R89 to R93). -/
namespace Sys2Proof.Machine

/-- SOFT_RESET (30_encoding.md R104; read by the sink as 20_memory.md R93 says). -/
def execFrmSoftReset (s : State) : Host.Outcome State Fault Refusal := (txn 0x01#8 [] s).micro

/-- EXIT_SLEEP (30_encoding.md R104; read by the sink as 20_memory.md R89 says). -/
def execFrmExitSleep (s : State) : Host.Outcome State Fault Refusal := (txn 0x11#8 [] s).micro

/-- ENTER_SLEEP (30_encoding.md R104; read by the sink as 20_memory.md R89 says). -/
def execFrmEnterSleep (s : State) : Host.Outcome State Fault Refusal := (txn 0x10#8 [] s).micro

/-- SET_ORIENT (30_encoding.md R104; read by the sink as 20_memory.md R93 says). -/
def execFrmSetOrient (arg : Byte) (s : State) : Host.Outcome State Fault Refusal := (txn 0x36#8 [arg] s).micro

/-- SET_COLMODE (30_encoding.md R104; read by the sink as 20_memory.md R93 says). -/
def execFrmSetColMode (arg : Byte) (s : State) : Host.Outcome State Fault Refusal := (txn 0x3A#8 [arg] s).micro

/-- NORMAL_ON (30_encoding.md R104; read by the sink as 20_memory.md R89 says). -/
def execFrmNormalOn (s : State) : Host.Outcome State Fault Refusal := (txn 0x13#8 [] s).micro

/-- INVERT_OFF (30_encoding.md R104; read by the sink as 20_memory.md R89 says). -/
def execFrmInvertOff (s : State) : Host.Outcome State Fault Refusal := (txn 0x20#8 [] s).micro

/-- INVERT_ON (30_encoding.md R104; read by the sink as 20_memory.md R89 says). -/
def execFrmInvertOn (s : State) : Host.Outcome State Fault Refusal := (txn 0x21#8 [] s).micro

/-- DISPLAY_ON (30_encoding.md R104; read by the sink as 20_memory.md R89 says). -/
def execFrmDisplayOn (s : State) : Host.Outcome State Fault Refusal := (txn 0x29#8 [] s).micro

/-- DISPLAY_OFF (30_encoding.md R104; read by the sink as 20_memory.md R89 says). -/
def execFrmDisplayOff (s : State) : Host.Outcome State Fault Refusal := (txn 0x28#8 [] s).micro

/-- COL_ADDR_SET (30_encoding.md R104; read by the sink as 20_memory.md R90 says). -/
def execFrmColAddrSet (start stop : Half) (s : State) : Host.Outcome State Fault Refusal := (txn 0x2A#8 (halfBytes start ++ halfBytes stop) s).micro

/-- ROW_ADDR_SET (30_encoding.md R104; read by the sink as 20_memory.md R90 says). -/
def execFrmRowAddrSet (start stop : Half) (s : State) : Host.Outcome State Fault Refusal := (txn 0x2B#8 (halfBytes start ++ halfBytes stop) s).micro

/-- MEM_WRITE, `N ≥ 1` pixels (30_encoding.md R104; read by the sink as 20_memory.md R91 says). -/
def execFrmMemWrite (pixels : List Half) (s : State) : Host.Outcome State Fault Refusal :=
  if streamDomain pixels then (txn 0x2C#8 (pixelBytes pixels) s).micro else .refused .operandDomain

end Sys2Proof.Machine
end

