-- ==== Sys2Proof/Machine/Raster.lean ====
section
/-! DEFINITION. The colour packing function and the raster primitives (42_raster.md). -/
namespace Sys2Proof.Machine

/-- Where MONOBLIT reads its bitmap (42_raster.md R198): the host's `BITS`, or the glyph table when DRAWCHAR invokes it. -/
inductive BitmapSource where
  | host
  | rom
  deriving DecidableEq, Repr

-- FILL

/-- FILL(x, y, w, h, color) (42_raster.md R192). -/
def fill (x y w h : Nat) (color : Half) (s : State) : Res :=
  match clip x y w h with
  | none => .done s
  | some (wc, hc) => (select x y wc hc (s.setClip wc hc)).andThen (sendDataRep color (wc * hc))

-- BLIT

/-- `COL <- c`. -/
def State.setCol (c : Nat) (s : State) : State := { s with work := { s.work with col := BitVec.ofNat 8 c } }

/-- `ROW <- r`. -/
def State.setRow (r : Nat) (s : State) : State := { s with work := { s.work with row := BitVec.ofNat 8 r } }

/-- `[ SrcPix(base + COL) for COL from col to col + n - 1 ]` (42_raster.md R195). -/
def fetchPixels (base : Nat) : (n col : Nat) → State → List Half × State
  | 0, _, s => ([], s)
  | n + 1, col, s =>
    let p := readPix (base + col) (s.setCol col)
    let rest := fetchPixels base n (col + 1) p.2
    (p.1 :: rest.1, rest.2)

/-- Rows `row` to `row + n - 1` of BLIT: select, fetch, send; the stride is the requested width `w` (42_raster.md R195). -/
def blitRows (x y w wc src : Nat) : (n row : Nat) → State → Res
  | 0, _, s => .done s
  | n + 1, row, s =>
    ((select x (y + row) wc 1 (s.setRow row)).andThen fun s =>
      let v := fetchPixels (src + row * w) wc 0 s
      sendData16 v.1 v.2).andThen (blitRows x y w wc src n (row + 1))

/-- BLIT(x, y, w, h, SRC) (42_raster.md R195). -/
def blit (x y w h src : Nat) (s : State) : Res :=
  match clip x y w h with
  | none => .done s
  | some (wc, hc) => blitRows x y w wc src hc 0 (s.setClip wc hc)

-- MONOBLIT

/-- `Byte(i)`: `SrcByte(i)` or `Rom(i)` (42_raster.md R198). -/
def readBitmap (source : BitmapSource) (i : Int) (s : State) : Byte × State :=
  match source with
  | .host => readBits i.toNat s
  | .rom => readRom i s

/-- `LINE[col] <- v` (00_scope.md R15). -/
def State.setLine (col : Nat) (v : Half) (s : State) : State := { s with line := s.line.setIfInBounds col v }

/-- `[LINE[0], ..., LINE[n - 1]]`. -/
def State.lineTake (n : Nat) (s : State) : List Half := s.line.toList.take n

/-- Columns `col` to `col + n - 1` of one row expanded into `LINE`; the stride is the requested width `w`
(42_raster.md R198). -/
def expandRow (source : BitmapSource) (base : Int) (w row : Nat) (fg bg : Half) : (n col : Nat) → State → State
  | 0, _, s => s
  | n + 1, col, s =>
    let b := readBitmap source (base + ((row / 8 * w + col : Nat) : Int)) (s.setCol col)
    expandRow source base w row fg bg n (col + 1) (b.2.setLine col (monoColor b.1 row fg bg))

/-- Rows `row` to `row + n - 1` of MONOBLIT: expand, select, send (42_raster.md R198, R200). -/
def monoRows (source : BitmapSource) (base : Int) (x y w wc : Nat) (fg bg : Half) : (n row : Nat) → State → Res
  | 0, _, s => .done s
  | n + 1, row, s =>
    ((select x (y + row) wc 1 (expandRow source base w row fg bg wc 0 (s.setRow row))).andThen fun s =>
      sendData16 (s.lineTake wc) s).andThen (monoRows source base x y w wc fg bg n (row + 1))

/-- MONOBLIT(x, y, w, h, SRC, fg, bg) (42_raster.md R198). -/
def monoBlit (source : BitmapSource) (base : Int) (x y w h : Nat) (fg bg : Half) (s : State) : Res :=
  match clip x y w h with
  | none => .done s
  | some (wc, hc) => monoRows source base x y w wc fg bg hc 0 (s.setClip wc hc)

-- The requests

/-- RGB r, g, b (42_raster.md R190): legal in every state, before BEGIN too. That it leaves a bus held that an ACQUIRE run alone holds
is the model's choice (log 7). -/
def execRgb (r g b : Byte) (s : State) : Host.Outcome State Fault Refusal :=
  if s.busy = true then .next s
  else .next ((s.accept fun o => { o with op := 0xB#4, r8 := r, g8 := g, b8 := b }).completeWith (packRgb r g b))

/-- FILL x, y, w, h, color (42_raster.md R192). -/
def execFill (x y w h color : Half) (s : State) : Host.Outcome State Fault Refusal :=
  serve (fun o => { o with op := 0x6#4, x := x, y := y, wd := w, ht := h, c0 := color })
    (fill x.toNat y.toNat w.toNat h.toNat color) s

/-- BLIT x, y, w, h, src (42_raster.md R195). -/
def execBlit (x y w h : Half) (src : Word) (s : State) : Host.Outcome State Fault Refusal :=
  serve (fun o => { o with op := 0x7#4, x := x, y := y, wd := w, ht := h, src := src })
    (blit x.toNat y.toNat w.toNat h.toNat src.toNat) s

/-- MONOBLIT x, y, w, h, src, fg, bg (42_raster.md R198). -/
def execMonoBlit (x y w h : Half) (src : Word) (fg bg : Half) (s : State) : Host.Outcome State Fault Refusal :=
  serve (fun o => { o with op := 0x8#4, x := x, y := y, wd := w, ht := h, src := src, c0 := fg, c1 := bg })
    (monoBlit .host (src.toNat : Int) x.toNat y.toNat w.toNat h.toNat fg bg) s

end Sys2Proof.Machine
end

