-- ==== Sys2Proof/Machine/Text.lean ====
section
/-! DEFINITION. Text rendering: the glyph expander, DRAWCHAR and DRAWSTRING (43_text.md). -/
namespace Sys2Proof.Machine

/-- The `SUB*` registers of a MONOBLIT that DRAWCHAR invokes (10_state.md R22, R25; log 18). -/
def State.subMonoBlit (x y : Nat) (goff : Int) (fg bg : Half) (s : State) : State :=
  { s with work := { s.work with
      goff := goff, subx := BitVec.ofNat 16 x, suby := BitVec.ofNat 16 y, subw := BitVec.ofNat 16 Config.glyphW,
      subh := BitVec.ofNat 16 Config.glyphH, subc0 := fg, subc1 := bg, subsrc := BitVec.ofInt 32 goff, subsp := 1#2 } }

/-- The `SUB*` registers of a FILL that a composite operation invokes (10_state.md R22, R25; log 18). `SUBX` keeps the low 16 bits of
a column past 65535, which DRAWCHAR's gap has for `x` from 65529: the model's choice (log 18). The FILL itself takes the column as
a natural (43_text.md R223). -/
def State.subFill (x y w h : Nat) (color : Half) (sp : BitVec 2) (s : State) : State :=
  { s with work := { s.work with
      subx := BitVec.ofNat 16 x, suby := BitVec.ofNat 16 y, subw := BitVec.ofNat 16 w, subh := BitVec.ofNat 16 h,
      subc0 := color, subsp := sp } }

/-- DRAWCHAR(x, y, ch, fg, bg): the glyph, then the gap column (43_text.md R223). -/
def drawChar (x y : Nat) (ch : Byte) (fg bg : Half) (s : State) : Res :=
  (monoBlit .rom (glyphOffset ch) x y Config.glyphW Config.glyphH fg bg
      (s.subMonoBlit x y (glyphOffset ch) fg bg)).andThen fun s =>
    fill (x + Config.glyphW) y Config.gapW Config.glyphH bg
      (s.subFill (x + Config.glyphW) y Config.gapW Config.glyphH bg 2#2)

/-- `CIDX <- i`. -/
def State.setCidx (i : Nat) (s : State) : State := { s with work := { s.work with cidx := BitVec.ofNat 16 i } }

/-- `CURX <- x`. -/
def State.setCurx (x : Nat) (s : State) : State := { s with work := { s.work with curx := BitVec.ofNat 16 x } }

/-- Characters `cidx` to `cidx + n - 1` of DRAWSTRING, the cursor at `curx` (43_text.md R226). -/
def drawChars (y src : Nat) (fg bg : Half) : (n cidx curx : Nat) → State → Res
  | 0, _, _, s => .done s
  | n + 1, cidx, curx, s =>
    let s := s.setCidx cidx
    if Config.panelW ≤ curx then .done s
    else
      let ch := readText (src + cidx) s
      (drawChar curx y ch.1 fg bg ch.2).andThen fun s =>
        drawChars y src fg bg n (cidx + 1) (curx + Config.glyphW + Config.gapW)
          (s.setCurx (curx + Config.glyphW + Config.gapW))

/-- DRAWSTRING(x, y, SRC, LEN, fg, bg) (43_text.md R226). -/
def drawString (x y src len : Nat) (fg bg : Half) (s : State) : Res := drawChars y src fg bg len 0 x (s.setCurx x)

/-- DRAWCHAR x, y, ch, fg, bg (43_text.md R223). -/
def execDrawChar (x y : Half) (ch : Byte) (fg bg : Half) (s : State) : Host.Outcome State Fault Refusal :=
  serve (fun o => { o with op := 0x9#4, x := x, y := y, ch := ch, c0 := fg, c1 := bg })
    (drawChar x.toNat y.toNat ch fg bg) s

/-- DRAWSTRING x, y, src, len, fg, bg (43_text.md R226). -/
def execDrawString (x y : Half) (src : Word) (len fg bg : Half) (s : State) : Host.Outcome State Fault Refusal :=
  serve (fun o => { o with op := 0xA#4, x := x, y := y, src := src, len := len, c0 := fg, c1 := bg })
    (drawString x.toNat y.toNat src.toNat len.toNat fg bg) s

end Sys2Proof.Machine
end

