-- ==== Sys2Proof/Machine/Lifecycle.lean ====
section
/-! DEFINITION. The lifecycle operations BEGIN, RESET, POWER, FLIP, INVERSE (44_lifecycle.md). -/
namespace Sys2Proof.Machine

/-- `PSTATE <- p` (10_state.md R27). -/
def State.setPstate (p : PState) (s : State) : State := { s with pstate := p }

/-- `PINCFG`: the control lines that exist become driven outputs at their inactive levels (44_lifecycle.md R243). -/
def State.pinCfg (s : State) : State :=
  State.emit .pinCfg
    { s with pins := { s.pins with dcOe := true, csNOe := s.hasCs, rstNOe := s.hasRst, csN := true, rstN := true, dc := true } }

/-- `BUSINIT`: `SCK` and `MOSI` become driven outputs, `SCK` idle low (44_lifecycle.md R243), `MOSI` unspecified (10_state.md
R30; log 19). -/
def State.busInit (s : State) : State :=
  State.emit .busInit
    { s with
      pins := { s.pins with sckOe := true, mosiOe := true, sck := false, mosi := Config.freeBool s.freeCtr }
      freeCtr := s.freeCtr + 1 }

/-- The first action of RESET: the reset pulse with a reset line, the software reset without (44_lifecycle.md R244). -/
def resetAction (s : State) : Res :=
  if s.hasRst then .done s.rstPulse else (sendCmd0 0x01#8 s).map (State.delay Config.tSwReset)

/-- RESET (44_lifecycle.md R244). -/
def panelReset (s : State) : Res :=
  ((((((((resetAction (s.setPstate .uninit)).andThen (sendCmd0 0x11#8)).map (State.delay Config.tSlpOut)).andThen
    (sendCmd1 0x36#8 Config.orientNormal)).andThen
    (sendCmd1 0x3A#8 Config.colMode16)).andThen
    (sendCmd0 0x13#8)).andThen fun s =>
      fill 0 0 Config.panelW Config.panelH Config.black
        (s.subFill 0 0 Config.panelW Config.panelH Config.black 3#2)).andThen
    (sendCmd0 0x29#8)).map (State.setPstate .awake)

/-- BEGIN (44_lifecycle.md R243). -/
def beginAll (s : State) : Res := panelReset { s.pinCfg.busInit with begun := true }

/-- POWER(on) (44_lifecycle.md R246). -/
def power (on : Bool) (s : State) : Res :=
  if on then
    (((sendCmd0 0x11#8 s).map (State.delay Config.tSlpOut)).andThen (sendCmd0 0x29#8)).map (State.setPstate .awake)
  else
    ((sendCmd0 0x28#8 s).andThen (sendCmd0 0x10#8)).map fun s => (s.delay Config.tSlpIn).setPstate .sleeping

/-- FLIP(on) (44_lifecycle.md R247). -/
def flip (on : Bool) (s : State) : Res :=
  if on then sendCmd1 0x36#8 Config.orientFlipped s else sendCmd1 0x36#8 Config.orientNormal s

/-- INVERSE(on) (44_lifecycle.md R248). -/
def inverse (on : Bool) (s : State) : Res := if on then sendCmd0 0x21#8 s else sendCmd0 0x20#8 s

/-- BEGIN (44_lifecycle.md R243): defined before BEGIN, and a second time too. -/
def execBegin (s : State) : Host.Outcome State Fault Refusal :=
  if s.busy = true then .next s
  else (beginAll (s.accept fun o => { o with op := 0x1#4 })).request

/-- RESET (44_lifecycle.md R244). -/
def execReset (s : State) : Host.Outcome State Fault Refusal :=
  serve (fun o => { o with op := 0x2#4 }) panelReset s

/-- POWER on (44_lifecycle.md R246). -/
def execPower (on : Bool) (s : State) : Host.Outcome State Fault Refusal :=
  serve (fun o => { o with op := 0x3#4, on := on }) (power on) s

/-- FLIP on (44_lifecycle.md R247). -/
def execFlip (on : Bool) (s : State) : Host.Outcome State Fault Refusal :=
  serve (fun o => { o with op := 0x4#4, on := on }) (flip on) s

/-- INVERSE on (44_lifecycle.md R248). -/
def execInverse (on : Bool) (s : State) : Host.Outcome State Fault Refusal :=
  serve (fun o => { o with op := 0x5#4, on := on }) (inverse on) s

end Sys2Proof.Machine
end

