-- ==== Sys2Proof/Machine/Micro.lean ====
section
/-! DEFINITION. The fifteen micro-operations, each run alone (40_bus_transport.md, 41_addressing.md; log 2). -/
namespace Sys2Proof.Machine

/-- TX8(b), precondition `LOCK = 1` (40_bus_transport.md R140). -/
def execTx8 (b : Byte) (s : State) : Host.Outcome State Fault Refusal :=
  if s.begun = false then .refused .beforeBegin
  else if s.lock = false then .refused .lockNotHeld
  else .next (s.tx8 b)

/-- TX16(v), precondition as TX8 (40_bus_transport.md R141). -/
def execTx16 (v : Half) (s : State) : Host.Outcome State Fault Refusal :=
  if s.begun = false then .refused .beforeBegin
  else if s.lock = false then .refused .lockNotHeld
  else .next (s.tx16 v)

/-- TXN(c, P) (40_bus_transport.md R143). -/
def execTxn (c : Byte) (payload : List Byte) (s : State) : Host.Outcome State Fault Refusal := (txn c payload s).micro

/-- ACQUIRE (40_bus_transport.md R144). -/
def execAcquire (s : State) : Host.Outcome State Fault Refusal := (acquire s).micro

/-- RELEASE (40_bus_transport.md R151). -/
def execRelease (s : State) : Host.Outcome State Fault Refusal := .next s.release

/-- SENDCMD0(c) (40_bus_transport.md R145). -/
def execSendCmd0 (c : Byte) (s : State) : Host.Outcome State Fault Refusal := (sendCmd0 c s).micro

/-- SENDCMD1(c, a) (40_bus_transport.md R146). -/
def execSendCmd1 (c a : Byte) (s : State) : Host.Outcome State Fault Refusal := (sendCmd1 c a s).micro

/-- SENDCMDN(c, A, n) (40_bus_transport.md R147). -/
def execSendCmdN (c : Byte) (args : List Byte) (s : State) : Host.Outcome State Fault Refusal := (sendCmdN c args s).micro

/-- SENDDATA16(V, n), `n ≥ 1` (40_bus_transport.md R148). -/
def execSendData16 (pixels : List Half) (s : State) : Host.Outcome State Fault Refusal :=
  if streamDomain pixels then (sendData16 pixels s).micro else .refused .operandDomain

/-- SENDDATAREP(v, n), `n ≥ 1`, at most 12800 (40_bus_transport.md R149). -/
def execSendDataRep (v : Half) (n : Nat) (s : State) : Host.Outcome State Fault Refusal :=
  if repDomain n then (sendDataRep v n s).micro else .refused .operandDomain

/-- SENDDATA8: "A model must not give it a meaning" (40_bus_transport.md R150). -/
def execSendData8 (_s : State) : Host.Outcome State Fault Refusal := .refused .sendData8

/-- DELAY(n) (40_bus_transport.md R152). That it runs with the bus held too, where the block never delays, is the model's choice
(log 7). -/
def execDelay (n : Nat) (s : State) : Host.Outcome State Fault Refusal := .next (s.delay n)

/-- RSTPULSE, precondition `HAS_RST` (40_bus_transport.md R153). Its delays run with the bus held too: the model's choice, as for
DELAY (log 7). -/
def execRstPulse (s : State) : Host.Outcome State Fault Refusal :=
  if s.begun = false then .refused .beforeBegin
  else if s.hasRst = false then .refused .noResetLine
  else .next s.rstPulse

/-- CLIP(x, y, w, h): `WC` and `HC`, or no state change (41_addressing.md R171). -/
def execClip (x y w h : Half) (s : State) : Host.Outcome State Fault Refusal :=
  match clip x.toNat y.toNat w.toNat h.toNat with
  | none => .next s
  | some (wc, hc) => .next (s.setClip wc hc)

/-- SELECT(x, y, w, h), in its precondition (41_addressing.md R174). -/
def execSelect (x y w h : Nat) (s : State) : Host.Outcome State Fault Refusal :=
  if selectDomain x y w h then (select x y w h s).micro else .refused .operandDomain

end Sys2Proof.Machine
end

