-- ==== Sys2Proof/Machine/Dispatch.lean ====
section
/-! DEFINITION. Each instruction to its meaning, one arm per constructor of `Instr`. -/
namespace Sys2Proof.Machine

def exec (i : Instr) (s : State) : Host.Outcome State Fault Refusal :=
  match i with
  | .reqBegin => Sys2Proof.Machine.execBegin s
  | .reqReset => Sys2Proof.Machine.execReset s
  | .reqPower on => Sys2Proof.Machine.execPower on s
  | .reqFlip on => Sys2Proof.Machine.execFlip on s
  | .reqInverse on => Sys2Proof.Machine.execInverse on s
  | .reqFill x y w h color => Sys2Proof.Machine.execFill x y w h color s
  | .reqBlit x y w h src => Sys2Proof.Machine.execBlit x y w h src s
  | .reqMonoBlit x y w h src fg bg => Sys2Proof.Machine.execMonoBlit x y w h src fg bg s
  | .reqDrawChar x y ch fg bg => Sys2Proof.Machine.execDrawChar x y ch fg bg s
  | .reqDrawString x y src len fg bg => Sys2Proof.Machine.execDrawString x y src len fg bg s
  | .reqRgb r g b => Sys2Proof.Machine.execRgb r g b s
  | .frmSoftReset => Sys2Proof.Machine.execFrmSoftReset s
  | .frmExitSleep => Sys2Proof.Machine.execFrmExitSleep s
  | .frmEnterSleep => Sys2Proof.Machine.execFrmEnterSleep s
  | .frmSetOrient arg => Sys2Proof.Machine.execFrmSetOrient arg s
  | .frmSetColMode arg => Sys2Proof.Machine.execFrmSetColMode arg s
  | .frmNormalOn => Sys2Proof.Machine.execFrmNormalOn s
  | .frmInvertOff => Sys2Proof.Machine.execFrmInvertOff s
  | .frmInvertOn => Sys2Proof.Machine.execFrmInvertOn s
  | .frmDisplayOn => Sys2Proof.Machine.execFrmDisplayOn s
  | .frmDisplayOff => Sys2Proof.Machine.execFrmDisplayOff s
  | .frmColAddrSet start stop => Sys2Proof.Machine.execFrmColAddrSet start stop s
  | .frmRowAddrSet start stop => Sys2Proof.Machine.execFrmRowAddrSet start stop s
  | .frmMemWrite pixels => Sys2Proof.Machine.execFrmMemWrite pixels s
  | .mopTx8 b => Sys2Proof.Machine.execTx8 b s
  | .mopTx16 v => Sys2Proof.Machine.execTx16 v s
  | .mopTxn c payload => Sys2Proof.Machine.execTxn c payload s
  | .mopAcquire => Sys2Proof.Machine.execAcquire s
  | .mopRelease => Sys2Proof.Machine.execRelease s
  | .mopSendCmd0 c => Sys2Proof.Machine.execSendCmd0 c s
  | .mopSendCmd1 c a => Sys2Proof.Machine.execSendCmd1 c a s
  | .mopSendCmdN c args => Sys2Proof.Machine.execSendCmdN c args s
  | .mopSendData16 pixels => Sys2Proof.Machine.execSendData16 pixels s
  | .mopSendDataRep v n => Sys2Proof.Machine.execSendDataRep v n s
  | .mopSendData8 => Sys2Proof.Machine.execSendData8 s
  | .mopDelay n => Sys2Proof.Machine.execDelay n s
  | .mopRstPulse => Sys2Proof.Machine.execRstPulse s
  | .mopClip x y w h => Sys2Proof.Machine.execClip x y w h s
  | .mopSelect x y w h => Sys2Proof.Machine.execSelect x y w h s

end Sys2Proof.Machine
end

