-- ==== Sys2Proof/Machine/Step.lean ====
section
/-! DEFINITION. One step of the machine. -/
namespace Sys2Proof.Machine

/-- Run one code: a request is latched and served, a frame or a micro-operation is run alone (log 2). A reserved request code
completes without effect (30_encoding.md R114), before BEGIN too (log 9). -/
def runCode (c : Code) (s : State) : Host.Outcome State Fault Refusal :=
  match decode c with
  | .ok i => exec i (s.latch c)
  | .error .reservedRequest => .next s.completeReserved
  | .error .emptyFrame => .refused .badCode
  | .error .unknownCommand => .refused .badCode
  | .error .frameLength => .refused .badCode
  | .error .notMicro => .refused .badCode

/-- One step. The host's arrays keep their contents from step to step: a host write between two requests (20_memory.md R85) is no
step of the machine but another state to step from, the model's choice (log 15). `blk_rst` has priority over everything (60_exceptions.md R275). A sequencer that waits for a grant stays in the
wait, and ignores the request port (R276, R278). Else the next code is taken; with none the block is idle. -/
def step (s : State) : Host.Outcome State Fault Refusal :=
  if s.blkRst = true then .next s.blockReset
  else if s.busy = true then .next s
  else
    match s.inputs with
    | [] => .next s.idleStep
    | c :: rest => runCode c { s with inputs := rest }

/-- `s` with the instruction whose table bits are `w` where the next step takes it (log 3, log 4). -/
def State.withFetchWord (s : State) (nbits w : Nat) : State := s.present nbits w

end Sys2Proof.Machine
end

