-- ==== Sys2Proof/Machine/Flags.lean ====
section
/-! DEFINITION. The block has no condition flag (10_state.md R26). Its status outputs are `req_ready`, the inverse of `BUSY`,
and the port `pstate` (10_state.md R27, R32). -/
namespace Sys2Proof.Machine

/-- `req_ready` (10_state.md R32). -/
def State.reqReady (s : State) : Bool := !s.busy

/-- The encoding of `PSTATE` (10_state.md R27); 3 is produced by none. -/
def PState.code : PState → BitVec 2
  | .uninit => 0#2
  | .sleeping => 1#2
  | .awake => 2#2

/-- The port `pstate[1:0]` (10_state.md R32). -/
def State.pstatePort (s : State) : BitVec 2 := s.pstate.code

end Sys2Proof.Machine
end

