-- ==== Sys2Proof/Safety.lean ====
section
/-! DEFINITION. The terms in which statements speak of runs: the state in which a request is served to its end, what is outside
the block, the frames of a request, and the invariant of the machine. -/
namespace Sys2Proof.Machine

/-- The block is idle, BEGIN has been done, and every bus request is granted (60_exceptions.md R270, R278). -/
abbrev State.Ready (s : State) : Prop :=
  s.busy = false ∧ s.begun = true ∧ s.lock = false ∧ s.grants = none

/-- A transaction can run from first to last: the lines are driven, the bus is free and the arbiter grants. -/
abbrev State.BusReady (s : State) : Prop :=
  s.begun = true ∧ s.lock = false ∧ s.grants = none

/-- The parts outside the block are the same: straps, glyph table, host arrays, arbiter, requests to come, `blk_rst`. -/
abbrev SameOutside (s t : State) : Prop :=
  t.hasCs = s.hasCs ∧ t.hasRst = s.hasRst ∧ t.glyphCount = s.glyphCount ∧ t.rom = s.rom ∧ t.pix = s.pix ∧ t.bits = s.bits ∧
    t.text = s.text ∧ t.grants = s.grants ∧ t.inputs = s.inputs ∧ t.blkRst = s.blkRst

/-- A bus frame: command byte and payload. -/
abbrev Frame := Byte × List Byte

/-- The events of frames sent one after the other (40_bus_transport.md R143). -/
def framesEvents (hasCs : Bool) (fs : List Frame) : List Event := fs.flatMap fun f => txnEvents hasCs f.1 f.2

/-- The sink after frames received one after the other, `ended` if `CS_N` marks their ends. -/
def Sink.frames (k : Sink) (ended : Bool) (fs : List Frame) : Sink := fs.foldl (fun k f => k.frame ended f.1 f.2) k

/-- The pins after one frame: `CS_N` high again if the line exists, `DC` high if a payload was sent, `SCK` low, `MOSI` at the
last bit sent (40_bus_transport.md R140, R142, R143). -/
def Pins.afterFrame (hasCs : Bool) (p : Pins) (f : Frame) : Pins :=
  { p with csN := hasCs || p.csN, dc := !f.2.isEmpty, sck := false, mosi := (f.2.getLastD f.1).getLsbD 0 }

/-- The state after frames were sent on a free bus that is always granted: the events in `TRACE`, the position of the sequencer,
the pins, the sink and `bus_req`; everything else as it was. -/
def State.sent (fs : List Frame) (s : State) : State :=
  { s with
    traceRev := (framesEvents s.hasCs fs).reverse ++ s.traceRev
    seq := s.seq.advance (framesEvents s.hasCs fs).length
    pins := fs.foldl (Pins.afterFrame s.hasCs) s.pins
    sink := s.sink.frames s.hasCs fs
    busReq := s.busReq && fs.isEmpty }

/-- The state with other working registers, another scratch line and another count of free values; everything else as it
was. -/
def State.withRegs (work : Work) (line : Vector Half 160) (freeCtr : Nat) (s : State) : State :=
  { s with work := work, line := line, freeCtr := freeCtr }

/-- A request was served that sends the frames `fs`: `opnd` is in the operand registers, the events of the frames are in `TRACE`,
the pins and the sink are as after the frames, the request is over (10_state.md R25, R26, R32, R38), and what the request does not
concern is as it was. The working registers, the scratch line, `resp_data` and the count of free values are not spoken of. -/
structure Served (s t : State) (opnd : Operands) (fs : List Frame) : Prop where
  operands : t.opnd = opnd
  trace : t.trace = s.trace ++ framesEvents s.hasCs fs
  sink : t.sink = s.sink.frames s.hasCs fs
  pins : t.pins = fs.foldl (Pins.afterFrame s.hasCs) s.pins
  ended : t.busy = false ∧ t.seq = .idle ∧ t.respDone = true
  bus : t.lock = false ∧ t.busReq = (s.busReq && fs.isEmpty)
  same : t.pstate = s.pstate ∧ t.begun = s.begun ∧ t.dly = s.dly
  outside : SameOutside s t

/-- The two address frames of a window (30_encoding.md R107, 41_addressing.md R174). -/
def windowFrames (x y w h : Nat) : List Frame :=
  [(0x2A#8, [0x00#8, BitVec.ofNat 8 x, 0x00#8, BitVec.ofNat 8 (x + w - 1)]),
   (0x2B#8, [0x00#8, BitVec.ofNat 8 (y + 24), 0x00#8, BitVec.ofNat 8 (y + h + 23)])]

/-- A windowed write: the window and the stream of its pixels (41_addressing.md R175). -/
def windowedWrite (x y w h : Nat) (pixels : List Half) : List Frame :=
  windowFrames x y w h ++ [(0x2C#8, pixelBytes pixels)]

/-- The pixels of columns 0 to `n - 1` of a row. -/
def rowPixels (n : Nat) (f : Nat → Half) : List Half := (List.range n).map f

/-- The frames of FILL (42_raster.md R192). -/
def fillFrames (x y w h : Nat) (color : Half) : List Frame :=
  match clip x y w h with
  | none => []
  | some (wc, hc) => windowedWrite x y wc hc (List.replicate (wc * hc) color)

/-- The frames of a primitive that sends one window a row, `f r c` the pixel of row `r` and column `c` (42_raster.md R196,
R200). -/
def rowFrames (x y w h : Nat) (f : Nat → Nat → Half) : List Frame :=
  match clip x y w h with
  | none => []
  | some (wc, hc) => (List.range hc).flatMap fun r => windowedWrite x (y + r) wc 1 (rowPixels wc (f r))

/-- `mono_pixel` (42_raster.md R199) of a bitmap whose byte `i` is `byte i`. -/
def monoPixel (byte : Nat → Byte) (w r c : Nat) (fg bg : Half) : Half :=
  if (byte (r / 8 * w + c)).getLsbD (r % 8) then fg else bg

/-- The character code has a glyph (43_text.md R221). -/
abbrev ValidCode (glyphCount : Nat) (ch : Byte) : Prop := 0x20 ≤ ch.toNat ∧ ch.toNat < 0x20 + glyphCount

/-- Byte `i` of the glyph of a valid code (43_text.md R222). -/
def glyphByte (s : State) (ch : Byte) (i : Nat) : Byte := s.romAt (14 * (ch.toNat - 0x20) + i)

/-- How many characters DRAWSTRING draws (43_text.md R227). -/
def drawnChars (x len : Nat) : Nat := if 160 ≤ x then 0 else min len (Config.ceilDiv (160 - x) 8)

/-- The working registers after FILL (42_raster.md R192; log 18). -/
def fillWork (x y w h : Nat) (k : Work) : Work :=
  match clip x y w h with
  | none => k
  | some (wc, hc) => { k with wc := BitVec.ofNat 8 wc, hc := BitVec.ofNat 8 hc, cnt := 0 }

/-- The working registers after a primitive that sends one window a row (42_raster.md R195, R198; log 18). -/
def rowsWork (x y w h : Nat) (k : Work) : Work :=
  match clip x y w h with
  | none => k
  | some (wc, hc) =>
    { k with wc := BitVec.ofNat 8 wc, hc := BitVec.ofNat 8 hc, row := BitVec.ofNat 8 (hc - 1), col := BitVec.ofNat 8 (wc - 1) }

/-- The scratch line after a row of `n` pixels was expanded into it. -/
def lineAfter (n : Nat) (g : Nat → Half) (old : Vector Half 160) : Vector Half 160 :=
  Vector.ofFn fun i : Fin 160 => if i.val < n then g i.val else old[i]

/-- The scratch line after MONOBLIT: the pixels of the last visible row (42_raster.md R198). -/
def monoLine (x y w h : Nat) (f : Nat → Nat → Half) (line : Vector Half 160) : Vector Half 160 :=
  match clip x y w h with
  | none => line
  | some (wc, hc) => lineAfter wc (f (hc - 1)) line

/-- The frames of DRAWCHAR whose glyph has the pixels `f` (43_text.md R223). -/
def glyphFrames (x y : Nat) (bg : Half) (f : Nat → Nat → Half) : List Frame :=
  rowFrames x y 7 16 f ++ fillFrames (x + 7) y 1 16 bg

/-- The working registers after DRAWCHAR (43_text.md R223; log 18). -/
def charWork (x y : Nat) (ch : Byte) (fg bg : Half) (k : Work) : Work :=
  fillWork (x + 7) y 1 16
    { rowsWork x y 7 16
        { k with goff := glyphOffset ch, subx := BitVec.ofNat 16 x, suby := BitVec.ofNat 16 y, subw := 7#16, subh := 16#16,
                 subc0 := fg, subc1 := bg, subsrc := BitVec.ofInt 32 (glyphOffset ch), subsp := 1#2 } with
      subx := BitVec.ofNat 16 (x + 7), suby := BitVec.ofNat 16 y, subw := 1#16, subh := 16#16, subc0 := bg, subsp := 2#2 }

/-- The working registers after `n` characters of DRAWSTRING, `ch` the codes (43_text.md R226; log 18). -/
def charsWork (x y : Nat) (ch : Nat → Byte) (fg bg : Half) (n : Nat) (k : Work) : Work :=
  (List.range n).foldl (fun k i =>
    { charWork (x + 8 * i) y (ch i) fg bg { k with cidx := BitVec.ofNat 16 i } with curx := BitVec.ofNat 16 (x + 8 * (i + 1)) }) k

/-- The working registers after DRAWSTRING: `CURX` starts at `x`, and the index of the first character that is dropped, if there is
one, stays in `CIDX` (43_text.md R226; log 18). -/
def stringWork (x y len : Nat) (ch : Nat → Byte) (fg bg : Half) (k : Work) : Work :=
  let k' := charsWork x y ch fg bg (drawnChars x len) { k with curx := BitVec.ofNat 16 x }
  if drawnChars x len < len then { k' with cidx := BitVec.ofNat 16 (drawnChars x len) } else k'

/-- The scratch line after `n` characters whose pixels are `f` (42_raster.md R198, 43_text.md R226). -/
def stringLine (x y n : Nat) (f : (k r c : Nat) → Half) (line : Vector Half 160) : Vector Half 160 :=
  (List.range n).foldl (fun l i => monoLine (x + 8 * i) y 7 16 (f i) l) line

/-- What is left of a sequence of events if the arbiter grants only its first `n` acquisitions: the events before the next one
(40_bus_transport.md R144, 60_exceptions.md R278). -/
def untilAcq : (n : Nat) → List Event → List Event
  | _, [] => []
  | n, e :: es =>
    if e = .acq then
      match n with
      | 0 => []
      | n + 1 => e :: untilAcq n es
    else e :: untilAcq n es

/-- The frames that RESET sends after the wait for the panel to wake (44_lifecycle.md R244). -/
def resetFrames : List Frame :=
  [(0x36#8, [0x68#8]), (0x3A#8, [0x05#8]), (0x13#8, [])] ++ windowedWrite 0 0 160 80 (List.replicate 12800 0x0000#16) ++
    [(0x29#8, [])]

/-- The working registers after RESET: those of its FILL (44_lifecycle.md R244; log 18). -/
def resetWork (k : Work) : Work :=
  { k with subx := 0, suby := 0, subw := 160#16, subh := 80#16, subc0 := 0, subsp := 3#2, wc := 160#8, hc := 80#8, cnt := 0 }

/-- The events of RESET (44_lifecycle.md R244, R245). -/
def resetEvents (hasCs hasRst : Bool) : List Event :=
  (if hasRst then [.rst false, .delay 100, .rst true, .delay 120] else txnEvents hasCs 0x01#8 [] ++ [.delay 120]) ++
    txnEvents hasCs 0x11#8 [] ++ [.delay 120] ++
    framesEvents hasCs resetFrames

/-- The sink's pixel after a rectangle was drawn: inside the rectangle and the panel `f` of the row and the column in the
rectangle, elsewhere as before (20_memory.md R77, R95, 41_addressing.md R171). -/
def paintedPixel (k : Sink) (x y w h : Nat) (f : (r c : Nat) → Half) (col row : Nat) : Half :=
  if x ≤ col ∧ col < min (x + w) 160 ∧ y + 24 ≤ row ∧ row < min (y + h) 80 + 24 then f (row - (y + 24)) (col - x)
  else k.pixel col row

/-- The settings of the sink other than the window are the same. -/
abbrev Sink.SameSettings (k k' : Sink) : Prop :=
  k'.sleep = k.sleep ∧ k'.dispOn = k.dispOn ∧ k'.inv = k.inv ∧ k'.normal = k.normal ∧ k'.orient = k.orient ∧
    k'.colMode = k.colMode

/-- A frame that the block emits (30_encoding.md R104, R115): one of the thirteen command codes with a payload of its
format. -/
def blockFrame (f : Frame) : Bool :=
  match decodeFrame (f.1 :: f.2) with
  | .ok _ => true
  | .error _ => false

/-- What must follow one line of a frame view (70_reset_and_hazards.md R312): the rising edge of the reset line and the commands
0x01, 0x11 and 0x10 are followed at once by a delay of at least 120 ms, the falling edge by one of at least 100 ms and then the rising
edge. -/
def settledBy : View → List View → Bool
  | .rst false, .delay n :: .rst true :: _ => decide (100 ≤ n)
  | .rst false, _ => false
  | .rst true, .delay n :: _ => decide (120 ≤ n)
  | .rst true, _ => false
  | .frame c _, .delay n :: _ => decide (c ≠ 0x01#8 ∧ c ≠ 0x11#8 ∧ c ≠ 0x10#8) || decide (120 ≤ n)
  | .frame c _, _ => decide (c ≠ 0x01#8 ∧ c ≠ 0x11#8 ∧ c ≠ 0x10#8)
  | .delay _, _ => true

/-- The settling times of a whole frame view (R312). -/
def settleTimes : List View → Bool
  | [] => true
  | v :: vs => settledBy v vs && settleTimes vs

/-- The invariant of the machine. Clauses that are rules: `LOCK` is 1 exactly between an `ACQ` and the next `REL`, no byte outside a
transaction (10_state.md R38, 40_bus_transport.md R140, R151); events of absent lines never occur (10_state.md R29); no line driven
before BEGIN, after it every line that exists (10_state.md R30); `PSTATE ≠ UNINIT` implies `BEGUN` (10_state.md R28); `bus_req` is 1
while the bus is held (40_bus_transport.md R144); `SCK` rests low once driven (40_bus_transport.md R140). Clauses that are the
model's: the pixel memory in canonical form (log 15); `DLY` is 0, as outside a delay (10_state.md R31), in every state, since no
state stands inside one (log 1, log 25); a sequencer that is busy is one that waits for a grant and holds no bus (60_exceptions.md
R278), since no state stands inside a request otherwise (log 1, log 5). -/
structure Inv (s : State) : Prop where
  panel : s.sink.panel.wf = true
  lock : lockAfter false s.trace = some s.lock
  straps : ∀ e ∈ s.trace, e.allowed s.hasCs s.hasRst = true
  driven : s.pins.dcOe = s.begun ∧ s.pins.sckOe = s.begun ∧ s.pins.mosiOe = s.begun ∧
    s.pins.csNOe = (s.begun && s.hasCs) ∧ s.pins.rstNOe = (s.begun && s.hasRst)
  begun : s.pstate ≠ .uninit → s.begun = true
  delay : s.dly = 0
  waiting : s.busy = true → s.lock = false ∧ s.busReq = true
  request : s.lock = true → s.busReq = true
  clock : s.begun = true → s.pins.sck = false

/-- The sink is not in the middle of a frame: the next command byte finds no argument and no pixel outstanding
(41_addressing.md R176). -/
abbrev SinkSettled (s : State) : Prop := s.sink.frameComplete = true

/-- The sink is between two frames, and the host presents requests only: what holds of every state that a run of requests reaches. -/
def BetweenFrames (s : State) : Prop := SinkSettled s ∧ ∀ c ∈ s.inputs, ∃ w, c = .request w

/-- The bitmap's pixels are one of the two colours each, and as the bit says where the index of the byte is in range
(42_raster.md R199, 20_memory.md R60; log 17). -/
def HostPixels (s : State) (src w : Nat) (fg bg : Half) (f : (r c : Nat) → Half) : Prop :=
  ∀ r c, (f r c = fg ∨ f r c = bg) ∧
    (src + (r / 8 * w + c) < 2 ^ 32 → f r c = monoPixel (fun i => s.bitsAt (src + i)) w r c fg bg)

/-- The glyph's pixels are one of the two colours each, and as the glyph table says for a valid code (43_text.md R222). -/
def GlyphPixels (s : State) (ch : Byte) (fg bg : Half) (f : (r c : Nat) → Half) : Prop :=
  (∀ r c, f r c = fg ∨ f r c = bg) ∧
    (ValidCode s.glyphCount ch → ∀ r c, r < 16 → c < 7 → f r c = monoPixel (glyphByte s ch) 7 r c fg bg)

/-- The characters of a text, `f k` the pixels of character `k`: those of the code that stands in `TEXT` where its index is in range
(43_text.md R226; log 16, log 17), `ch k` its code. -/
def TextPixels (s : State) (src : Nat) (fg bg : Half) (ch : (k : Nat) → Byte) (f : (k r c : Nat) → Half) : Prop :=
  ∀ k, (src + k < 2 ^ 32 → ch k = s.textAt (src + k)) ∧ GlyphPixels s (ch k) fg bg (f k)

/-- The pixels of a BLIT: the host's element where its index is in range (42_raster.md R195; log 17). -/
def BlitPixels (s : State) (src w : Nat) (f : (r c : Nat) → Half) : Prop :=
  ∀ r c, src + (r * w + c) < 2 ^ 32 → f r c = s.pixAt (src + (r * w + c))

end Sys2Proof.Machine
end

