-- ==== Sys2Proof/Certificates/Slice0/Obligations.lean ====
section
/-! DEFINITION. The statements for the provers, one definition each; OBLIGATIONS.json lists them. -/
section

open Sys2Proof Sys2Proof.Machine

-- Encoding

/-- Decoding the encoding of a well-formed instruction gives it back, with every operand at every value (30_encoding.md R100, R101,
R103, R104, R108). A micro-operation has no binary encoding and stands for itself (R113; log 2). -/
def Obligations.DecodeReadsWhatEncodeWrites : Prop :=
  ∀ i : Instr, i.wf = true → decode (encode i) = .ok i

/-- The bytes that decode to a frame are that frame's command byte and payload, and the frame is well-formed: no bit of a frame is
dropped (30_encoding.md R103, R104, R113). -/
def Obligations.FrameBytesAreThoseOfTheirFrame : Prop :=
  ∀ (bytes : List Byte) (i : Instr), decodeFrame bytes = .ok i →
    i.wf = true ∧ ∃ c payload, frameParts i = some (c, payload) ∧ bytes = c :: payload

/-- Exactly the request codes 0x1 to 0xB are operations; the others are reserved (30_encoding.md R101, R112, R114). -/
def Obligations.RequestCodesOneToElevenAreOperations : Prop :=
  ∀ w : BitVec 181,
    ((1 ≤ (unpack w).op.toNat ∧ (unpack w).op.toNat ≤ 11) → ∃ i, decode (.request w) = .ok i ∧ i.kind = .request) ∧
    (¬ (1 ≤ (unpack w).op.toNat ∧ (unpack w).op.toNat ≤ 11) → decode (.request w) = .error .reservedRequest)

/-- Words written out from 30_encoding.md R100 and R104, as 95_test_vectors.md B6 has them, decode to the instruction they stand
for. -/
def Obligations.WrittenOutWordsDecode : Prop :=
  decode (.request 0x0C000096000000140050FFFF0000000000000000000000#181) = .ok (.reqFill 150 0 20 80 0xFFFF) ∧
  decode (.request 0x0700000000000000000000000000000000000000000000#181) = .ok (.reqPower true) ∧
  decode (.request 0x14000090000000000000FFFF0000000003000003000000#181) = .ok (.reqDrawString 144 0 0x300 3 0xFFFF 0) ∧
  decode (.frame [0x36#8, 0xA8#8]) = .ok (.frmSetOrient 0xA8) ∧
  decode (.frame [0x2B#8, 0x00#8, 0x18#8, 0x00#8, 0x67#8]) = .ok (.frmRowAddrSet 24 103)

-- The step

/-- A step runs the decoded instruction: with the block free and no reset asserted, the first of the presented codes is taken away,
the fields of a request are latched (10_state.md R21, 30_encoding.md R102; log 2, log 3; before a frame or a micro-operation run alone
the pulse of `resp_done` is over, R32, log 2), and `exec` gives the outcome. -/
def Obligations.StepRunsTheDecodedInstruction : Prop :=
  ∀ (s : State) (c : Code) (rest : List Code) (i : Instr),
    s.blkRst = false → s.busy = false → s.inputs = c :: rest → decode c = .ok i → i.wf = true →
    step s = exec i (State.latch c { s with inputs := rest })

/-- Each operand register holds the request field of the same name once the request is accepted (10_state.md R21), whatever the
request is. -/
def Obligations.OperandRegistersHoldTheRequest : Prop :=
  ∀ (s t : State) (w : BitVec 181) (rest : List Code) (i : Instr),
    s.blkRst = false → s.busy = false → s.inputs = .request w :: rest → decode (.request w) = .ok i →
    step s = .next t → t.opnd = unpack w

/-- A request with a reserved code completes at once: no event, no state change but the handshake, `resp_data` unspecified, here a
free value (30_encoding.md R114; that the model serves the code where R114 lets it refuse, and does so before BEGIN too, is log 9; that
it leaves a bus held that an ACQUIRE run alone holds, where R151 has `LOCK = 0`, is log 7). -/
def Obligations.ReservedRequestCompletesWithoutEffect : Prop :=
  ∀ (s : State) (w : BitVec 181) (rest : List Code),
    s.blkRst = false → s.busy = false → s.inputs = .request w :: rest →
    decode (.request w) = .error .reservedRequest →
    ∃ v n, step s = .next { s with inputs := rest, respDone := true, respData := v, freeCtr := n }

/-- With nothing presented the block does nothing: it emits nothing and keeps every register; the pulse of `resp_done` is over
(70_reset_and_hazards.md R303, 10_state.md R32). That `resp_data`, then unspecified, keeps its value is log 10. -/
def Obligations.IdleBlockDoesNothing : Prop :=
  ∀ s : State, s.blkRst = false → s.busy = false → s.inputs = [] → step s = .next { s with respDone := false }

/-- While a sequencer waits for a grant that never comes, nothing changes and the request port is ignored, all eleven operations of it
(60_exceptions.md R276, R278). That the stuck state is a step to itself is the model's choice (log 5). -/
def Obligations.WaitingBlockIgnoresRequests : Prop :=
  (∀ s : State, s.blkRst = false → s.busy = true → step s = .next s) ∧
  (∀ (i : Instr) (s : State), i.kind = .request → s.busy = true → exec i s = .next s)

/-- The block's own reset, from every state: the values of 10_state.md R40; `TRACE` is empty, but keeps the events already emitted
when a request is abandoned (70_reset_and_hazards.md R302); the panel is not reached (R304) unless a request is abandoned; straps,
tables and host arrays are inputs and stay (log 11). -/
def Obligations.BlockResetGivesTheResetValues : Prop :=
  ∀ s : State, s.blkRst = true → ∃ t, step s = .next t ∧
    t.pstate = .uninit ∧ t.begun = false ∧ t.busy = false ∧ t.seq = .idle ∧ t.lock = false ∧ t.busReq = false ∧ t.dly = 0 ∧
    t.respDone = false ∧ t.blkRst = false ∧
    t.pins.csNOe = false ∧ t.pins.dcOe = false ∧ t.pins.rstNOe = false ∧ t.pins.sckOe = false ∧ t.pins.mosiOe = false ∧
    (s.busy = false → t.trace = [] ∧ t.sink = s.sink) ∧ (s.busy = true → t.trace = s.trace) ∧
    t.hasCs = s.hasCs ∧ t.hasRst = s.hasRst ∧ t.glyphCount = s.glyphCount ∧ t.rom = s.rom ∧ t.pix = s.pix ∧ t.bits = s.bits ∧
    t.text = s.text ∧ t.grants = s.grants ∧ t.inputs = s.inputs

/-- The reset state has the values that 10_state.md R40 and 70_reset_and_hazards.md R306 give (the values they leave open are not
stated). -/
def Obligations.ResetStateHasTheStatedValues : Prop :=
  State.reset.pstate = .uninit ∧ State.reset.begun = false ∧ State.reset.busy = false ∧ State.reset.seq = .idle ∧
    State.reset.lock = false ∧ State.reset.busReq = false ∧ State.reset.dly = 0 ∧ State.reset.respDone = false ∧
    State.reset.trace = [] ∧ State.reset.pins.csNOe = false ∧ State.reset.pins.dcOe = false ∧
    State.reset.pins.rstNOe = false ∧ State.reset.pins.sckOe = false ∧ State.reset.pins.mosiOe = false

-- Transport

/-- TX8 shifts one byte out, most significant bit first, sampled at the rising edges of `SCK`; `MOSI` keeps bit 0, `SCK` rests low,
one event; nothing else changes (40_bus_transport.md R140). The sink receives the byte if it listens (20_memory.md R87, log 27). -/
def Obligations.Tx8ShiftsOneByteOut : Prop :=
  ∀ (b : Byte) (s : State), s.begun = true → s.lock = true →
    exec (.mopTx8 b) s = .next
      { s with
        traceRev := .tx8 b :: s.traceRev, seq := s.seq.advance 1,
        pins := { s.pins with mosi := b.getLsbD 0, sck := false },
        sink := if s.sinkListens then s.sink.receive s.pins.dc b else s.sink } ∧
    risingSamples false (byteWave b) =
      [b.getLsbD 7, b.getLsbD 6, b.getLsbD 5, b.getLsbD 4, b.getLsbD 3, b.getLsbD 2, b.getLsbD 1, b.getLsbD 0] ∧
    (s.pins.follow (byteWave b)).mosi = b.getLsbD 0 ∧ (s.pins.follow (byteWave b)).sck = false ∧ receivedByte b = b

/-- TX16 is TX8 of the high byte, then TX8 of the low byte (40_bus_transport.md R141). -/
def Obligations.Tx16ShiftsHighByteFirst : Prop :=
  ∀ (v : Half) (s : State), s.begun = true → s.lock = true → ∃ t u,
    exec (.mopTx8 (v.extractLsb' 8 8)) s = .next t ∧ exec (.mopTx8 (v.extractLsb' 0 8)) t = .next u ∧
    exec (.mopTx16 v) s = .next u ∧ u.trace = s.trace ++ [.tx8 (v.extractLsb' 8 8), .tx8 (v.extractLsb' 0 8)] ∧
    u.pins = { s.pins with mosi := v.getLsbD 0, sck := false } ∧ u.work = s.work ∧ u.opnd = s.opnd ∧ u.line = s.line ∧
    u.lock = true ∧ u.busReq = s.busReq ∧ u.pstate = s.pstate ∧ SameOutside s u

/-- A transaction on a free bus that is granted: the events of 40_bus_transport.md R143 are emitted in that order, the lines, the sink
and `bus_req` are as after the frame, nothing else changes. TXN, SENDCMD0, SENDCMD1 and SENDCMDN complete so. -/
def Obligations.TransactionSendsOneFrame : Prop :=
  ∀ (c a : Byte) (payload : List Byte) (s : State), s.BusReady →
    exec (.mopTxn c payload) s = .next (s.sent [(c, payload)]) ∧
    exec (.mopSendCmd0 c) s = .next (s.sent [(c, [])]) ∧ exec (.mopSendCmd1 c a) s = .next (s.sent [(c, [a])]) ∧
    exec (.mopSendCmdN c payload) s = .next (s.sent [(c, payload)]) ∧
    (s.sent [(c, payload)]).trace = s.trace ++
      ([.acq] ++ (if s.hasCs then [.cs false] else []) ++ [.dc false, .tx8 c] ++
        (if payload = [] then [] else .dc true :: payload.map .tx8) ++ [.rel] ++ (if s.hasCs then [.cs true] else []))

/-- What the panel receives of the transaction that the block sends is the same with and without a device-select line: one frame in
the frame view, the command byte with `DC` low, the payload with `DC` high (40_bus_transport.md R155). The events that the block emits
for it, counted: they begin with `ACQ`, and no delay and no reset event lies among them (R156). -/
def Obligations.TransactionEventsAreThoseOfOneFrame : Prop :=
  ∀ (c : Byte) (payload : List Byte) (s : State), s.BusReady → ∃ t es,
    exec (.mopTxn c payload) s = .next t ∧ t.trace = s.trace ++ es ∧
    frameView es = [.frame c payload] ∧ dcBytes s.pins.dc es = (false, c) :: payload.map (fun b => (true, b)) ∧
    es.head? = some .acq ∧ es.count .acq = 1 ∧ es.count .rel = 1 ∧
    es.countP (fun e => match e with | .tx8 _ => true | _ => false) = payload.length + 1 ∧
    es.count (.dc false) = 1 ∧ es.count (.dc true) = (if payload = [] then 0 else 1) ∧
    es.count (.cs false) = (if s.hasCs then 1 else 0) ∧ es.count (.cs true) = (if s.hasCs then 1 else 0) ∧
    (∀ n, Event.delay n ∉ es) ∧ (∀ v, Event.rst v ∉ es)

/-- SENDCMD0, SENDCMD1 and SENDCMDN are TXN with no, one and `n` payload bytes, in every state (40_bus_transport.md R145, R146,
R147). -/
def Obligations.SendCommandsAreTransactions : Prop :=
  (∀ (c : Byte) (s : State), exec (.mopSendCmd0 c) s = exec (.mopTxn c []) s) ∧
  (∀ (c a : Byte) (s : State), exec (.mopSendCmd1 c a) s = exec (.mopTxn c [a]) s) ∧
  (∀ (c : Byte) (args : List Byte) (s : State), exec (.mopSendCmdN c args) s = exec (.mopTxn c args) s)

/-- SENDDATA16 streams its pixels in one MEM_WRITE frame, the high byte of each first (40_bus_transport.md R148). -/
def Obligations.SendData16StreamsItsPixels : Prop :=
  ∀ (pixels : List Half) (s : State), pixels ≠ [] → s.BusReady →
    exec (.mopSendData16 pixels) s =
      .next (s.sent [(0x2C#8, pixels.flatMap fun v => [v.extractLsb' 8 8, v.extractLsb' 0 8])])

/-- SENDDATAREP streams one pixel `n` times in one MEM_WRITE frame, and `CNT` has counted down to 0 (40_bus_transport.md R149). -/
def Obligations.SendDataRepRepeatsOnePixel : Prop :=
  ∀ (v : Half) (n : Nat) (s : State), 1 ≤ n → n ≤ 12800 → s.BusReady →
    exec (.mopSendDataRep v n) s =
      .next { s.sent [(0x2C#8, (List.replicate n [v.extractLsb' 8 8, v.extractLsb' 0 8]).flatten)] with
        work := { s.work with cnt := 0 } }

/-- ACQUIRE takes a bus that the arbiter grants, and waits with `bus_req = 1` and `LOCK = 0` where it does not (40_bus_transport.md
R144, 60_exceptions.md R278). How many grants are left is the model's own (log 5). -/
def Obligations.AcquireTakesAGrantedBusOrWaits : Prop :=
  ∀ s : State, s.begun = true → s.lock = false →
    (s.grants = none → exec .mopAcquire s =
      .next { s with busReq := true, lock := true, traceRev := .acq :: s.traceRev, seq := s.seq.advance 1 }) ∧
    (∀ n, s.grants = some (n + 1) → exec .mopAcquire s =
      .next { s with
        busReq := true, lock := true, traceRev := .acq :: s.traceRev, seq := s.seq.advance 1, grants := some n }) ∧
    (s.grants = some 0 → exec .mopAcquire s = .next { s with busReq := true, busy := true })

/-- RELEASE gives the bus back, and DELAY is one event after which `DLY` is 0, whatever the state is (40_bus_transport.md R151, R152,
10_state.md R31). That DELAY runs with the bus held too, where R152 has `LOCK = 0`, is the model's choice (log 7). -/
def Obligations.ReleaseAndDelayAreOneEventEach : Prop :=
  (∀ s : State, exec .mopRelease s =
    .next { s with busReq := false, lock := false, traceRev := .rel :: s.traceRev, seq := s.seq.advance 1 }) ∧
  (∀ (n : Nat) (s : State), exec (.mopDelay n) s =
    .next { s with traceRev := .delay n :: s.traceRev, seq := s.seq.advance 1, dly := 0 })

/-- RSTPULSE: low, 100 ms, high, 120 ms; the bus, `CS_N` and `DC` are not touched (40_bus_transport.md R153). The panel's state is
unspecified after the pulse, here free values (20_memory.md R93; log 21). That it runs with the bus held too, where R152 has delays only
with `LOCK = 0`, is the model's choice (log 7). -/
def Obligations.RstPulseLowThenHigh : Prop :=
  ∀ s : State, s.begun = true → s.hasRst = true → ∃ t, exec .mopRstPulse s = .next t ∧
    t.trace = s.trace ++ [.rst false, .delay 100, .rst true, .delay 120] ∧ t.pins = { s.pins with rstN := true } ∧ t.dly = 0 ∧
    t.lock = s.lock ∧ t.busReq = s.busReq ∧ t.pstate = s.pstate ∧ t.begun = s.begun ∧ t.opnd = s.opnd ∧ t.work = s.work ∧
    t.line = s.line ∧ t.busy = s.busy ∧ t.respDone = s.respDone ∧ t.sink.panel = [] ∧ SinkSettled t ∧ SameOutside s t

/-- SENDDATA8 has no meaning, in every state: "A model must not give it a meaning" (40_bus_transport.md R150). -/
def Obligations.SendData8IsRefused : Prop := ∀ s : State, exec .mopSendData8 s = .refused .sendData8

/-- Where a precondition fails, the model stops by name: TX8 and TX16 without the lock (40_bus_transport.md R140, R141), ACQUIRE with
it (R144), RSTPULSE without a reset line (R153), SELECT, SENDDATA16, SENDDATAREP and MEM_WRITE outside their domains (41_addressing.md
R174, 40_bus_transport.md R148, R149, 30_encoding.md R103). That it refuses there is log 7. -/
def Obligations.FailedPreconditionsStop : Prop :=
  ∀ (s : State), s.begun = true →
    (∀ b v, s.lock = false → exec (.mopTx8 b) s = .refused .lockNotHeld ∧ exec (.mopTx16 v) s = .refused .lockNotHeld) ∧
    (s.lock = true → exec .mopAcquire s = .refused .lockHeld) ∧
    (s.hasRst = false → exec .mopRstPulse s = .refused .noResetLine) ∧
    (∀ x y w h, ¬ (1 ≤ w ∧ 1 ≤ h ∧ x + w ≤ 160 ∧ y + h ≤ 80) → exec (.mopSelect x y w h) s = .refused .operandDomain) ∧
    exec (.mopSendData16 []) s = .refused .operandDomain ∧ exec (.frmMemWrite []) s = .refused .operandDomain ∧
    (∀ v n, ¬ (1 ≤ n ∧ n ≤ 12800) → exec (.mopSendDataRep v n) s = .refused .operandDomain)

/-- Before BEGIN every request but BEGIN and RGB is refused by name (10_state.md R28). -/
def Obligations.RequestsBeforeBeginAreRefused : Prop :=
  ∀ (i : Instr) (s : State), i.kind = .request → i ≠ .reqBegin → (∀ r g b, i ≠ .reqRgb r g b) →
    s.busy = false → s.begun = false → exec i s = .refused .beforeBegin

-- Addressing

/-- CLIP, for every operand value: off the panel or of zero size nothing changes, else `WC` and `HC` hold the clipped size
(41_addressing.md R171). -/
def Obligations.ClipCutsToThePanel : Prop :=
  ∀ (x y w h : Half) (s : State), exec (.mopClip x y w h) s = .next
    (if x.toNat < 160 ∧ y.toNat < 80 ∧ 1 ≤ w.toNat ∧ 1 ≤ h.toNat then
      { s with work := { s.work with
          wc := BitVec.ofNat 8 (min w.toNat (160 - x.toNat)), hc := BitVec.ofNat 8 (min h.toNat (80 - y.toNat)) } }
    else s)

/-- The bounds of a clipped size, and clipping twice is clipping once (41_addressing.md R172). -/
def Obligations.ClippedSizeStaysInThePanel : Prop :=
  ∀ x y w h wc hc : Nat, clip x y w h = some (wc, hc) →
    1 ≤ wc ∧ wc ≤ 160 ∧ 1 ≤ hc ∧ hc ≤ 80 ∧ wc ≤ w ∧ hc ≤ h ∧ wc * hc ≤ 12800 ∧ x + wc ≤ 160 ∧ y + hc ≤ 80 ∧
    clip x y wc hc = some (wc, hc)

/-- SELECT sends the column frame, then the row frame, the high bytes 0, the low bytes the inclusive bounds with the row offset 24,
and no address loses a bit (41_addressing.md R174, 30_encoding.md R107). -/
def Obligations.SelectProgramsTheWindow : Prop :=
  ∀ (x y w h : Nat) (s : State), 1 ≤ w → 1 ≤ h → x + w ≤ 160 → y + h ≤ 80 → s.BusReady → ∃ xs xe ys ye : Byte,
    xs.toNat = x ∧ xe.toNat = x + w - 1 ∧ ys.toNat = y + 24 ∧ ye.toNat = y + h - 1 + 24 ∧
    exec (.mopSelect x y w h) s =
      .next (s.sent [(0x2A#8, [0x00#8, xs, 0x00#8, xe]), (0x2B#8, [0x00#8, ys, 0x00#8, ye])])

-- Frames

/-- Each of the thirteen frames, in a state where a transaction can run: SOFT_RESET, EXIT_SLEEP, ENTER_SLEEP, SET_ORIENT, SET_COLMODE,
NORMAL_ON, INVERT_OFF, INVERT_ON, DISPLAY_ON, DISPLAY_OFF, COL_ADDR_SET, ROW_ADDR_SET, MEM_WRITE (30_encoding.md R103, R104). It is
sent as one transaction of its command byte and payload; nothing else changes. That a frame can be run alone is log 2. -/
def Obligations.EveryFrameIsOneTransaction : Prop :=
  ∀ s : State, s.BusReady →
    exec .frmSoftReset s = .next (s.sent [(0x01#8, [])]) ∧ exec .frmExitSleep s = .next (s.sent [(0x11#8, [])]) ∧
    exec .frmEnterSleep s = .next (s.sent [(0x10#8, [])]) ∧ exec .frmNormalOn s = .next (s.sent [(0x13#8, [])]) ∧
    exec .frmInvertOff s = .next (s.sent [(0x20#8, [])]) ∧ exec .frmInvertOn s = .next (s.sent [(0x21#8, [])]) ∧
    exec .frmDisplayOn s = .next (s.sent [(0x29#8, [])]) ∧ exec .frmDisplayOff s = .next (s.sent [(0x28#8, [])]) ∧
    (∀ a, exec (.frmSetOrient a) s = .next (s.sent [(0x36#8, [a])])) ∧
    (∀ a, exec (.frmSetColMode a) s = .next (s.sent [(0x3A#8, [a])])) ∧
    (∀ v u : Half, exec (.frmColAddrSet v u) s = .next (s.sent
      [(0x2A#8, [v.extractLsb' 8 8, v.extractLsb' 0 8, u.extractLsb' 8 8, u.extractLsb' 0 8])])) ∧
    (∀ v u : Half, exec (.frmRowAddrSet v u) s = .next (s.sent
      [(0x2B#8, [v.extractLsb' 8 8, v.extractLsb' 0 8, u.extractLsb' 8 8, u.extractLsb' 0 8])])) ∧
    (∀ pixels : List Half, pixels ≠ [] → exec (.frmMemWrite pixels) s = .next (s.sent
      [(0x2C#8, pixels.flatMap fun v => [v.extractLsb' 8 8, v.extractLsb' 0 8])]))

/-- What the sink does with each of the twelve command and argument frames, when it is not in the middle of a frame, and with the
command byte of the thirteenth, 0x2C, when it listens (20_memory.md R87, R89, R90, R93). After SOFT_RESET every piece of its state is
unspecified, here free values (log 21). `expect` is the model's own (log 22), that 0x2C sets the pointer to the start corner is R89's
general knowledge (log 24), that the sink always listens without a device-select line is log 27. -/
def Obligations.SinkReadsCommandAndArgumentFrames : Prop :=
  (∀ (s : State) (a : Byte) (v u : Half), s.BusReady → SinkSettled s →
    ∃ t0 t1 t2 t3 t4 t5 t6 t7 t8 t9 t10 t11,
      exec .frmSoftReset s = .next t0 ∧ t0.sink = s.sink.loseAll ∧
      exec .frmEnterSleep s = .next t1 ∧ t1.sink = { s.sink with writing := false, expect := .nothing, sleep := true } ∧
      exec .frmExitSleep s = .next t2 ∧ t2.sink = { s.sink with writing := false, expect := .nothing, sleep := false } ∧
      exec .frmNormalOn s = .next t3 ∧ t3.sink = { s.sink with writing := false, expect := .nothing, normal := true } ∧
      exec .frmInvertOff s = .next t4 ∧ t4.sink = { s.sink with writing := false, expect := .nothing, inv := false } ∧
      exec .frmInvertOn s = .next t5 ∧ t5.sink = { s.sink with writing := false, expect := .nothing, inv := true } ∧
      exec .frmDisplayOff s = .next t6 ∧ t6.sink = { s.sink with writing := false, expect := .nothing, dispOn := false } ∧
      exec .frmDisplayOn s = .next t7 ∧ t7.sink = { s.sink with writing := false, expect := .nothing, dispOn := true } ∧
      exec (.frmSetOrient a) s = .next t8 ∧ t8.sink = { s.sink with writing := false, expect := .nothing, orient := a } ∧
      exec (.frmSetColMode a) s = .next t9 ∧ t9.sink = { s.sink with writing := false, expect := .nothing, colMode := a } ∧
      exec (.frmColAddrSet v u) s = .next t10 ∧
        t10.sink = { s.sink with writing := false, expect := .nothing, winXS := v, winXE := u } ∧
      exec (.frmRowAddrSet v u) s = .next t11 ∧
        t11.sink = { s.sink with writing := false, expect := .nothing, winYS := v, winYE := u }) ∧
  (∀ s : State, s.begun = true → s.lock = true → s.sinkListens = true → s.pins.dc = false → SinkSettled s →
    ∃ t, exec (.mopTx8 0x2C#8) s = .next t ∧ t.sink = { s.sink with
      writing := true, ptrCol := s.sink.winXS.toNat, ptrRow := s.sink.winYS.toNat, expect := .pixelHi })

/-- A window and a stream of exactly its pixels, in 16-bit colour mode: every pixel of the window holds the word sent for it, in
row-major order from the start corner, and no other pixel changes (20_memory.md R95). The window lies in the native memory that the
spec is sure of; that the pointer starts at the start corner is 20_memory.md R89's own general knowledge (log 24). -/
def Obligations.StreamFillsExactlyTheWindow : Prop :=
  ∀ (s : State) (xs xe ys ye : Half) (pixels : List Half), s.BusReady → SinkSettled s → s.sink.colMode = 0x05#8 →
    xs.toNat ≤ xe.toNat → xe.toNat < 160 → ys.toNat ≤ ye.toNat → ye.toNat < 104 →
    pixels.length = (xe.toNat - xs.toNat + 1) * (ye.toNat - ys.toNat + 1) →
    ∃ t1 t2 t3, exec (.frmColAddrSet xs xe) s = .next t1 ∧ exec (.frmRowAddrSet ys ye) t1 = .next t2 ∧
      exec (.frmMemWrite pixels) t2 = .next t3 ∧
      (∀ k v, pixels[k]? = some v →
        t3.sink.pixel (xs.toNat + k % (xe.toNat - xs.toNat + 1)) (ys.toNat + k / (xe.toNat - xs.toNat + 1)) = v) ∧
      (∀ col row, col < 65536 → ¬ (xs.toNat ≤ col ∧ col ≤ xe.toNat ∧ ys.toNat ≤ row ∧ row ≤ ye.toNat) →
        t3.sink.pixel col row = s.sink.pixel col row)

-- Requests: the colour function and the raster primitives

/-- RGB packs the upper five, six and five bits of the channels, in every state that accepts a request, before BEGIN too; only the
operand registers, the handshake and `resp_data` are written (30_encoding.md R102, R109, 42_raster.md R190, 10_state.md R21, R32). That
it leaves a bus held that an ACQUIRE run alone holds, where 40_bus_transport.md R151 has `LOCK = 0`, is the model's choice (log 7). -/
def Obligations.RgbPacksTheUpperBits : Prop :=
  ∀ (r g b : Byte) (s : State), s.busy = false →
    exec (.reqRgb r g b) s = .next
      { s with
        opnd := { s.opnd with op := 0xB#4, r8 := r, g8 := g, b8 := b }, seq := .idle, respDone := true,
        respData := (r.extractLsb' 3 5 ++ g.extractLsb' 2 6 ++ b.extractLsb' 3 5 : BitVec 16) }

/-- Every request completes when the arbiter grants, whatever its operands are: BEGIN, RESET, POWER, FLIP, INVERSE, FILL, BLIT,
MONOBLIT, DRAWCHAR, DRAWSTRING, RGB (60_exceptions.md R270, 10_state.md R25, R26, R32). -/
def Obligations.EveryRequestCompletesWhenGranted : Prop :=
  ∀ (i : Instr) (s : State), i.kind = .request → s.Ready →
    ∃ t, exec i s = .next t ∧ t.busy = false ∧ t.seq = .idle ∧ t.respDone = true ∧ t.lock = false ∧ SameOutside s t

/-- FILL, for every operand: the frames of the clipped rectangle, or none; `WC`, `HC` and `CNT`; nothing else (42_raster.md R192). -/
def Obligations.FillSendsOneWindowOfOneColour : Prop :=
  ∀ (x y w h color : Half) (s : State), s.Ready → ∃ t, exec (.reqFill x y w h color) s = .next t ∧
    Served s t { s.opnd with op := 0x6#4, x := x, y := y, wd := w, ht := h, c0 := color }
      (fillFrames x.toNat y.toNat w.toNat h.toNat color) ∧
    t.work = fillWork x.toNat y.toNat w.toNat h.toNat s.work ∧ t.line = s.line

/-- What FILL leaves in the panel: the colour in the rectangle cut to the panel, everything else as before (42_raster.md R194).
That the write pointer starts at the start corner of a window is the general knowledge of 20_memory.md R89 (log 24). -/
def Obligations.FillPaintsTheRectangle : Prop :=
  ∀ (x y w h color : Half) (s : State), s.Ready → SinkSettled s → s.sink.colMode = 0x05#8 →
    ∃ t, exec (.reqFill x y w h color) s = .next t ∧ SinkSettled t ∧ s.sink.SameSettings t.sink ∧
      ∀ col row, col < 65536 →
        t.sink.pixel col row = paintedPixel s.sink x.toNat y.toNat w.toNat h.toNat (fun _ _ => color) col row

/-- BLIT, for every operand: a window and its pixels for each visible row, the stride the requested width; `WC`, `HC`, `ROW`, `COL`;
nothing else (42_raster.md R195, R196). The last values of `ROW` and `COL` are log 18, an index past the 32-bit range is log 17. -/
def Obligations.BlitSendsOneWindowARow : Prop :=
  ∀ (x y w h : Half) (src : Word) (s : State), s.Ready → ∃ t f, exec (.reqBlit x y w h src) s = .next t ∧
    BlitPixels s src.toNat w.toNat f ∧
    Served s t { s.opnd with op := 0x7#4, x := x, y := y, wd := w, ht := h, src := src }
      (rowFrames x.toNat y.toNat w.toNat h.toNat f) ∧
    t.work = rowsWork x.toNat y.toNat w.toNat h.toNat s.work ∧ t.line = s.line

/-- What BLIT leaves in the panel: the array's visible left and top part (42_raster.md R197).
That the write pointer starts at the start corner of a window is the general knowledge of 20_memory.md R89 (log 24). An index past
the 32-bit range is log 17. -/
def Obligations.BlitPaintsTheVisiblePart : Prop :=
  ∀ (x y w h : Half) (src : Word) (s : State), s.Ready → SinkSettled s → s.sink.colMode = 0x05#8 →
    ∃ t f, exec (.reqBlit x y w h src) s = .next t ∧ BlitPixels s src.toNat w.toNat f ∧ SinkSettled t ∧
      s.sink.SameSettings t.sink ∧
      ∀ col row, col < 65536 → t.sink.pixel col row = paintedPixel s.sink x.toNat y.toNat w.toNat h.toNat f col row

/-- MONOBLIT, for every operand: a window and its pixels for each visible row, each pixel chosen by its bit; `WC`, `HC`, `ROW`, `COL`
and the scratch line; nothing else (42_raster.md R198, R199, R200). Log 17 and log 18 as for BLIT. -/
def Obligations.MonoBlitExpandsBitsToTwoColours : Prop :=
  ∀ (x y w h : Half) (src : Word) (fg bg : Half) (s : State), s.Ready → ∃ t f,
    exec (.reqMonoBlit x y w h src fg bg) s = .next t ∧ HostPixels s src.toNat w.toNat fg bg f ∧
    Served s t { s.opnd with op := 0x8#4, x := x, y := y, wd := w, ht := h, src := src, c0 := fg, c1 := bg }
      (rowFrames x.toNat y.toNat w.toNat h.toNat f) ∧
    t.work = rowsWork x.toNat y.toNat w.toNat h.toNat s.work ∧
    t.line = monoLine x.toNat y.toNat w.toNat h.toNat f s.line

/-- What MONOBLIT leaves in the panel (42_raster.md R201).
That the write pointer starts at the start corner of a window is the general knowledge of 20_memory.md R89 (log 24). An index past
the 32-bit range is log 17. -/
def Obligations.MonoBlitPaintsTheVisiblePart : Prop :=
  ∀ (x y w h : Half) (src : Word) (fg bg : Half) (s : State), s.Ready → SinkSettled s → s.sink.colMode = 0x05#8 →
    ∃ t f, exec (.reqMonoBlit x y w h src fg bg) s = .next t ∧ HostPixels s src.toNat w.toNat fg bg f ∧ SinkSettled t ∧
      s.sink.SameSettings t.sink ∧
      ∀ col row, col < 65536 → t.sink.pixel col row = paintedPixel s.sink x.toNat y.toNat w.toNat h.toNat f col row

/-- FILL, BLIT and MONOBLIT send exactly `min(w, 160 − x) · min(h, 80 − y)` pixel words, and none off the panel or for a zero size
(42_raster.md R202). -/
def Obligations.PixelWordsEqualTheClippedArea : Prop :=
  ∀ (x y w h color fg bg : Half) (src : Word) (s : State), s.Ready →
    ∀ i ∈ [Instr.reqFill x y w h color, .reqBlit x y w h src, .reqMonoBlit x y w h src fg bg],
      ∃ t es, exec i s = .next t ∧ t.trace = s.trace ++ es ∧
        (if x.toNat < 160 ∧ y.toNat < 80 ∧ 1 ≤ w.toNat ∧ 1 ≤ h.toNat then
          pixelCount es = min w.toNat (160 - x.toNat) * min h.toNat (80 - y.toNat)
        else es = [])

/-- A drawing whose first column or row is off the panel emits nothing and touches no line, no scratch line and no panel, and the
request completes: FILL, BLIT, MONOBLIT, DRAWCHAR and DRAWSTRING (60_exceptions.md R271, 41_addressing.md R171, 43_text.md R223,
R226). -/
def Obligations.OffPanelDrawingEmitsNothing : Prop :=
  ∀ (x y w h color fg bg len : Half) (ch : Byte) (src : Word) (s : State), s.Ready → (160 ≤ x.toNat ∨ 80 ≤ y.toNat) →
    ∀ i ∈ [Instr.reqFill x y w h color, .reqBlit x y w h src, .reqMonoBlit x y w h src fg bg, .reqDrawChar x y ch fg bg,
        .reqDrawString x y src len fg bg],
      ∃ t, exec i s = .next t ∧ t.trace = s.trace ∧ t.pins = s.pins ∧ t.line = s.line ∧ t.sink = s.sink ∧
        t.respDone = true ∧ t.busy = false ∧ t.pstate = s.pstate

-- Requests: text

/-- DRAWCHAR, for every operand and every code: the rows of the glyph, then the gap column; the pixels as the glyph table says for a
valid code, one of the two colours each for any other (43_text.md R222, R223, R224; free values log 16, registers log 18). -/
def Obligations.DrawCharSendsGlyphThenGap : Prop :=
  ∀ (x y : Half) (ch : Byte) (fg bg : Half) (s : State), s.Ready → ∃ t f,
    exec (.reqDrawChar x y ch fg bg) s = .next t ∧ GlyphPixels s ch fg bg f ∧
    Served s t { s.opnd with op := 0x9#4, x := x, y := y, ch := ch, c0 := fg, c1 := bg }
      (rowFrames x.toNat y.toNat 7 16 f ++ fillFrames (x.toNat + 7) y.toNat 1 16 bg) ∧
    t.work = charWork x.toNat y.toNat ch fg bg s.work ∧ t.line = monoLine x.toNat y.toNat 7 16 f s.line

/-- What DRAWCHAR leaves in the panel: a cell of seven glyph columns and one gap column, cut to the panel (43_text.md R225).
That the write pointer starts at the start corner of a window is the general knowledge of 20_memory.md R89 (log 24). The pixels
of a code without a glyph are log 16. -/
def Obligations.DrawCharPaintsOneCell : Prop :=
  ∀ (x y : Half) (ch : Byte) (fg bg : Half) (s : State), s.Ready → SinkSettled s → s.sink.colMode = 0x05#8 → ∃ t f,
    exec (.reqDrawChar x y ch fg bg) s = .next t ∧ GlyphPixels s ch fg bg f ∧ SinkSettled t ∧ s.sink.SameSettings t.sink ∧
    ∀ col row, col < 65536 →
      t.sink.pixel col row = paintedPixel s.sink x.toNat y.toNat 8 16 (fun r c => if c < 7 then f r c else bg) col row

/-- DRAWSTRING, for every operand: character `k` at cursor `x + 8k`, those with `k < LEN` whose cursor is left of column 160 and no
other, at most 20; `CURX` has advanced by 8 for each (43_text.md R226, R227). The other working registers and the scratch line are
as the characters leave them one after the other (log 18); a code without a glyph is log 16, an index past the 32-bit range log 17. -/
def Obligations.DrawStringDrawsUntilTheEdge : Prop :=
  (∀ (x y : Half) (src : Word) (len fg bg : Half) (s : State), s.Ready → ∃ t ch f,
    exec (.reqDrawString x y src len fg bg) s = .next t ∧ TextPixels s src.toNat fg bg ch f ∧
    Served s t { s.opnd with op := 0xA#4, x := x, y := y, src := src, len := len, c0 := fg, c1 := bg }
      ((List.range (drawnChars x.toNat len.toNat)).flatMap fun k => glyphFrames (x.toNat + 8 * k) y.toNat bg (f k)) ∧
    t.work.curx = BitVec.ofNat 16 (x.toNat + 8 * drawnChars x.toNat len.toNat) ∧
    t.work = stringWork x.toNat y.toNat len.toNat ch fg bg s.work ∧
    t.line = stringLine x.toNat y.toNat (drawnChars x.toNat len.toNat) f s.line) ∧
  (∀ x len : Nat, drawnChars x len ≤ 20 ∧ ∀ k, k < drawnChars x len ↔ k < len ∧ x + 8 * k < 160)

/-- What DRAWSTRING leaves in the panel: cells of eight columns one after the other, cut to the panel (43_text.md R229).
That the write pointer starts at the start corner of a window is the general knowledge of 20_memory.md R89 (log 24). A code
without a glyph is log 16, an index past the 32-bit range log 17. -/
def Obligations.DrawStringPaintsItsCells : Prop :=
  ∀ (x y : Half) (src : Word) (len fg bg : Half) (s : State), s.Ready → SinkSettled s → s.sink.colMode = 0x05#8 → ∃ t ch f,
    exec (.reqDrawString x y src len fg bg) s = .next t ∧ TextPixels s src.toNat fg bg ch f ∧ SinkSettled t ∧
    s.sink.SameSettings t.sink ∧
    ∀ col row, col < 65536 → t.sink.pixel col row =
      paintedPixel s.sink x.toNat y.toNat (8 * len.toNat) 16 (fun r c => if c % 8 < 7 then f (c / 8) r (c % 8) else bg) col row

-- Requests: lifecycle

/-- RESET, in full: its events, `PSTATE` awake, the lines at rest, the registers of its FILL, nothing else (44_lifecycle.md R244,
R245; registers log 18). -/
def Obligations.ResetRunsTheBringUpSequence : Prop :=
  ∀ s : State, s.Ready → ∃ t, exec .reqReset s = .next t ∧
    t.trace = s.trace ++ resetEvents s.hasCs s.hasRst ∧ t.pstate = .awake ∧ t.begun = true ∧
    t.opnd = { s.opnd with op := 0x2#4 } ∧ t.work = resetWork s.work ∧ t.line = s.line ∧
    t.pins = { s.pins with
      csN := s.hasCs || s.pins.csN, rstN := s.hasRst || s.pins.rstN, dc := false, sck := false, mosi := true } ∧
    t.busy = false ∧ t.seq = .idle ∧ t.respDone = true ∧ t.lock = false ∧ t.busReq = false ∧ t.dly = 0 ∧ SameOutside s t

/-- The frame view of RESET, line by line (44_lifecycle.md R245). -/
def Obligations.ResetFrameViewIsTheListedOne : Prop :=
  ∀ s : State, s.Ready → ∃ t es, exec .reqReset s = .next t ∧ t.trace = s.trace ++ es ∧
    frameView es =
      (if s.hasRst then [.rst false, .delay 100, .rst true, .delay 120] else [.frame 0x01#8 [], .delay 120]) ++
        [.frame 0x11#8 [], .delay 120, .frame 0x36#8 [0x68#8], .frame 0x3A#8 [0x05#8], .frame 0x13#8 [],
          .frame 0x2A#8 [0x00#8, 0x00#8, 0x00#8, 0x9F#8], .frame 0x2B#8 [0x00#8, 0x18#8, 0x00#8, 0x67#8],
          .frame 0x2C#8 (List.replicate 25600 0x00#8), .frame 0x29#8 []]

/-- BEGIN, before BEGIN and again after it: the lines that exist become driven outputs, the bus is initialised, and RESET follows
(44_lifecycle.md R243, 10_state.md R28, R30). The working registers after it, those of its FILL, are log 18. -/
def Obligations.BeginConfiguresTheLinesAndResets : Prop :=
  ∀ s : State, s.busy = false → s.lock = false → s.grants = none → ∃ t, exec .reqBegin s = .next t ∧
    t.trace = s.trace ++ [.pinCfg, .busInit] ++ resetEvents s.hasCs s.hasRst ∧ t.pstate = .awake ∧ t.begun = true ∧
    t.opnd = { s.opnd with op := 0x1#4 } ∧ t.work = resetWork s.work ∧ t.line = s.line ∧
    t.pins = {
      csN := true, dc := false, rstN := true, sck := false, mosi := true,
      csNOe := s.hasCs, dcOe := true, rstNOe := s.hasRst, sckOe := true, mosiOe := true } ∧
    t.busy = false ∧ t.seq = .idle ∧ t.respDone = true ∧ t.lock = false ∧ t.busReq = false ∧ t.dly = 0 ∧ SameOutside s t

/-- The sink after BEGIN or RESET, whatever it was before: awake, normal orientation, 16-bit colour, normal mode, display on, the
window the whole surface, and the whole surface black (44_lifecycle.md R252).
That the write pointer starts at the start corner of a window is the general knowledge of 20_memory.md R89 (log 24). What the
panel's own reset leaves before that is free (log 21). -/
def Obligations.BringUpLeavesABlackPanel : Prop :=
  ∀ s : State, s.busy = false → s.lock = false → s.grants = none →
    ∀ i, (i = .reqBegin ∨ (i = .reqReset ∧ s.begun = true)) → ∃ t, exec i s = .next t ∧
      t.sink.sleep = false ∧ t.sink.orient = 0x68#8 ∧ t.sink.colMode = 0x05#8 ∧ t.sink.normal = true ∧ t.sink.dispOn = true ∧
      t.sink.winXS.toNat = 0 ∧ t.sink.winXE.toNat = 159 ∧ t.sink.winYS.toNat = 24 ∧ t.sink.winYE.toNat = 103 ∧ SinkSettled t ∧
      ∀ col row, col ≤ 159 → 24 ≤ row → row ≤ 103 → t.sink.pixel col row = 0x0000#16

/-- POWER: exit sleep, 120 ms, display on; or display off, enter sleep, 120 ms; `PSTATE` follows; nothing else (44_lifecycle.md
R246). -/
def Obligations.PowerSendsSleepOrWake : Prop :=
  ∀ (on : Bool) (s : State), s.Ready → ∃ t, exec (.reqPower on) s = .next t ∧
    t.trace = s.trace ++ (if on then txnEvents s.hasCs 0x11#8 [] ++ [.delay 120] ++ txnEvents s.hasCs 0x29#8 []
      else txnEvents s.hasCs 0x28#8 [] ++ txnEvents s.hasCs 0x10#8 [] ++ [.delay 120]) ∧
    t.sink = s.sink.frames s.hasCs (if on then [(0x11#8, []), (0x29#8, [])] else [(0x28#8, []), (0x10#8, [])]) ∧
    t.pstate = (if on then .awake else .sleeping) ∧
    t.pins = { s.pins with csN := s.hasCs || s.pins.csN, dc := false, sck := false, mosi := on } ∧
    t.opnd = { s.opnd with op := 0x3#4, on := on } ∧ t.work = s.work ∧ t.line = s.line ∧ t.begun = true ∧ t.busy = false ∧
    t.seq = .idle ∧ t.respDone = true ∧ t.lock = false ∧ t.busReq = false ∧ t.dly = 0 ∧ SameOutside s t

/-- FLIP sends one SET_ORIENT frame, 0xA8 or 0x68, and writes nothing else (44_lifecycle.md R247). -/
def Obligations.FlipSendsOneOrientationFrame : Prop :=
  ∀ (on : Bool) (s : State), s.Ready → ∃ t, exec (.reqFlip on) s = .next t ∧
    Served s t { s.opnd with op := 0x4#4, on := on } [(0x36#8, [if on then 0xA8#8 else 0x68#8])] ∧
    t.work = s.work ∧ t.line = s.line

/-- INVERSE sends one INVERT_ON or INVERT_OFF frame, and writes nothing else (44_lifecycle.md R248). -/
def Obligations.InverseSendsOneInversionFrame : Prop :=
  ∀ (on : Bool) (s : State), s.Ready → ∃ t, exec (.reqInverse on) s = .next t ∧
    Served s t { s.opnd with op := 0x5#4, on := on } [(if on then 0x21#8 else 0x20#8, [])] ∧
    t.work = s.work ∧ t.line = s.line

-- The whole machine

/-- Only BEGIN, RESET and POWER change `PSTATE`: every other instruction, however it ends, leaves it (44_lifecycle.md R240,
10_state.md R27). -/
def Obligations.OnlyLifecycleRequestsChangeThePowerState : Prop :=
  ∀ (i : Instr) (s t : State), i ≠ .reqBegin → i ≠ .reqReset → (∀ on, i ≠ .reqPower on) → exec i s = .next t →
    t.pstate = s.pstate

/-- No step writes the straps, the glyph table or a host array (20_memory.md R63, R64, 10_state.md R29). -/
def Obligations.NoStepWritesWhatIsOutside : Prop :=
  ∀ s t : State, step s = .next t →
    t.hasCs = s.hasCs ∧ t.hasRst = s.hasRst ∧ t.glyphCount = s.glyphCount ∧ t.rom = s.rom ∧ t.pix = s.pix ∧ t.bits = s.bits ∧
    t.text = s.text

/-- Events already emitted stay emitted, and `BEGUN` is not cleared, by any step but the block's reset (60_exceptions.md R277,
10_state.md R28, R39). -/
def Obligations.EmittedEventsStayEmitted : Prop :=
  ∀ s t : State, s.blkRst = false → step s = .next t → (∃ es, t.trace = s.trace ++ es) ∧ (s.begun = true → t.begun = true)

/-- A request that is granted only `n` acquisitions, for every request: if it needs no more of them, it completes as it does when every
one is granted; if it needs more, it emits the events before the next acquisition and waits there with `bus_req = 1` and `LOCK = 0`,
`PSTATE` uninitialised in BEGIN and RESET and untouched in every other request (60_exceptions.md R278, 40_bus_transport.md R144,
44_lifecycle.md R240). For a FILL on the panel these are the frames it is granted of its three, in the middle of a windowed write if
so. The number of grants and the state of a wait are log 5. -/
def Obligations.RequestsWaitWhereTheGrantsEnd : Prop :=
  (∀ (i : Instr) (n : Nat) (s : State), i.kind = .request → s.busy = false → (s.begun = true ∨ i = .reqBegin) → s.lock = false →
    s.grants = some n → ∃ t es, exec i { s with grants := none } = .next t ∧ t.trace = s.trace ++ es ∧
      (es.count .acq ≤ n → exec i s = .next { t with grants := some (n - es.count .acq) }) ∧
      (n < es.count .acq → ∃ u, exec i s = .next u ∧ u.trace = s.trace ++ untilAcq n es ∧ u.busy = true ∧ u.lock = false ∧
        u.busReq = true ∧ u.respDone = false ∧ u.grants = some 0 ∧ u.begun = true ∧ u.opnd = t.opnd ∧
        u.pstate = (if i = .reqBegin ∨ i = .reqReset then .uninit else s.pstate))) ∧
  (∀ (x y w h color : Half) (n : Nat) (s : State), s.busy = false → s.begun = true → s.lock = false → s.grants = some n → n < 3 →
    x.toNat < 160 → y.toNat < 80 → 1 ≤ w.toNat → 1 ≤ h.toNat → ∃ t, exec (.reqFill x y w h color) s = .next t ∧
      t.busy = true ∧ t.lock = false ∧ t.busReq = true ∧ t.respDone = false ∧ t.pstate = s.pstate ∧
      t.trace = s.trace ++ framesEvents s.hasCs ((fillFrames x.toNat y.toNat w.toNat h.toNat color).take n))

/-- Every frame that a granted request sends is one of the thirteen with a payload of its format (30_encoding.md R103, R115). -/
def Obligations.RequestsSendOnlyTheThirteenFrames : Prop :=
  ∀ (i : Instr) (s : State), i.kind = .request → s.Ready → ∃ t es, exec i s = .next t ∧ t.trace = s.trace ++ es ∧
    ∀ c payload, View.frame c payload ∈ frameView es → blockFrame (c, payload) = true

/-- Every request that is granted leaves the settling times in its frame view (70_reset_and_hazards.md R312, 44_lifecycle.md
R249). -/
def Obligations.RequestsKeepTheSettlingTimes : Prop :=
  ∀ (i : Instr) (s : State), i.kind = .request → s.Ready → ∃ t es, exec i s = .next t ∧ t.trace = s.trace ++ es ∧
    settleTimes (frameView es) = true

/-- The invariant of the machine is kept by every step, from every state. Which of its clauses
are rules and which the model's own (log 1, log 5, log 15, log 25) `Inv` says. -/
def Obligations.EveryStepKeepsTheMachineInvariant : Prop :=
  ∀ s t : State, Inv s → step s = .next t → Inv t

/-- The reset state meets the invariant of the machine (10_state.md R40, 70_reset_and_hazards.md R306). That it is between two frames is the
model's choice of the sink at reset (log 20) and of nothing being presented (log 3). -/
def Obligations.ResetStateMeetsTheMachineInvariant : Prop := Inv State.reset ∧ BetweenFrames State.reset

/-- While the host presents requests only, no step leaves the sink in the middle of a frame: whether the step ends a request, waits
for a grant or resets the block (41_addressing.md R175, R176). When a frame is complete rests on
the model's `expect` (log 22) and on the start of the pointer (log 24), the waiting block on log 5, the reset on log 11. -/
def Obligations.RequestsNeverLeaveAFrameOpen : Prop :=
  ∀ s t : State, BetweenFrames s → step s = .next t → BetweenFrames t

end
end

