-- ==== Sys2Proof/Laws/State.lean ====
section
/-! SUPPORT. What each update of the state leaves as it was: for each update one lemma whose conjuncts are one equation a
field, each a simp rule; and what it writes where that is one expression. -/
namespace Sys2Proof.Machine

@[simp] theorem Seq.advance_idle (n : Nat) : Seq.idle.advance n = .idle := rfl

@[simp] theorem Seq.advance_zero (q : Seq) : q.advance 0 = q := by cases q <;> rfl

@[simp] theorem Seq.advance_advance (q : Seq) (m n : Nat) : (q.advance m).advance n = q.advance (m + n) := by
  cases q <;> simp [Seq.advance, Nat.add_assoc]

@[simp] theorem State.emit_fields (e : Event) (s : State) :
    (s.emit e).pstate = s.pstate ∧ (s.emit e).begun = s.begun ∧ (s.emit e).busy = s.busy ∧ (s.emit e).lock = s.lock ∧
      (s.emit e).busReq = s.busReq ∧ (s.emit e).dly = s.dly ∧ (s.emit e).respDone = s.respDone ∧ (s.emit e).respData = s.respData ∧
      (s.emit e).opnd = s.opnd ∧ (s.emit e).work = s.work ∧ (s.emit e).line = s.line ∧ (s.emit e).pins = s.pins ∧
      (s.emit e).sink = s.sink ∧ (s.emit e).hasCs = s.hasCs ∧ (s.emit e).hasRst = s.hasRst ∧ (s.emit e).glyphCount = s.glyphCount ∧
      (s.emit e).rom = s.rom ∧ (s.emit e).pix = s.pix ∧ (s.emit e).bits = s.bits ∧ (s.emit e).text = s.text ∧
      (s.emit e).grants = s.grants ∧ (s.emit e).inputs = s.inputs ∧ (s.emit e).blkRst = s.blkRst ∧ (s.emit e).freeCtr = s.freeCtr :=
  ⟨rfl, rfl, rfl, rfl, rfl, rfl, rfl, rfl, rfl, rfl, rfl, rfl, rfl, rfl, rfl, rfl, rfl, rfl, rfl, rfl, rfl, rfl, rfl, rfl⟩

@[simp] theorem State.driveDc_fields (l : Bool) (s : State) :
    (s.driveDc l).pstate = s.pstate ∧ (s.driveDc l).begun = s.begun ∧ (s.driveDc l).busy = s.busy ∧ (s.driveDc l).lock = s.lock ∧
      (s.driveDc l).busReq = s.busReq ∧ (s.driveDc l).dly = s.dly ∧ (s.driveDc l).respDone = s.respDone ∧ (s.driveDc l).respData = s.respData ∧
      (s.driveDc l).opnd = s.opnd ∧ (s.driveDc l).work = s.work ∧ (s.driveDc l).line = s.line ∧ (s.driveDc l).sink = s.sink ∧
      (s.driveDc l).hasCs = s.hasCs ∧ (s.driveDc l).hasRst = s.hasRst ∧ (s.driveDc l).glyphCount = s.glyphCount ∧ (s.driveDc l).rom = s.rom ∧
      (s.driveDc l).pix = s.pix ∧ (s.driveDc l).bits = s.bits ∧ (s.driveDc l).text = s.text ∧ (s.driveDc l).grants = s.grants ∧
      (s.driveDc l).inputs = s.inputs ∧ (s.driveDc l).blkRst = s.blkRst ∧ (s.driveDc l).freeCtr = s.freeCtr :=
  ⟨rfl, rfl, rfl, rfl, rfl, rfl, rfl, rfl, rfl, rfl, rfl, rfl, rfl, rfl, rfl, rfl, rfl, rfl, rfl, rfl, rfl, rfl, rfl⟩

@[simp] theorem State.driveRst_fields (l : Bool) (s : State) :
    (s.driveRst l).pstate = s.pstate ∧ (s.driveRst l).begun = s.begun ∧ (s.driveRst l).busy = s.busy ∧ (s.driveRst l).lock = s.lock ∧
      (s.driveRst l).busReq = s.busReq ∧ (s.driveRst l).dly = s.dly ∧ (s.driveRst l).respDone = s.respDone ∧ (s.driveRst l).respData = s.respData ∧
      (s.driveRst l).opnd = s.opnd ∧ (s.driveRst l).work = s.work ∧ (s.driveRst l).line = s.line ∧ (s.driveRst l).hasCs = s.hasCs ∧
      (s.driveRst l).hasRst = s.hasRst ∧ (s.driveRst l).glyphCount = s.glyphCount ∧ (s.driveRst l).rom = s.rom ∧ (s.driveRst l).pix = s.pix ∧
      (s.driveRst l).bits = s.bits ∧ (s.driveRst l).text = s.text ∧ (s.driveRst l).grants = s.grants ∧ (s.driveRst l).inputs = s.inputs ∧
      (s.driveRst l).blkRst = s.blkRst ∧ (s.driveRst l).freeCtr = s.freeCtr :=
  ⟨rfl, rfl, rfl, rfl, rfl, rfl, rfl, rfl, rfl, rfl, rfl, rfl, rfl, rfl, rfl, rfl, rfl, rfl, rfl, rfl, rfl, rfl⟩

@[simp] theorem State.tx8_fields (b : Byte) (s : State) :
    (s.tx8 b).pstate = s.pstate ∧ (s.tx8 b).begun = s.begun ∧ (s.tx8 b).busy = s.busy ∧ (s.tx8 b).lock = s.lock ∧
      (s.tx8 b).busReq = s.busReq ∧ (s.tx8 b).dly = s.dly ∧ (s.tx8 b).respDone = s.respDone ∧ (s.tx8 b).respData = s.respData ∧
      (s.tx8 b).opnd = s.opnd ∧ (s.tx8 b).work = s.work ∧ (s.tx8 b).line = s.line ∧ (s.tx8 b).hasCs = s.hasCs ∧
      (s.tx8 b).hasRst = s.hasRst ∧ (s.tx8 b).glyphCount = s.glyphCount ∧ (s.tx8 b).rom = s.rom ∧ (s.tx8 b).pix = s.pix ∧
      (s.tx8 b).bits = s.bits ∧ (s.tx8 b).text = s.text ∧ (s.tx8 b).grants = s.grants ∧ (s.tx8 b).inputs = s.inputs ∧
      (s.tx8 b).blkRst = s.blkRst ∧ (s.tx8 b).freeCtr = s.freeCtr :=
  ⟨rfl, rfl, rfl, rfl, rfl, rfl, rfl, rfl, rfl, rfl, rfl, rfl, rfl, rfl, rfl, rfl, rfl, rfl, rfl, rfl, rfl, rfl⟩

@[simp] theorem State.tx8s_fields (bs : List Byte) (s : State) :
    (s.tx8s bs).pstate = s.pstate ∧ (s.tx8s bs).begun = s.begun ∧ (s.tx8s bs).busy = s.busy ∧ (s.tx8s bs).lock = s.lock ∧
      (s.tx8s bs).busReq = s.busReq ∧ (s.tx8s bs).dly = s.dly ∧ (s.tx8s bs).respDone = s.respDone ∧ (s.tx8s bs).respData = s.respData ∧
      (s.tx8s bs).opnd = s.opnd ∧ (s.tx8s bs).work = s.work ∧ (s.tx8s bs).line = s.line ∧ (s.tx8s bs).hasCs = s.hasCs ∧
      (s.tx8s bs).hasRst = s.hasRst ∧ (s.tx8s bs).glyphCount = s.glyphCount ∧ (s.tx8s bs).rom = s.rom ∧ (s.tx8s bs).pix = s.pix ∧
      (s.tx8s bs).bits = s.bits ∧ (s.tx8s bs).text = s.text ∧ (s.tx8s bs).grants = s.grants ∧ (s.tx8s bs).inputs = s.inputs ∧
      (s.tx8s bs).blkRst = s.blkRst ∧ (s.tx8s bs).freeCtr = s.freeCtr :=
  ⟨rfl, rfl, rfl, rfl, rfl, rfl, rfl, rfl, rfl, rfl, rfl, rfl, rfl, rfl, rfl, rfl, rfl, rfl, rfl, rfl, rfl, rfl⟩

@[simp] theorem State.release_fields (s : State) :
    (s.release).pstate = s.pstate ∧ (s.release).begun = s.begun ∧ (s.release).busy = s.busy ∧ (s.release).dly = s.dly ∧
      (s.release).respDone = s.respDone ∧ (s.release).respData = s.respData ∧ (s.release).opnd = s.opnd ∧ (s.release).work = s.work ∧
      (s.release).line = s.line ∧ (s.release).pins = s.pins ∧ (s.release).sink = s.sink ∧ (s.release).hasCs = s.hasCs ∧
      (s.release).hasRst = s.hasRst ∧ (s.release).glyphCount = s.glyphCount ∧ (s.release).rom = s.rom ∧ (s.release).pix = s.pix ∧
      (s.release).bits = s.bits ∧ (s.release).text = s.text ∧ (s.release).grants = s.grants ∧ (s.release).inputs = s.inputs ∧
      (s.release).blkRst = s.blkRst ∧ (s.release).freeCtr = s.freeCtr :=
  ⟨rfl, rfl, rfl, rfl, rfl, rfl, rfl, rfl, rfl, rfl, rfl, rfl, rfl, rfl, rfl, rfl, rfl, rfl, rfl, rfl, rfl, rfl⟩

@[simp] theorem State.delay_fields (n : Nat) (s : State) :
    (s.delay n).pstate = s.pstate ∧ (s.delay n).begun = s.begun ∧ (s.delay n).busy = s.busy ∧ (s.delay n).lock = s.lock ∧
      (s.delay n).busReq = s.busReq ∧ (s.delay n).respDone = s.respDone ∧ (s.delay n).respData = s.respData ∧ (s.delay n).opnd = s.opnd ∧
      (s.delay n).work = s.work ∧ (s.delay n).line = s.line ∧ (s.delay n).pins = s.pins ∧ (s.delay n).sink = s.sink ∧
      (s.delay n).hasCs = s.hasCs ∧ (s.delay n).hasRst = s.hasRst ∧ (s.delay n).glyphCount = s.glyphCount ∧ (s.delay n).rom = s.rom ∧
      (s.delay n).pix = s.pix ∧ (s.delay n).bits = s.bits ∧ (s.delay n).text = s.text ∧ (s.delay n).grants = s.grants ∧
      (s.delay n).inputs = s.inputs ∧ (s.delay n).blkRst = s.blkRst ∧ (s.delay n).freeCtr = s.freeCtr :=
  ⟨rfl, rfl, rfl, rfl, rfl, rfl, rfl, rfl, rfl, rfl, rfl, rfl, rfl, rfl, rfl, rfl, rfl, rfl, rfl, rfl, rfl, rfl, rfl⟩

@[simp] theorem State.setCnt_fields (n : Nat) (s : State) :
    (s.setCnt n).pstate = s.pstate ∧ (s.setCnt n).begun = s.begun ∧ (s.setCnt n).busy = s.busy ∧ (s.setCnt n).seq = s.seq ∧
      (s.setCnt n).lock = s.lock ∧ (s.setCnt n).busReq = s.busReq ∧ (s.setCnt n).dly = s.dly ∧ (s.setCnt n).respDone = s.respDone ∧
      (s.setCnt n).respData = s.respData ∧ (s.setCnt n).opnd = s.opnd ∧ (s.setCnt n).line = s.line ∧ (s.setCnt n).pins = s.pins ∧
      (s.setCnt n).traceRev = s.traceRev ∧ (s.setCnt n).sink = s.sink ∧ (s.setCnt n).hasCs = s.hasCs ∧ (s.setCnt n).hasRst = s.hasRst ∧
      (s.setCnt n).glyphCount = s.glyphCount ∧ (s.setCnt n).rom = s.rom ∧ (s.setCnt n).pix = s.pix ∧ (s.setCnt n).bits = s.bits ∧
      (s.setCnt n).text = s.text ∧ (s.setCnt n).grants = s.grants ∧ (s.setCnt n).inputs = s.inputs ∧ (s.setCnt n).blkRst = s.blkRst ∧
      (s.setCnt n).freeCtr = s.freeCtr :=
  ⟨rfl, rfl, rfl, rfl, rfl, rfl, rfl, rfl, rfl, rfl, rfl, rfl, rfl, rfl, rfl, rfl, rfl, rfl, rfl, rfl, rfl, rfl, rfl, rfl, rfl⟩

@[simp] theorem State.setClip_fields (wc hc : Nat) (s : State) :
    (s.setClip wc hc).pstate = s.pstate ∧ (s.setClip wc hc).begun = s.begun ∧ (s.setClip wc hc).busy = s.busy ∧ (s.setClip wc hc).seq = s.seq ∧
      (s.setClip wc hc).lock = s.lock ∧ (s.setClip wc hc).busReq = s.busReq ∧ (s.setClip wc hc).dly = s.dly ∧ (s.setClip wc hc).respDone = s.respDone ∧
      (s.setClip wc hc).respData = s.respData ∧ (s.setClip wc hc).opnd = s.opnd ∧ (s.setClip wc hc).line = s.line ∧ (s.setClip wc hc).pins = s.pins ∧
      (s.setClip wc hc).traceRev = s.traceRev ∧ (s.setClip wc hc).sink = s.sink ∧ (s.setClip wc hc).hasCs = s.hasCs ∧ (s.setClip wc hc).hasRst = s.hasRst ∧
      (s.setClip wc hc).glyphCount = s.glyphCount ∧ (s.setClip wc hc).rom = s.rom ∧ (s.setClip wc hc).pix = s.pix ∧ (s.setClip wc hc).bits = s.bits ∧
      (s.setClip wc hc).text = s.text ∧ (s.setClip wc hc).grants = s.grants ∧ (s.setClip wc hc).inputs = s.inputs ∧ (s.setClip wc hc).blkRst = s.blkRst ∧
      (s.setClip wc hc).freeCtr = s.freeCtr :=
  ⟨rfl, rfl, rfl, rfl, rfl, rfl, rfl, rfl, rfl, rfl, rfl, rfl, rfl, rfl, rfl, rfl, rfl, rfl, rfl, rfl, rfl, rfl, rfl, rfl, rfl⟩

@[simp] theorem State.setCol_fields (c : Nat) (s : State) :
    (s.setCol c).pstate = s.pstate ∧ (s.setCol c).begun = s.begun ∧ (s.setCol c).busy = s.busy ∧ (s.setCol c).seq = s.seq ∧
      (s.setCol c).lock = s.lock ∧ (s.setCol c).busReq = s.busReq ∧ (s.setCol c).dly = s.dly ∧ (s.setCol c).respDone = s.respDone ∧
      (s.setCol c).respData = s.respData ∧ (s.setCol c).opnd = s.opnd ∧ (s.setCol c).line = s.line ∧ (s.setCol c).pins = s.pins ∧
      (s.setCol c).traceRev = s.traceRev ∧ (s.setCol c).sink = s.sink ∧ (s.setCol c).hasCs = s.hasCs ∧ (s.setCol c).hasRst = s.hasRst ∧
      (s.setCol c).glyphCount = s.glyphCount ∧ (s.setCol c).rom = s.rom ∧ (s.setCol c).pix = s.pix ∧ (s.setCol c).bits = s.bits ∧
      (s.setCol c).text = s.text ∧ (s.setCol c).grants = s.grants ∧ (s.setCol c).inputs = s.inputs ∧ (s.setCol c).blkRst = s.blkRst ∧
      (s.setCol c).freeCtr = s.freeCtr :=
  ⟨rfl, rfl, rfl, rfl, rfl, rfl, rfl, rfl, rfl, rfl, rfl, rfl, rfl, rfl, rfl, rfl, rfl, rfl, rfl, rfl, rfl, rfl, rfl, rfl, rfl⟩

@[simp] theorem State.setRow_fields (r : Nat) (s : State) :
    (s.setRow r).pstate = s.pstate ∧ (s.setRow r).begun = s.begun ∧ (s.setRow r).busy = s.busy ∧ (s.setRow r).seq = s.seq ∧
      (s.setRow r).lock = s.lock ∧ (s.setRow r).busReq = s.busReq ∧ (s.setRow r).dly = s.dly ∧ (s.setRow r).respDone = s.respDone ∧
      (s.setRow r).respData = s.respData ∧ (s.setRow r).opnd = s.opnd ∧ (s.setRow r).line = s.line ∧ (s.setRow r).pins = s.pins ∧
      (s.setRow r).traceRev = s.traceRev ∧ (s.setRow r).sink = s.sink ∧ (s.setRow r).hasCs = s.hasCs ∧ (s.setRow r).hasRst = s.hasRst ∧
      (s.setRow r).glyphCount = s.glyphCount ∧ (s.setRow r).rom = s.rom ∧ (s.setRow r).pix = s.pix ∧ (s.setRow r).bits = s.bits ∧
      (s.setRow r).text = s.text ∧ (s.setRow r).grants = s.grants ∧ (s.setRow r).inputs = s.inputs ∧ (s.setRow r).blkRst = s.blkRst ∧
      (s.setRow r).freeCtr = s.freeCtr :=
  ⟨rfl, rfl, rfl, rfl, rfl, rfl, rfl, rfl, rfl, rfl, rfl, rfl, rfl, rfl, rfl, rfl, rfl, rfl, rfl, rfl, rfl, rfl, rfl, rfl, rfl⟩

@[simp] theorem State.setCidx_fields (i : Nat) (s : State) :
    (s.setCidx i).pstate = s.pstate ∧ (s.setCidx i).begun = s.begun ∧ (s.setCidx i).busy = s.busy ∧ (s.setCidx i).seq = s.seq ∧
      (s.setCidx i).lock = s.lock ∧ (s.setCidx i).busReq = s.busReq ∧ (s.setCidx i).dly = s.dly ∧ (s.setCidx i).respDone = s.respDone ∧
      (s.setCidx i).respData = s.respData ∧ (s.setCidx i).opnd = s.opnd ∧ (s.setCidx i).line = s.line ∧ (s.setCidx i).pins = s.pins ∧
      (s.setCidx i).traceRev = s.traceRev ∧ (s.setCidx i).sink = s.sink ∧ (s.setCidx i).hasCs = s.hasCs ∧ (s.setCidx i).hasRst = s.hasRst ∧
      (s.setCidx i).glyphCount = s.glyphCount ∧ (s.setCidx i).rom = s.rom ∧ (s.setCidx i).pix = s.pix ∧ (s.setCidx i).bits = s.bits ∧
      (s.setCidx i).text = s.text ∧ (s.setCidx i).grants = s.grants ∧ (s.setCidx i).inputs = s.inputs ∧ (s.setCidx i).blkRst = s.blkRst ∧
      (s.setCidx i).freeCtr = s.freeCtr :=
  ⟨rfl, rfl, rfl, rfl, rfl, rfl, rfl, rfl, rfl, rfl, rfl, rfl, rfl, rfl, rfl, rfl, rfl, rfl, rfl, rfl, rfl, rfl, rfl, rfl, rfl⟩

@[simp] theorem State.setCurx_fields (x : Nat) (s : State) :
    (s.setCurx x).pstate = s.pstate ∧ (s.setCurx x).begun = s.begun ∧ (s.setCurx x).busy = s.busy ∧ (s.setCurx x).seq = s.seq ∧
      (s.setCurx x).lock = s.lock ∧ (s.setCurx x).busReq = s.busReq ∧ (s.setCurx x).dly = s.dly ∧ (s.setCurx x).respDone = s.respDone ∧
      (s.setCurx x).respData = s.respData ∧ (s.setCurx x).opnd = s.opnd ∧ (s.setCurx x).line = s.line ∧ (s.setCurx x).pins = s.pins ∧
      (s.setCurx x).traceRev = s.traceRev ∧ (s.setCurx x).sink = s.sink ∧ (s.setCurx x).hasCs = s.hasCs ∧ (s.setCurx x).hasRst = s.hasRst ∧
      (s.setCurx x).glyphCount = s.glyphCount ∧ (s.setCurx x).rom = s.rom ∧ (s.setCurx x).pix = s.pix ∧ (s.setCurx x).bits = s.bits ∧
      (s.setCurx x).text = s.text ∧ (s.setCurx x).grants = s.grants ∧ (s.setCurx x).inputs = s.inputs ∧ (s.setCurx x).blkRst = s.blkRst ∧
      (s.setCurx x).freeCtr = s.freeCtr :=
  ⟨rfl, rfl, rfl, rfl, rfl, rfl, rfl, rfl, rfl, rfl, rfl, rfl, rfl, rfl, rfl, rfl, rfl, rfl, rfl, rfl, rfl, rfl, rfl, rfl, rfl⟩

@[simp] theorem State.subMonoBlit_fields (x y : Nat) (g : Int) (fg bg : Half) (s : State) :
    (s.subMonoBlit x y g fg bg).pstate = s.pstate ∧ (s.subMonoBlit x y g fg bg).begun = s.begun ∧ (s.subMonoBlit x y g fg bg).busy = s.busy ∧ (s.subMonoBlit x y g fg bg).seq = s.seq ∧
      (s.subMonoBlit x y g fg bg).lock = s.lock ∧ (s.subMonoBlit x y g fg bg).busReq = s.busReq ∧ (s.subMonoBlit x y g fg bg).dly = s.dly ∧ (s.subMonoBlit x y g fg bg).respDone = s.respDone ∧
      (s.subMonoBlit x y g fg bg).respData = s.respData ∧ (s.subMonoBlit x y g fg bg).opnd = s.opnd ∧ (s.subMonoBlit x y g fg bg).line = s.line ∧ (s.subMonoBlit x y g fg bg).pins = s.pins ∧
      (s.subMonoBlit x y g fg bg).traceRev = s.traceRev ∧ (s.subMonoBlit x y g fg bg).sink = s.sink ∧ (s.subMonoBlit x y g fg bg).hasCs = s.hasCs ∧ (s.subMonoBlit x y g fg bg).hasRst = s.hasRst ∧
      (s.subMonoBlit x y g fg bg).glyphCount = s.glyphCount ∧ (s.subMonoBlit x y g fg bg).rom = s.rom ∧ (s.subMonoBlit x y g fg bg).pix = s.pix ∧ (s.subMonoBlit x y g fg bg).bits = s.bits ∧
      (s.subMonoBlit x y g fg bg).text = s.text ∧ (s.subMonoBlit x y g fg bg).grants = s.grants ∧ (s.subMonoBlit x y g fg bg).inputs = s.inputs ∧ (s.subMonoBlit x y g fg bg).blkRst = s.blkRst ∧
      (s.subMonoBlit x y g fg bg).freeCtr = s.freeCtr :=
  ⟨rfl, rfl, rfl, rfl, rfl, rfl, rfl, rfl, rfl, rfl, rfl, rfl, rfl, rfl, rfl, rfl, rfl, rfl, rfl, rfl, rfl, rfl, rfl, rfl, rfl⟩

@[simp] theorem State.subFill_fields (x y w h : Nat) (color : Half) (sp : BitVec 2) (s : State) :
    (s.subFill x y w h color sp).pstate = s.pstate ∧ (s.subFill x y w h color sp).begun = s.begun ∧ (s.subFill x y w h color sp).busy = s.busy ∧ (s.subFill x y w h color sp).seq = s.seq ∧
      (s.subFill x y w h color sp).lock = s.lock ∧ (s.subFill x y w h color sp).busReq = s.busReq ∧ (s.subFill x y w h color sp).dly = s.dly ∧ (s.subFill x y w h color sp).respDone = s.respDone ∧
      (s.subFill x y w h color sp).respData = s.respData ∧ (s.subFill x y w h color sp).opnd = s.opnd ∧ (s.subFill x y w h color sp).line = s.line ∧ (s.subFill x y w h color sp).pins = s.pins ∧
      (s.subFill x y w h color sp).traceRev = s.traceRev ∧ (s.subFill x y w h color sp).sink = s.sink ∧ (s.subFill x y w h color sp).hasCs = s.hasCs ∧ (s.subFill x y w h color sp).hasRst = s.hasRst ∧
      (s.subFill x y w h color sp).glyphCount = s.glyphCount ∧ (s.subFill x y w h color sp).rom = s.rom ∧ (s.subFill x y w h color sp).pix = s.pix ∧ (s.subFill x y w h color sp).bits = s.bits ∧
      (s.subFill x y w h color sp).text = s.text ∧ (s.subFill x y w h color sp).grants = s.grants ∧ (s.subFill x y w h color sp).inputs = s.inputs ∧ (s.subFill x y w h color sp).blkRst = s.blkRst ∧
      (s.subFill x y w h color sp).freeCtr = s.freeCtr :=
  ⟨rfl, rfl, rfl, rfl, rfl, rfl, rfl, rfl, rfl, rfl, rfl, rfl, rfl, rfl, rfl, rfl, rfl, rfl, rfl, rfl, rfl, rfl, rfl, rfl, rfl⟩

@[simp] theorem State.setLine_fields (c : Nat) (v : Half) (s : State) :
    (s.setLine c v).pstate = s.pstate ∧ (s.setLine c v).begun = s.begun ∧ (s.setLine c v).busy = s.busy ∧ (s.setLine c v).seq = s.seq ∧
      (s.setLine c v).lock = s.lock ∧ (s.setLine c v).busReq = s.busReq ∧ (s.setLine c v).dly = s.dly ∧ (s.setLine c v).respDone = s.respDone ∧
      (s.setLine c v).respData = s.respData ∧ (s.setLine c v).opnd = s.opnd ∧ (s.setLine c v).work = s.work ∧ (s.setLine c v).pins = s.pins ∧
      (s.setLine c v).traceRev = s.traceRev ∧ (s.setLine c v).sink = s.sink ∧ (s.setLine c v).hasCs = s.hasCs ∧ (s.setLine c v).hasRst = s.hasRst ∧
      (s.setLine c v).glyphCount = s.glyphCount ∧ (s.setLine c v).rom = s.rom ∧ (s.setLine c v).pix = s.pix ∧ (s.setLine c v).bits = s.bits ∧
      (s.setLine c v).text = s.text ∧ (s.setLine c v).grants = s.grants ∧ (s.setLine c v).inputs = s.inputs ∧ (s.setLine c v).blkRst = s.blkRst ∧
      (s.setLine c v).freeCtr = s.freeCtr :=
  ⟨rfl, rfl, rfl, rfl, rfl, rfl, rfl, rfl, rfl, rfl, rfl, rfl, rfl, rfl, rfl, rfl, rfl, rfl, rfl, rfl, rfl, rfl, rfl, rfl, rfl⟩

@[simp] theorem State.useFree_fields (n : Nat) (s : State) :
    (s.useFree n).pstate = s.pstate ∧ (s.useFree n).begun = s.begun ∧ (s.useFree n).busy = s.busy ∧ (s.useFree n).seq = s.seq ∧
      (s.useFree n).lock = s.lock ∧ (s.useFree n).busReq = s.busReq ∧ (s.useFree n).dly = s.dly ∧ (s.useFree n).respDone = s.respDone ∧
      (s.useFree n).respData = s.respData ∧ (s.useFree n).opnd = s.opnd ∧ (s.useFree n).work = s.work ∧ (s.useFree n).line = s.line ∧
      (s.useFree n).pins = s.pins ∧ (s.useFree n).traceRev = s.traceRev ∧ (s.useFree n).sink = s.sink ∧ (s.useFree n).hasCs = s.hasCs ∧
      (s.useFree n).hasRst = s.hasRst ∧ (s.useFree n).glyphCount = s.glyphCount ∧ (s.useFree n).rom = s.rom ∧ (s.useFree n).pix = s.pix ∧
      (s.useFree n).bits = s.bits ∧ (s.useFree n).text = s.text ∧ (s.useFree n).grants = s.grants ∧ (s.useFree n).inputs = s.inputs ∧
      (s.useFree n).blkRst = s.blkRst :=
  ⟨rfl, rfl, rfl, rfl, rfl, rfl, rfl, rfl, rfl, rfl, rfl, rfl, rfl, rfl, rfl, rfl, rfl, rfl, rfl, rfl, rfl, rfl, rfl, rfl, rfl⟩

@[simp] theorem State.setPstate_fields (p : PState) (s : State) :
    (s.setPstate p).begun = s.begun ∧ (s.setPstate p).busy = s.busy ∧ (s.setPstate p).seq = s.seq ∧ (s.setPstate p).lock = s.lock ∧
      (s.setPstate p).busReq = s.busReq ∧ (s.setPstate p).dly = s.dly ∧ (s.setPstate p).respDone = s.respDone ∧ (s.setPstate p).respData = s.respData ∧
      (s.setPstate p).opnd = s.opnd ∧ (s.setPstate p).work = s.work ∧ (s.setPstate p).line = s.line ∧ (s.setPstate p).pins = s.pins ∧
      (s.setPstate p).traceRev = s.traceRev ∧ (s.setPstate p).sink = s.sink ∧ (s.setPstate p).hasCs = s.hasCs ∧ (s.setPstate p).hasRst = s.hasRst ∧
      (s.setPstate p).glyphCount = s.glyphCount ∧ (s.setPstate p).rom = s.rom ∧ (s.setPstate p).pix = s.pix ∧ (s.setPstate p).bits = s.bits ∧
      (s.setPstate p).text = s.text ∧ (s.setPstate p).grants = s.grants ∧ (s.setPstate p).inputs = s.inputs ∧ (s.setPstate p).blkRst = s.blkRst ∧
      (s.setPstate p).freeCtr = s.freeCtr :=
  ⟨rfl, rfl, rfl, rfl, rfl, rfl, rfl, rfl, rfl, rfl, rfl, rfl, rfl, rfl, rfl, rfl, rfl, rfl, rfl, rfl, rfl, rfl, rfl, rfl, rfl⟩

@[simp] theorem State.pinCfg_fields (s : State) :
    (s.pinCfg).pstate = s.pstate ∧ (s.pinCfg).begun = s.begun ∧ (s.pinCfg).busy = s.busy ∧ (s.pinCfg).lock = s.lock ∧
      (s.pinCfg).busReq = s.busReq ∧ (s.pinCfg).dly = s.dly ∧ (s.pinCfg).respDone = s.respDone ∧ (s.pinCfg).respData = s.respData ∧
      (s.pinCfg).opnd = s.opnd ∧ (s.pinCfg).work = s.work ∧ (s.pinCfg).line = s.line ∧ (s.pinCfg).sink = s.sink ∧
      (s.pinCfg).hasCs = s.hasCs ∧ (s.pinCfg).hasRst = s.hasRst ∧ (s.pinCfg).glyphCount = s.glyphCount ∧ (s.pinCfg).rom = s.rom ∧
      (s.pinCfg).pix = s.pix ∧ (s.pinCfg).bits = s.bits ∧ (s.pinCfg).text = s.text ∧ (s.pinCfg).grants = s.grants ∧
      (s.pinCfg).inputs = s.inputs ∧ (s.pinCfg).blkRst = s.blkRst ∧ (s.pinCfg).freeCtr = s.freeCtr :=
  ⟨rfl, rfl, rfl, rfl, rfl, rfl, rfl, rfl, rfl, rfl, rfl, rfl, rfl, rfl, rfl, rfl, rfl, rfl, rfl, rfl, rfl, rfl, rfl⟩

@[simp] theorem State.busInit_fields (s : State) :
    (s.busInit).pstate = s.pstate ∧ (s.busInit).begun = s.begun ∧ (s.busInit).busy = s.busy ∧ (s.busInit).lock = s.lock ∧
      (s.busInit).busReq = s.busReq ∧ (s.busInit).dly = s.dly ∧ (s.busInit).respDone = s.respDone ∧ (s.busInit).respData = s.respData ∧
      (s.busInit).opnd = s.opnd ∧ (s.busInit).work = s.work ∧ (s.busInit).line = s.line ∧ (s.busInit).sink = s.sink ∧
      (s.busInit).hasCs = s.hasCs ∧ (s.busInit).hasRst = s.hasRst ∧ (s.busInit).glyphCount = s.glyphCount ∧ (s.busInit).rom = s.rom ∧
      (s.busInit).pix = s.pix ∧ (s.busInit).bits = s.bits ∧ (s.busInit).text = s.text ∧ (s.busInit).grants = s.grants ∧
      (s.busInit).inputs = s.inputs ∧ (s.busInit).blkRst = s.blkRst :=
  ⟨rfl, rfl, rfl, rfl, rfl, rfl, rfl, rfl, rfl, rfl, rfl, rfl, rfl, rfl, rfl, rfl, rfl, rfl, rfl, rfl, rfl, rfl⟩

@[simp] theorem State.accept_fields (load : Operands → Operands) (s : State) :
    (s.accept load).pstate = s.pstate ∧ (s.accept load).begun = s.begun ∧ (s.accept load).lock = s.lock ∧ (s.accept load).busReq = s.busReq ∧
      (s.accept load).dly = s.dly ∧ (s.accept load).respData = s.respData ∧ (s.accept load).work = s.work ∧ (s.accept load).line = s.line ∧
      (s.accept load).pins = s.pins ∧ (s.accept load).traceRev = s.traceRev ∧ (s.accept load).sink = s.sink ∧ (s.accept load).hasCs = s.hasCs ∧
      (s.accept load).hasRst = s.hasRst ∧ (s.accept load).glyphCount = s.glyphCount ∧ (s.accept load).rom = s.rom ∧ (s.accept load).pix = s.pix ∧
      (s.accept load).bits = s.bits ∧ (s.accept load).text = s.text ∧ (s.accept load).grants = s.grants ∧ (s.accept load).inputs = s.inputs ∧
      (s.accept load).blkRst = s.blkRst ∧ (s.accept load).freeCtr = s.freeCtr :=
  ⟨rfl, rfl, rfl, rfl, rfl, rfl, rfl, rfl, rfl, rfl, rfl, rfl, rfl, rfl, rfl, rfl, rfl, rfl, rfl, rfl, rfl, rfl⟩

@[simp] theorem State.complete_fields (s : State) :
    (s.complete).pstate = s.pstate ∧ (s.complete).begun = s.begun ∧ (s.complete).lock = s.lock ∧ (s.complete).busReq = s.busReq ∧
      (s.complete).dly = s.dly ∧ (s.complete).opnd = s.opnd ∧ (s.complete).work = s.work ∧ (s.complete).line = s.line ∧
      (s.complete).pins = s.pins ∧ (s.complete).traceRev = s.traceRev ∧ (s.complete).sink = s.sink ∧ (s.complete).hasCs = s.hasCs ∧
      (s.complete).hasRst = s.hasRst ∧ (s.complete).glyphCount = s.glyphCount ∧ (s.complete).rom = s.rom ∧ (s.complete).pix = s.pix ∧
      (s.complete).bits = s.bits ∧ (s.complete).text = s.text ∧ (s.complete).grants = s.grants ∧ (s.complete).inputs = s.inputs ∧
      (s.complete).blkRst = s.blkRst :=
  ⟨rfl, rfl, rfl, rfl, rfl, rfl, rfl, rfl, rfl, rfl, rfl, rfl, rfl, rfl, rfl, rfl, rfl, rfl, rfl, rfl, rfl⟩

@[simp] theorem State.completeWith_fields (v : Half) (s : State) :
    (s.completeWith v).pstate = s.pstate ∧ (s.completeWith v).begun = s.begun ∧ (s.completeWith v).lock = s.lock ∧ (s.completeWith v).busReq = s.busReq ∧
      (s.completeWith v).dly = s.dly ∧ (s.completeWith v).opnd = s.opnd ∧ (s.completeWith v).work = s.work ∧ (s.completeWith v).line = s.line ∧
      (s.completeWith v).pins = s.pins ∧ (s.completeWith v).traceRev = s.traceRev ∧ (s.completeWith v).sink = s.sink ∧ (s.completeWith v).hasCs = s.hasCs ∧
      (s.completeWith v).hasRst = s.hasRst ∧ (s.completeWith v).glyphCount = s.glyphCount ∧ (s.completeWith v).rom = s.rom ∧ (s.completeWith v).pix = s.pix ∧
      (s.completeWith v).bits = s.bits ∧ (s.completeWith v).text = s.text ∧ (s.completeWith v).grants = s.grants ∧ (s.completeWith v).inputs = s.inputs ∧
      (s.completeWith v).blkRst = s.blkRst ∧ (s.completeWith v).freeCtr = s.freeCtr :=
  ⟨rfl, rfl, rfl, rfl, rfl, rfl, rfl, rfl, rfl, rfl, rfl, rfl, rfl, rfl, rfl, rfl, rfl, rfl, rfl, rfl, rfl, rfl⟩

@[simp] theorem State.emit_traceRev (e : Event) (s : State) : (s.emit e).traceRev = e :: s.traceRev := rfl
@[simp] theorem State.emit_seq (e : Event) (s : State) : (s.emit e).seq = s.seq.advance 1 := rfl
@[simp] theorem State.emit_trace (e : Event) (s : State) : (s.emit e).trace = s.trace ++ [e] := by simp [State.trace]
@[simp] theorem State.delay_trace (n : Nat) (s : State) : (s.delay n).trace = s.trace ++ [.delay n] := by
  simp [State.trace, State.delay]
@[simp] theorem State.delay_dly (n : Nat) (s : State) : (s.delay n).dly = 0 := rfl
@[simp] theorem State.delay_seq (n : Nat) (s : State) : (s.delay n).seq = s.seq.advance 1 := rfl
@[simp] theorem State.driveRst_trace (l : Bool) (s : State) : (s.driveRst l).trace = s.trace ++ [.rst l] := by
  simp [State.trace, State.driveRst]
@[simp] theorem State.driveDc_trace (l : Bool) (s : State) : (s.driveDc l).trace = s.trace ++ [.dc l] := by
  simp [State.trace, State.driveDc]
@[simp] theorem State.tx8_trace (b : Byte) (s : State) : (s.tx8 b).trace = s.trace ++ [.tx8 b] := by
  simp [State.trace, State.tx8]
@[simp] theorem State.tx8s_trace (bs : List Byte) (s : State) : (s.tx8s bs).trace = s.trace ++ bs.map .tx8 := by
  simp [State.trace, State.tx8s]
@[simp] theorem State.release_trace (s : State) : s.release.trace = s.trace ++ [.rel] := by
  simp [State.trace, State.release]
@[simp] theorem State.release_lock (s : State) : s.release.lock = false := rfl
@[simp] theorem State.release_busReq (s : State) : s.release.busReq = false := rfl
@[simp] theorem State.setPstate_pstate (p : PState) (s : State) : (s.setPstate p).pstate = p := rfl
@[simp] theorem State.accept_busy (load : Operands → Operands) (s : State) : (s.accept load).busy = true := rfl
@[simp] theorem State.accept_opnd (load : Operands → Operands) (s : State) : (s.accept load).opnd = load s.opnd := rfl
@[simp] theorem State.complete_busy (s : State) : s.complete.busy = false := rfl
@[simp] theorem State.complete_seq (s : State) : s.complete.seq = .idle := rfl
@[simp] theorem State.complete_respDone (s : State) : s.complete.respDone = true := rfl
@[simp] theorem State.completeWith_busy (v : Half) (s : State) : (s.completeWith v).busy = false := rfl
@[simp] theorem State.completeWith_seq (v : Half) (s : State) : (s.completeWith v).seq = .idle := rfl
@[simp] theorem State.completeWith_respDone (v : Half) (s : State) : (s.completeWith v).respDone = true := rfl
@[simp] theorem State.completeWith_respData (v : Half) (s : State) : (s.completeWith v).respData = v := rfl

/-- The trace depends on `traceRev` only. -/
theorem State.trace_eq {s t : State} (h : t.traceRev = s.traceRev) : t.trace = s.trace := by simp [State.trace, h]

end Sys2Proof.Machine
end

