-- ==== Sys2Proof/Laws/Transport.lean ====
section
/-! SUPPORT. The laws of the transport: a byte arrives as it was sent, TX8 repeated is one update, and a transaction on a free
bus is `State.sent`. -/
namespace Sys2Proof.Machine

/-- The byte a receiver assembles is the byte sent. -/
@[simp] theorem receivedByte_eq (b : Byte) : receivedByte b = b := by
  revert b; decide +kernel

/-- A waveform leaves the clock low and the last bit on `MOSI`. -/
theorem Pins.follow_byteWave (p : Pins) (b : Byte) :
    p.follow (byteWave b) = { p with mosi := b.getLsbD 0, sck := false } := rfl

/-- TX8 of bytes in turn is one update. -/
theorem State.tx8s_eq_foldl (bytes : List Byte) (s : State) : s.tx8s bytes = bytes.foldl (fun s b => s.tx8 b) s := by
  induction bytes generalizing s with
  | nil => simp [State.tx8s]
  | cons b bs ih =>
    rw [List.foldl_cons, ← ih]
    simp only [State.tx8s, State.tx8, State.emit, List.map_cons, List.reverse_cons, List.append_assoc, List.singleton_append,
      List.length_cons, Seq.advance_advance, List.foldl_cons, Nat.add_comm, State.sinkListens, Pins.follow_byteWave]
    by_cases h : (!s.hasCs || !s.pins.csN) = true <;> simp [h]

/-- The pins after bytes. -/
theorem foldl_byteWave (bytes : List Byte) (b : Byte) (p : Pins) :
    (b :: bytes).foldl (fun p b => p.follow (byteWave b)) p
      = { p with mosi := (bytes.getLastD b).getLsbD 0, sck := false } := by
  induction bytes generalizing b p with
  | nil => simp [Pins.follow_byteWave]
  | cons c cs ih =>
    rw [List.foldl_cons, ih]
    simp [Pins.follow_byteWave, List.getLast?_cons]

/-- The sink after bytes with `DC` high. -/
theorem foldl_receive_true (bytes : List Byte) (k : Sink) :
    bytes.foldl (fun k b => k.receive true (receivedByte b)) k = bytes.foldl Sink.data k := by
  simp [Sink.receive]

/-- ACQUIRE on a free bus that is granted. -/
theorem acquire_ready {s : State} (h : s.BusReady) :
    acquire s = .done (State.emit .acq { s with busReq := true, lock := true }) := by
  obtain ⟨h1, h2, h3⟩ := h
  simp [acquire, h1, h2, h3]

/-- TX8 of at least one byte, in closed form. -/
theorem State.tx8s_cons (b : Byte) (bs : List Byte) (s : State) :
    s.tx8s (b :: bs) =
      { s with
        traceRev := ((b :: bs).map Event.tx8).reverse ++ s.traceRev
        seq := s.seq.advance (bs.length + 1)
        pins := { s.pins with mosi := (bs.getLastD b).getLsbD 0, sck := false }
        sink := if s.sinkListens then (b :: bs).foldl (fun k b => k.receive s.pins.dc b) s.sink else s.sink } := by
  simp only [State.tx8s, foldl_byteWave, List.length_cons, receivedByte_eq]

/-- TX8, in closed form. -/
theorem State.tx8_eq (b : Byte) (s : State) :
    s.tx8 b =
      { s with
        traceRev := .tx8 b :: s.traceRev
        seq := s.seq.advance 1
        pins := { s.pins with mosi := b.getLsbD 0, sck := false }
        sink := if s.sinkListens then s.sink.receive s.pins.dc b else s.sink } := by
  simp only [State.tx8, State.emit, Pins.follow_byteWave, receivedByte_eq]

/-- What a transaction does once the bus is acquired. -/
theorem txn_rest (c : Byte) (payload : List Byte) (g : Option Nat) {s : State} (hl : s.lock = false) :
    (Res.done (State.emit .acq { s with busReq := true, lock := true, grants := g })).map (fun s =>
      State.driveCs true (State.release (State.sendPayload payload (State.tx8 c (State.driveDc false (State.driveCs false s)))))) =
    .done (({ s with grants := g } : State).sent [(c, payload)]) := by
  cases payload with
  | nil =>
    cases hc : s.hasCs <;>
      simp [Res.map, State.sent, State.sendPayload, State.driveCs, State.release, State.emit, State.tx8_eq, State.driveDc,
        framesEvents, txnEvents, csEvents, payloadEvents, Pins.afterFrame, Sink.frames, Sink.frame, State.sinkListens,
        Sink.receive, hl]
  | cons b bs =>
    cases hc : s.hasCs <;>
      simp [Res.map, State.sent, State.sendPayload, State.driveCs, State.release, State.emit, State.tx8_eq, State.driveDc,
        framesEvents, txnEvents, csEvents, payloadEvents, Pins.afterFrame, Sink.frames, Sink.frame, State.sinkListens,
        Sink.receive, hl, State.tx8s_cons, List.getLast?_cons] <;>
      congr 1 <;> omega

/-- A transaction on a free bus that is granted. -/
theorem txn_ready (c : Byte) (payload : List Byte) {s : State} (h : s.BusReady) :
    txn c payload s = .done (s.sent [(c, payload)]) := by
  obtain ⟨h1, h2, h3⟩ := h
  rw [txn, acquire_ready ⟨h1, h2, h3⟩]
  have := txn_rest c payload s.grants h2
  exact this

/-- A transaction, in every case (40_bus_transport.md R143, R144, 60_exceptions.md R278; log 6, log 7). -/
theorem txn_cases (c : Byte) (payload : List Byte) (s : State) :
    (s.begun = true ∧ s.lock = false ∧ s.grants = none ∧ txn c payload s = .done (s.sent [(c, payload)])) ∨
    (∃ n, s.begun = true ∧ s.lock = false ∧ s.grants = some (n + 1) ∧
      txn c payload s = .done (({ s with grants := some n } : State).sent [(c, payload)])) ∨
    (s.begun = true ∧ s.lock = false ∧ s.grants = some 0 ∧ txn c payload s = .hung { s with busReq := true }) ∨
    (s.begun = false ∧ txn c payload s = .refused .beforeBegin) ∨
    (s.begun = true ∧ s.lock = true ∧ txn c payload s = .refused .lockHeld) := by
  rcases Bool.eq_false_or_eq_true s.begun with h1 | h1
  · rcases Bool.eq_false_or_eq_true s.lock with h2 | h2
    · exact .inr (.inr (.inr (.inr ⟨h1, h2, by simp [txn, acquire, h1, h2, Res.map]⟩)))
    · rcases h3 : s.grants with _ | _ | n
      · exact .inl ⟨h1, h2, rfl, txn_ready c payload ⟨h1, h2, h3⟩⟩
      · exact .inr (.inr (.inl ⟨h1, h2, rfl, by simp [txn, acquire, h1, h2, h3, Res.map]⟩))
      · refine .inr (.inl ⟨n, h1, h2, rfl, ?_⟩)
        have ha : acquire s = .done (State.emit .acq { s with busReq := true, lock := true, grants := some n }) := by
          simp [acquire, h1, h2, h3]
        rw [txn, ha]
        exact txn_rest c payload (some n) h2
  · exact .inr (.inr (.inr (.inl ⟨h1, by simp [txn, acquire, h1, Res.map]⟩)))

/-- A transaction that is never granted leaves the block waiting with `bus_req = 1`. -/
theorem txn_hung (c : Byte) (payload : List Byte) {s : State} (h1 : s.begun = true) (h2 : s.lock = false)
    (h3 : s.grants = some 0) : txn c payload s = .hung { s with busReq := true } := by
  simp [txn, acquire, h1, h2, h3, Res.map]

theorem sendCmd0_ready (c : Byte) {s : State} (h : s.BusReady) : sendCmd0 c s = .done (s.sent [(c, [])]) := txn_ready c [] h

theorem sendCmd1_ready (c a : Byte) {s : State} (h : s.BusReady) : sendCmd1 c a s = .done (s.sent [(c, [a])]) :=
  txn_ready c [a] h

theorem Res.andThen_done (s : State) (f : State → Res) : (Res.done s).andThen f = f s := rfl

theorem Res.map_done (s : State) (f : State → State) : (Res.done s).map f = .done (f s) := rfl

@[simp] theorem State.sent_nil (s : State) : s.sent [] = s := by
  simp [State.sent, framesEvents, Sink.frames]

/-- Frames sent one after the other. -/
theorem State.sent_append (fs gs : List Frame) (s : State) : s.sent (fs ++ gs) = (s.sent fs).sent gs := by
  simp [State.sent, framesEvents, Sink.frames]
  cases gs <;> simp

/-- What frames leave as it was. -/
@[simp] theorem State.sent_fields (fs : List Frame) (s : State) :
    (s.sent fs).pstate = s.pstate ∧ (s.sent fs).begun = s.begun ∧ (s.sent fs).busy = s.busy ∧ (s.sent fs).lock
      = s.lock ∧ (s.sent fs).dly = s.dly ∧ (s.sent fs).respDone = s.respDone ∧ (s.sent fs).respData =
      s.respData ∧ (s.sent fs).opnd = s.opnd ∧ (s.sent fs).work = s.work ∧ (s.sent fs).line = s.line ∧ (s.sent
      fs).hasCs = s.hasCs ∧ (s.sent fs).hasRst = s.hasRst ∧ (s.sent fs).glyphCount = s.glyphCount ∧ (s.sent
      fs).rom = s.rom ∧ (s.sent fs).pix = s.pix ∧ (s.sent fs).bits = s.bits ∧ (s.sent fs).text = s.text ∧
      (s.sent fs).grants = s.grants ∧ (s.sent fs).inputs = s.inputs ∧ (s.sent fs).blkRst = s.blkRst ∧ (s.sent
      fs).freeCtr = s.freeCtr :=
  ⟨rfl, rfl, rfl, rfl, rfl, rfl, rfl, rfl, rfl, rfl, rfl, rfl, rfl, rfl, rfl, rfl, rfl, rfl, rfl, rfl, rfl⟩

theorem State.sent_cons (f : Frame) (fs : List Frame) (s : State) : s.sent (f :: fs) = (s.sent [f]).sent fs :=
  State.sent_append [f] fs s

@[simp] theorem State.sent_trace (fs : List Frame) (s : State) :
    (s.sent fs).trace = s.trace ++ framesEvents s.hasCs fs := by simp [State.trace, State.sent]

end Sys2Proof.Machine
end

