-- ==== Sys2Proof/Laws/Raster.lean ====
section
/-! SUPPORT. The laws of addressing and of the raster primitives on a free bus: each sends the frames that Safety.lean names for
it, and leaves the working registers and the scratch line as said here. -/
namespace Sys2Proof.Machine

@[simp] theorem State.withRegs_self (s : State) : s.withRegs s.work s.line s.freeCtr = s := rfl

-- Clipping

theorem clip_eq_some {x y w h wc hc : Nat} (hk : clip x y w h = some (wc, hc)) :
    1 ≤ wc ∧ 1 ≤ hc ∧ x + wc ≤ 160 ∧ y + hc ≤ 80 ∧ wc ≤ w ∧ hc ≤ h ∧ wc = min w (160 - x) ∧ hc = min h (80 - y) := by
  unfold clip at hk
  split at hk
  · cases hk
  · split at hk
    · cases hk
    · simp only [Option.some.injEq, Prod.mk.injEq, Config.panelW, Config.panelH] at *; omega

theorem selectDomain_iff (x y w h : Nat) :
    selectDomain x y w h = true ↔ 1 ≤ w ∧ 1 ≤ h ∧ x + w ≤ 160 ∧ y + h ≤ 80 := by
  simp only [selectDomain, Bool.and_eq_true, decide_eq_true_eq, and_assoc]; rfl

-- SELECT and SENDDATAREP

/-- SELECT on a free bus. -/
theorem select_ready (x y w h : Nat) {s : State} (hs : s.BusReady) (hh : 1 ≤ h) :
    select x y w h s = .done (s.sent (windowFrames x y w h)) := by
  have e : y + h - 1 + 24 = y + h + 23 := by omega
  rw [select, sendCmdN, txn_ready _ _ hs]
  simp only [Res.andThen, sendCmdN]
  rw [txn_ready _ _ (by exact hs), ← State.sent_append]
  simp [windowFrames, addressBytes, Config.colOff, Config.rowOff, e]

/-- SENDDATAREP on a free bus: `CNT` ends at 0. -/
theorem sendDataRep_ready (v : Half) (n : Nat) {s : State} (hs : s.BusReady) :
    sendDataRep v n s = .done ((s.sent [(0x2C#8, pixelBytes (List.replicate n v))]).setCnt 0) := by
  rw [sendDataRep, txn_ready _ _ (by exact hs)]
  rfl

theorem windowedWrite_sent (x y w h : Nat) (px : List Half) (s : State) :
    (s.sent (windowFrames x y w h)).sent [(0x2C#8, pixelBytes px)] = s.sent (windowedWrite x y w h px) := by
  rw [← State.sent_append, windowedWrite]

-- FILL

/-- FILL on a free bus. -/
theorem fill_ready (x y w h : Nat) (color : Half) {s : State} (hs : s.BusReady) :
    fill x y w h color s = .done ((s.sent (fillFrames x y w h color)).withRegs (fillWork x y w h s.work) s.line s.freeCtr) := by
  unfold fill fillFrames fillWork
  cases hk : clip x y w h with
  | none => simp
  | some p =>
    obtain ⟨wc, hc⟩ := p
    have hb := clip_eq_some hk
    simp only
    rw [select_ready _ _ _ _ (by exact hs) hb.2.1]
    simp only [Res.andThen]
    rw [sendDataRep_ready _ _ (by exact hs), windowedWrite_sent]
    rfl

-- BLIT

/-- The fetched pixels: host elements where the index is in range; only `COL` and the free counter change. -/
theorem fetchPixels_spec (base n col : Nat) (s : State) :
    ∃ (g : Nat → Half) (fc : Nat),
      fetchPixels base n col s =
        ((List.range n).map fun c => g (col + c),
          s.withRegs { s.work with col := if n = 0 then s.work.col else BitVec.ofNat 8 (col + n - 1) } s.line fc) ∧
      ∀ c, base + c < Config.spaceSize → g c = s.pixAt (base + c) := by
  induction n generalizing col s with
  | zero => exact ⟨fun c => s.pixAt (base + c), s.freeCtr, by simp [fetchPixels, State.withRegs], fun _ _ => rfl⟩
  | succ n ih =>
    obtain ⟨v, fc0, hv, hr⟩ : ∃ (v : Half) (fc0 : Nat),
        readPix (base + col) (s.setCol col) = (v, (s.setCol col).withRegs (s.setCol col).work s.line fc0) ∧
          (base + col < Config.spaceSize → v = s.pixAt (base + col)) := by
      by_cases h : base + col < Config.spaceSize
      · exact ⟨s.pixAt (base + col), s.freeCtr, by simp [readPix, h]; exact ⟨rfl, rfl⟩, fun _ => rfl⟩
      · exact ⟨_, s.freeCtr + 1, by simp only [readPix, h, if_false]; rfl, fun h' => absurd h' h⟩
    obtain ⟨g, fc, he, hg⟩ := ih (col + 1) ((s.setCol col).withRegs (s.setCol col).work s.line fc0)
    refine ⟨fun c => if c = col then v else g c, fc, ?_, ?_⟩
    · simp only [fetchPixels, hv, he, Prod.mk.injEq]
      constructor
      · rw [List.range_succ_eq_map]
        simp only [List.map_cons, Nat.add_zero, if_true, List.map_map, List.cons.injEq, true_and]
        refine List.map_congr_left fun c _ => ?_
        simp [Nat.add_comm, Nat.add_left_comm]
      · cases n with
        | zero => rfl
        | succ n =>
          have : col + 1 + (n + 1) - 1 = col + (n + 1 + 1) - 1 := by omega
          simp [this]; rfl
    · intro c hc
      by_cases h : c = col
      · subst h; simpa using hr hc
      · simp only [h, if_false]; exact hg c hc

theorem flatMap_range_succ {α : Type} (n : Nat) (f : Nat → List α) :
    (List.range (n + 1)).flatMap f = f 0 ++ (List.range n).flatMap fun r => f (r + 1) := by
  rw [List.range_succ_eq_map, List.flatMap_cons, List.flatMap_map]

/-- The rows of BLIT on a free bus. -/
theorem blitRows_ready (x y w wc src n row : Nat) {s : State} (hs : s.BusReady) (hw : 1 ≤ wc) :
    ∃ (f : Nat → Nat → Half) (fc : Nat),
      blitRows x y w wc src n row s =
        .done ((s.sent ((List.range n).flatMap fun r =>
            windowedWrite x (y + (row + r)) wc 1 (rowPixels wc (f (row + r))))).withRegs
          (if n = 0 then s.work else { s.work with row := BitVec.ofNat 8 (row + n - 1), col := BitVec.ofNat 8 (wc - 1) })
          s.line fc) ∧
      ∀ r c, src + r * w + c < Config.spaceSize → f r c = s.pixAt (src + r * w + c) := by
  induction n generalizing row s with
  | zero => exact ⟨fun r c => s.pixAt (src + r * w + c), s.freeCtr, by simp [blitRows], fun _ _ _ => rfl⟩
  | succ n ih =>
    have h0 : ¬ wc = 0 := by omega
    obtain ⟨g, fc0, hf, hg⟩ := fetchPixels_spec (src + row * w) wc 0 ((s.setRow row).sent (windowFrames x (y + row) wc 1))
    obtain ⟨f, fc, he, hfp⟩ := ih (row + 1)
      (s := (s.sent (windowedWrite x (y + row) wc 1 (rowPixels wc g))).withRegs
        { s.work with row := BitVec.ofNat 8 row, col := BitVec.ofNat 8 (wc - 1) } s.line fc0) (by exact hs)
    refine ⟨fun r => if r = row then g else f r, fc, ?_, ?_⟩
    · rw [blitRows, select_ready _ _ _ _ (by exact hs) (Nat.le_refl 1)]
      simp only [Res.andThen, hf, sendData16]
      rw [txn_ready _ _ (by exact hs)]
      simp only [h0, if_false, Nat.zero_add]
      refine (congrArg (blitRows x y w wc src n (row + 1)) ?_).trans (he.trans (congrArg Res.done ?_))
      · rw [← windowedWrite_sent]; rfl
      · rw [flatMap_range_succ, State.sent_append]
        simp only [Nat.add_zero, if_true]
        have e2 : (List.range n).flatMap (fun r => windowedWrite x (y + (row + (r + 1))) wc 1
              (rowPixels wc (if row + (r + 1) = row then g else f (row + (r + 1))))) =
            (List.range n).flatMap (fun r => windowedWrite x (y + (row + 1 + r)) wc 1 (rowPixels wc (f (row + 1 + r)))) := by
          refine List.flatMap_congr fun r _ => ?_
          have e : row + (r + 1) = row + 1 + r := by omega
          have : row + 1 + r ≠ row := by omega
          simp only [e, this, if_false]
        rw [e2]
        cases n with
        | zero => rfl
        | succ n =>
          have : row + 1 + (n + 1) - 1 = row + (n + 1 + 1) - 1 := by omega
          simp only [this]; rfl
    · intro r c hc
      by_cases h : r = row
      · subst h; simp only [if_true]; exact hg c hc
      · simp only [h, if_false]; exact hfp r c hc

/-- BLIT on a free bus. -/
theorem blit_ready (x y w h src : Nat) {s : State} (hs : s.BusReady) :
    ∃ (f : Nat → Nat → Half) (fc : Nat),
      blit x y w h src s = .done ((s.sent (rowFrames x y w h f)).withRegs (rowsWork x y w h s.work) s.line fc) ∧
      ∀ r c, src + r * w + c < Config.spaceSize → f r c = s.pixAt (src + r * w + c) := by
  unfold blit rowFrames rowsWork
  cases hk : clip x y w h with
  | none => exact ⟨fun r c => s.pixAt (src + r * w + c), s.freeCtr, by simp, fun _ _ _ => rfl⟩
  | some p =>
    obtain ⟨wc, hc⟩ := p
    have hb := clip_eq_some hk
    have h0 : ¬ hc = 0 := by omega
    obtain ⟨f, fc, he, hf⟩ := blitRows_ready x y w wc src hc 0 (s := s.setClip wc hc) (by exact hs) hb.1
    refine ⟨f, fc, he.trans ?_, hf⟩
    simp only [h0, if_false, Nat.zero_add]
    rfl

-- MONOBLIT

/-- The bit test is the bit `row % 8` (42_raster.md R199). -/
theorem monoColor_eq (b : Byte) (row : Nat) (fg bg : Half) :
    monoColor b row fg bg = if b.getLsbD (row % 8) then fg else bg := by
  have : ∀ (b : Byte) (k : Fin 8), (b &&& (1#8 <<< k.val) ≠ 0#8) ↔ b.getLsbD k.val = true := by decide +kernel
  have h := this b ⟨row % 8, Nat.mod_lt _ (by decide)⟩
  simp only [monoColor]
  by_cases hb : b.getLsbD (row % 8) = true
  · rw [if_pos (h.2 hb), if_pos hb]
  · rw [if_neg (fun h' => hb (h.1 h')), if_neg hb]

/-- The bitmap byte that a read answers, where the spec gives one. -/
def State.bitmapAt (s : State) (source : BitmapSource) (i : Int) : Option Byte :=
  match source with
  | .host => if i.toNat < Config.spaceSize then some (s.bitsAt i.toNat) else none
  | .rom => if 0 ≤ i ∧ i < (Config.glyphBytes * s.glyphCount : Nat) then some (s.romAt i.toNat) else none

theorem readBitmap_spec (source : BitmapSource) (i : Int) (s : State) :
    ∃ (v : Byte) (fc : Nat), readBitmap source i s = (v, s.withRegs s.work s.line fc) ∧ ∀ b, s.bitmapAt source i = some b → v = b := by
  cases source with
  | host =>
    by_cases h : i.toNat < Config.spaceSize
    · exact ⟨_, s.freeCtr, by simp only [readBitmap, readBits, h, if_true]; rfl, by simp [State.bitmapAt, h]⟩
    · exact ⟨_, s.freeCtr + 1, by simp only [readBitmap, readBits, h, if_false]; rfl, by simp [State.bitmapAt, h]⟩
  | rom =>
    by_cases h : 0 ≤ i ∧ i < (Config.glyphBytes * s.glyphCount : Nat)
    · exact ⟨_, s.freeCtr, by simp only [readBitmap, readRom, if_pos h]; rfl, by simp only [State.bitmapAt, if_pos h]; simp⟩
    · exact ⟨_, s.freeCtr + 1, by simp only [readBitmap, readRom, if_neg h]; rfl, by simp only [State.bitmapAt, if_neg h]; simp⟩

/-- The pixel of a row and a column is one of the two colours, and the bitmap's bit chooses where the spec gives the byte
(42_raster.md R199). -/
def MonoPixels (s : State) (source : BitmapSource) (base : Int) (w : Nat) (fg bg : Half) (f : Nat → Nat → Half) : Prop :=
  ∀ r c, (f r c = fg ∨ f r c = bg) ∧
    ∀ b, s.bitmapAt source (base + ((r / 8 * w + c : Nat) : Int)) = some b → f r c = if b.getLsbD (r % 8) then fg else bg

theorem monoPixels_exists (s : State) (source : BitmapSource) (base : Int) (w : Nat) (fg bg : Half) :
    ∃ f, MonoPixels s source base w fg bg f := by
  refine ⟨fun r c => if ((s.bitmapAt source (base + ((r / 8 * w + c : Nat) : Int))).getD 0).getLsbD (r % 8) then fg else bg,
    fun r c => ⟨?_, fun b hb => by simp only [hb]; rfl⟩⟩
  dsimp only
  split <;> simp

/-- One row expanded into the scratch line. -/
theorem expandRow_spec (source : BitmapSource) (base : Int) (w row : Nat) (fg bg : Half) (n col : Nat) (s : State) :
    ∃ (g : Nat → Half) (fc : Nat),
      expandRow source base w row fg bg n col s =
        s.withRegs { s.work with col := if n = 0 then s.work.col else BitVec.ofNat 8 (col + n - 1) }
          (Vector.ofFn fun i : Fin 160 => if col ≤ i.val ∧ i.val < col + n then g i.val else s.line[i]) fc ∧
      ∀ c, (g c = fg ∨ g c = bg) ∧
        ∀ b, s.bitmapAt source (base + ((row / 8 * w + c : Nat) : Int)) = some b → g c = if b.getLsbD (row % 8) then fg else bg := by
  induction n generalizing col s with
  | zero =>
    obtain ⟨f, hf⟩ := monoPixels_exists s source base w fg bg
    refine ⟨f row, s.freeCtr, ?_, hf row⟩
    have : (Vector.ofFn fun i : Fin 160 => if col ≤ i.val ∧ i.val < col + 0 then f row i.val else s.line[i]) = s.line := by
      refine Vector.ext fun i hi => ?_
      simp only [Vector.getElem_ofFn, Fin.getElem_fin]
      rw [if_neg (by omega)]
    rw [this]
    rfl
  | succ n ih =>
    obtain ⟨v, fc0, hv, hb⟩ := readBitmap_spec source (base + ((row / 8 * w + col : Nat) : Int)) (s.setCol col)
    obtain ⟨g, fc, he, hg⟩ := ih (col + 1) (s.withRegs { s.work with col := BitVec.ofNat 8 col }
      (s.line.setIfInBounds col (monoColor v row fg bg)) fc0)
    refine ⟨fun c => if c = col then monoColor v row fg bg else g c, fc, ?_, fun c => ?_⟩
    · simp only [expandRow, hv]
      refine Eq.trans ?_ (he.trans ?_)
      · rfl
      · have hl : (Vector.ofFn fun i : Fin 160 => if col + 1 ≤ i.val ∧ i.val < col + 1 + n then g i.val else
              (s.line.setIfInBounds col (monoColor v row fg bg))[i]) =
            Vector.ofFn fun i : Fin 160 => if col ≤ i.val ∧ i.val < col + (n + 1) then
              (if i.val = col then monoColor v row fg bg else g i.val) else s.line[i] := by
          refine Vector.ext fun i hi => ?_
          simp only [Vector.getElem_ofFn, Fin.getElem_fin, Vector.getElem_setIfInBounds]
          by_cases h1 : i = col
          · subst h1
            have a1 : ¬ (i + 1 ≤ i ∧ i < i + 1 + n) := by omega
            have a2 : i ≤ i ∧ i < i + (n + 1) := by omega
            simp [a2]
          · have a3 : (col + 1 ≤ i ∧ i < col + 1 + n) ↔ (col ≤ i ∧ i < col + (n + 1)) := by omega
            simp only [a3, h1, Ne.symm h1, if_false]
        cases n with
        | zero => simp only [State.withRegs] at hl ⊢; simp only [hl]; simp
        | succ n =>
          have : col + 1 + (n + 1) - 1 = col + (n + 1 + 1) - 1 := by omega
          simp only [State.withRegs] at hl ⊢; simp only [hl, this]; simp
    · by_cases h : c = col
      · subst h
        simp only [if_true, monoColor_eq]
        exact ⟨by split <;> simp, fun b hb' => by rw [hb b hb']⟩
      · simp only [h, if_false]
        exact hg c

theorem lineTake_lineAfter (n : Nat) (g : Nat → Half) (line : Vector Half 160) (hn : n ≤ 160) :
    (lineAfter n g line).toList.take n = rowPixels n g := by
  apply List.ext_getElem
  · simp [rowPixels, hn]
  · intro i h1 h2
    have hi : i < n := by simp [rowPixels] at h2; exact h2
    simp [lineAfter, rowPixels, hi]

theorem lineAfter_lineAfter (n : Nat) (g g' : Nat → Half) (line : Vector Half 160) :
    lineAfter n g (lineAfter n g' line) = lineAfter n g line := by
  refine Vector.ext fun i hi => ?_
  simp only [lineAfter, Vector.getElem_ofFn, Fin.getElem_fin]
  split <;> rfl

/-- The rows of MONOBLIT on a free bus. -/
theorem monoRows_ready (source : BitmapSource) (base : Int) (x y w wc : Nat) (fg bg : Half) (n row : Nat) {s : State}
    (hs : s.BusReady) (hw : 1 ≤ wc) (hw' : wc ≤ 160) :
    ∃ (f : Nat → Nat → Half) (fc : Nat),
      monoRows source base x y w wc fg bg n row s =
        .done ((s.sent ((List.range n).flatMap fun r =>
            windowedWrite x (y + (row + r)) wc 1 (rowPixels wc (f (row + r))))).withRegs
          (if n = 0 then s.work else { s.work with row := BitVec.ofNat 8 (row + n - 1), col := BitVec.ofNat 8 (wc - 1) })
          (if n = 0 then s.line else lineAfter wc (f (row + n - 1)) s.line) fc) ∧
      MonoPixels s source base w fg bg f := by
  induction n generalizing row s with
  | zero =>
    obtain ⟨f, hf⟩ := monoPixels_exists s source base w fg bg
    exact ⟨f, s.freeCtr, by simp [monoRows], hf⟩
  | succ n ih =>
    have h0 : ¬ wc = 0 := by omega
    obtain ⟨g, fc0, hx, hg⟩ := expandRow_spec source base w row fg bg wc 0 (s.setRow row)
    obtain ⟨f, fc, he, hf⟩ := ih (row + 1)
      (s := (s.sent (windowedWrite x (y + row) wc 1 (rowPixels wc g))).withRegs
        { s.work with row := BitVec.ofNat 8 row, col := BitVec.ofNat 8 (wc - 1) } (lineAfter wc g s.line) fc0) (by exact hs)
    refine ⟨fun r => if r = row then g else f r, fc, ?_, ?_⟩
    · have hx' : expandRow source base w row fg bg wc 0 (s.setRow row) =
          s.withRegs { s.work with row := BitVec.ofNat 8 row, col := BitVec.ofNat 8 (wc - 1) } (lineAfter wc g s.line) fc0 := by
        rw [hx]; simp only [h0, if_false, Nat.zero_add, Nat.zero_le, true_and]; rfl
      rw [monoRows, hx', select_ready _ _ _ _ (by exact hs) (Nat.le_refl 1)]
      simp only [Res.andThen, sendData16]
      rw [txn_ready _ _ (by exact hs)]
      refine (congrArg (monoRows source base x y w wc fg bg n (row + 1)) ?_).trans (he.trans (congrArg Res.done ?_))
      · have hl := lineTake_lineAfter wc g s.line hw'
        simp only [State.lineTake, State.sent_fields, State.withRegs] at hl ⊢
        rw [hl, ← windowedWrite_sent]; rfl
      · rw [flatMap_range_succ, State.sent_append]
        simp only [Nat.add_zero, if_true]
        have e2 : (List.range n).flatMap (fun r => windowedWrite x (y + (row + (r + 1))) wc 1
              (rowPixels wc (if row + (r + 1) = row then g else f (row + (r + 1))))) =
            (List.range n).flatMap (fun r => windowedWrite x (y + (row + 1 + r)) wc 1 (rowPixels wc (f (row + 1 + r)))) := by
          refine List.flatMap_congr fun r _ => ?_
          have e : row + (r + 1) = row + 1 + r := by omega
          have : row + 1 + r ≠ row := by omega
          simp only [e, this, if_false]
        rw [e2]
        cases n with
        | zero => simp; rfl
        | succ n =>
          have : row + 1 + (n + 1) - 1 = row + (n + 1 + 1) - 1 := by omega
          have h2 : row + (n + 1 + 1) - 1 ≠ row := by omega
          have h3 : n + 1 + 1 ≠ 0 := by omega
          simp only [this, h2, h3, if_false, Nat.add_eq_zero_iff, one_ne_zero, and_false]
          simp only [State.withRegs, State.sent_fields, lineAfter_lineAfter]
          rfl
    · intro r c
      by_cases h : r = row
      · subst h; simp only [if_true]; exact hg c
      · simp only [h, if_false]; exact hf r c

/-- MONOBLIT on a free bus. -/
theorem monoBlit_ready (source : BitmapSource) (base : Int) (x y w h : Nat) (fg bg : Half) {s : State} (hs : s.BusReady) :
    ∃ (f : Nat → Nat → Half) (fc : Nat),
      monoBlit source base x y w h fg bg s =
        .done ((s.sent (rowFrames x y w h f)).withRegs (rowsWork x y w h s.work) (monoLine x y w h f s.line) fc) ∧
      MonoPixels s source base w fg bg f := by
  unfold monoBlit rowFrames rowsWork monoLine
  cases hk : clip x y w h with
  | none =>
    obtain ⟨f, hf⟩ := monoPixels_exists s source base w fg bg
    exact ⟨f, s.freeCtr, by simp, hf⟩
  | some p =>
    obtain ⟨wc, hc⟩ := p
    have hb := clip_eq_some hk
    have h0 : ¬ hc = 0 := by omega
    obtain ⟨f, fc, he, hf⟩ := monoRows_ready source base x y w wc fg bg hc 0 (s := s.setClip wc hc) (by exact hs) hb.1 (by omega)
    refine ⟨f, fc, he.trans ?_, hf⟩
    simp only [h0, if_false, Nat.zero_add]
    rfl

end Sys2Proof.Machine
end

