-- ==== Sys2Proof/Laws/Lifecycle.lean ====
section
/-! SUPPORT. The laws of the lifecycle operations on a free bus. -/
namespace Sys2Proof.Machine

/-- The state after the first action of RESET. -/
def State.afterResetAction (s : State) : State :=
  if s.hasRst then s.rstPulse else (s.sent [(0x01#8, [])]).delay 120

/-- The state after RESET. -/
def State.afterReset (s : State) : State :=
  State.setPstate .awake
    ((((((s.setPstate .uninit).afterResetAction).sent [(0x11#8, [])]).delay 120).sent resetFrames).withRegs
      (resetWork s.work) s.line s.freeCtr)

theorem resetAction_ready {s : State} (hs : s.BusReady) : resetAction s = .done s.afterResetAction := by
  unfold resetAction State.afterResetAction
  split
  · rfl
  · rw [sendCmd0, txn_ready _ _ hs]; rfl

theorem afterResetAction_busReady {s : State} (hs : s.BusReady) : s.afterResetAction.BusReady := by
  unfold State.afterResetAction
  split <;> exact hs

theorem afterResetAction_work (s : State) :
    s.afterResetAction.work = s.work ∧ s.afterResetAction.line = s.line ∧ s.afterResetAction.freeCtr = s.freeCtr := by
  unfold State.afterResetAction
  split <;> exact ⟨rfl, rfl, rfl⟩

/-- FILL of the whole panel. -/
theorem fill_panel {s : State} (hs : s.BusReady) :
    fill 0 0 Config.panelW Config.panelH Config.black (s.subFill 0 0 Config.panelW Config.panelH Config.black 3#2) =
      .done ((s.sent (windowedWrite 0 0 160 80 (List.replicate 12800 0x0000#16))).withRegs (resetWork s.work) s.line s.freeCtr) := by
  have hc : clip 0 0 160 80 = some (160, 80) := rfl
  have hf : fillFrames 0 0 160 80 Config.black = windowedWrite 0 0 160 80 (List.replicate 12800 0x0000#16) := by
    simp only [fillFrames, hc, Config.black]
  have hk : ∀ k, fillWork 0 0 160 80 k = { k with wc := 160#8, hc := 80#8, cnt := 0 } := fun k => by
    simp only [fillWork, hc]
  rw [fill_ready _ _ _ _ _ (by exact hs)]
  simp only [Config.panelW, Config.panelH, hf, hk]
  generalize windowedWrite 0 0 160 80 (List.replicate 12800 0x0000#16) = fs
  rfl

/-- RESET on a free bus. -/
theorem panelReset_ready {s : State} (hs : s.BusReady) : panelReset s = .done s.afterReset := by
  have e : resetAction (s.setPstate .uninit) = .done (s.setPstate .uninit).afterResetAction := resetAction_ready (by exact hs)
  have h1 : (s.setPstate .uninit).afterResetAction.BusReady := afterResetAction_busReady (by exact hs)
  have hw := afterResetAction_work (s.setPstate .uninit)
  simp only [panelReset, State.afterReset, e]
  generalize (s.setPstate .uninit).afterResetAction = a at h1 hw
  rw [Res.andThen_done, sendCmd0_ready _ h1, Res.map_done, Res.andThen_done, sendCmd1_ready _ _ (by exact h1), Res.andThen_done,
    sendCmd1_ready _ _ (by exact h1), Res.andThen_done, sendCmd0_ready _ (by exact h1), Res.andThen_done, fill_panel (by exact h1),
    Res.andThen_done, sendCmd0_ready _ (by exact h1), Res.map_done]
  congr 2
  rw [resetFrames, State.sent_append, State.sent_append]
  generalize windowedWrite 0 0 160 80 (List.replicate 12800 0x0000#16) = fs
  have hw1 : a.work = s.work := hw.1
  have hw2 : a.line = s.line := hw.2.1
  have hw3 : a.freeCtr = s.freeCtr := hw.2.2
  rw [← hw1, ← hw2, ← hw3, State.sent_cons (0x36#8, [0x68#8]) [(0x3A#8, [0x05#8]), (0x13#8, [])],
    State.sent_cons (0x3A#8, [0x05#8]) [(0x13#8, [])]]
  rfl

/-- BEGIN when the arbiter grants (44_lifecycle.md R243). -/
theorem beginAll_ready {s : State} (h1 : s.lock = false) (h2 : s.grants = none) :
    beginAll s = .done { s.pinCfg.busInit with begun := true }.afterReset :=
  panelReset_ready ⟨rfl, h1, h2⟩

/-- POWER on (44_lifecycle.md R246). -/
theorem power_on_ready {s : State} (hs : s.BusReady) :
    power true s = .done ((((s.sent [(0x11#8, [])]).delay 120).sent [(0x29#8, [])]).setPstate .awake) := by
  rw [power, if_pos rfl, sendCmd0_ready _ hs, Res.map_done, Res.andThen_done, sendCmd0_ready _ (by exact hs), Res.map_done]
  rfl

/-- POWER off (44_lifecycle.md R246). -/
theorem power_off_ready {s : State} (hs : s.BusReady) :
    power false s = .done (((s.sent [(0x28#8, []), (0x10#8, [])]).delay 120).setPstate .sleeping) := by
  rw [power, if_neg (by decide), sendCmd0_ready _ hs, Res.andThen_done, sendCmd0_ready _ (by exact hs), Res.map_done,
    ← State.sent_append]
  rfl

/-- FLIP (44_lifecycle.md R247). -/
theorem flip_ready (on : Bool) {s : State} (hs : s.BusReady) :
    flip on s = .done (s.sent [(0x36#8, [if on then 0xA8#8 else 0x68#8])]) := by
  cases on <;> exact txn_ready _ _ hs

/-- INVERSE (44_lifecycle.md R248). -/
theorem inverse_ready (on : Bool) {s : State} (hs : s.BusReady) :
    inverse on s = .done (s.sent [(if on then 0x21#8 else 0x20#8, [])]) := by
  cases on <;> exact txn_ready _ _ hs

end Sys2Proof.Machine
end

