-- ==== Sys2Proof/Laws/Encoding.lean ====
section
/-! SUPPORT. The laws of the encodings: each field of the packed word is read back, and each word of a pixel stream. -/
namespace Sys2Proof

@[simp] theorem halfOf_hi8_lo8 (v : Half) : halfOf (hi8 v) (lo8 v) = v := by
  unfold halfOf hi8 lo8
  ext i hi
  simp only [BitVec.getElem_append, BitVec.getElem_extractLsb']
  split
  · rw [← BitVec.getLsbD_eq_getElem]; simp
  · rename_i h; rw [← BitVec.getLsbD_eq_getElem]; congr 1; omega

@[simp] theorem hi8_halfOf (a b : Byte) : hi8 (halfOf a b) = a := by
  unfold halfOf hi8
  ext i hi
  simp only [BitVec.getElem_extractLsb', BitVec.getLsbD_append]
  rw [← BitVec.getLsbD_eq_getElem]
  simp

@[simp] theorem lo8_halfOf (a b : Byte) : lo8 (halfOf a b) = b := by
  unfold halfOf lo8
  ext i hi
  simp only [BitVec.getElem_extractLsb', BitVec.getLsbD_append]
  rw [← BitVec.getLsbD_eq_getElem]
  simp [hi]

@[simp] theorem pixelBytes_nil : pixelBytes [] = [] := rfl

@[simp] theorem pixelBytes_cons (v : Half) (vs : List Half) : pixelBytes (v :: vs) = hi8 v :: lo8 v :: pixelBytes vs := rfl

@[simp] theorem pixelBytes_length (vs : List Half) : (pixelBytes vs).length = 2 * vs.length := by
  induction vs with
  | nil => rfl
  | cons v vs ih => simp [ih]; omega

/-- The words of a stream are read back from its bytes. -/
@[simp] theorem halvesOf_pixelBytes (vs : List Half) : halvesOf (pixelBytes vs) = some vs := by
  induction vs with
  | nil => rfl
  | cons v vs ih => simp [halvesOf, ih]

theorem extractLsb_append_low {m n : Nat} (a : BitVec m) (b : BitVec n) (start len : Nat) (h : start + len ≤ n) :
    (a ++ b).extractLsb' start len = b.extractLsb' start len := by
  ext i hi
  have : start + i < n := by omega
  simp [BitVec.getLsbD_append, this]

theorem extractLsb_append_high {m n : Nat} (a : BitVec m) (b : BitVec n) (start len : Nat) (h : n ≤ start) :
    (a ++ b).extractLsb' start len = a.extractLsb' (start - n) len := by
  ext i hi
  have : ¬ start + i < n := by omega
  simp only [BitVec.getElem_extractLsb', BitVec.getLsbD_append, this, if_false]
  congr 1
  omega

theorem getLsb_append_high {m n : Nat} (a : BitVec m) (b : BitVec n) (i : Nat) (h : n ≤ i) :
    (a ++ b).getLsbD i = a.getLsbD (i - n) := by
  have : ¬ i < n := by omega
  simp [BitVec.getLsbD_append, this]

/-- Every field of the packed request word is read back. -/
theorem unpack_pack (o : Operands) : unpack (pack o) = o := by
  obtain ⟨op, on, ch, x, y, wd, ht, c0, c1, src, len, r8, g8, b8⟩ := o
  simp only [unpack, pack, Operands.mk.injEq]
  refine ⟨?_, ?_, ?_, ?_, ?_, ?_, ?_, ?_, ?_, ?_, ?_, ?_, ?_, ?_⟩
  case refine_2 =>
    iterate 12 refine (getLsb_append_high _ _ _ (by omega)).trans ?_
    exact BitVec.getLsbD_append.trans (by simp)
  all_goals
    repeat refine (extractLsb_append_high _ _ _ _ (by omega)).trans ?_
    try refine (extractLsb_append_low _ _ _ _ (by omega)).trans ?_
    exact BitVec.extractLsb'_eq_self

end Sys2Proof
end

