-- ==== Sys2Proof/Laws/Memory.lean ====
section
/-! SUPPORT. The laws of the sparse spaces: read after write, and the canonical form is kept. -/
namespace Sys2Proof.Machine

variable {w : Nat}

@[simp] theorem Memory.get_nil (a : Nat) : Memory.get ([] : Memory w) a = none := rfl

theorem Memory.get_put_same (m : Memory w) (a : Nat) (v : BitVec w) : (m.put a v).get a = some v := by
  induction m with
  | nil => simp [Memory.put, Memory.get]
  | cons c m ih =>
    obtain ⟨b, u⟩ := c
    by_cases h1 : a < b
    · simp [Memory.put, Memory.get, h1]
    · by_cases h2 : a = b
      · simp [Memory.put, Memory.get, h2]
      · simp [Memory.put, Memory.get, h1, h2, Ne.symm h2, ih]

theorem Memory.get_put_other (m : Memory w) {a b : Nat} (v : BitVec w) (h : b ≠ a) : (m.put a v).get b = m.get b := by
  induction m with
  | nil => simp [Memory.put, Memory.get, Ne.symm h]
  | cons c m ih =>
    obtain ⟨d, u⟩ := c
    by_cases h1 : a < d
    · simp [Memory.put, Memory.get, h1, Ne.symm h]
    · by_cases h2 : a = d
      · subst h2; simp [Memory.put, Memory.get, Ne.symm h]
      · simp [Memory.put, Memory.get, h1, h2, ih]

/-- Reading after a write, in one equation. -/
theorem Memory.get_put (m : Memory w) (a b : Nat) (v : BitVec w) :
    (m.put a v).get b = if b = a then some v else m.get b := by
  by_cases h : b = a
  · subst h; simp [Memory.get_put_same]
  · simp [h, Memory.get_put_other m v h]

theorem Memory.risesFrom_put (m : Memory w) {l a : Nat} (v : BitVec w) (h : Memory.risesFrom l m = true) (hl : l < a) :
    Memory.risesFrom l (m.put a v) = true := by
  induction m generalizing l with
  | nil => simp [Memory.put, Memory.risesFrom, hl]
  | cons c m ih =>
    obtain ⟨b, u⟩ := c
    simp only [Memory.risesFrom, Bool.and_eq_true, decide_eq_true_eq] at h
    by_cases h1 : a < b
    · simp [Memory.put, Memory.risesFrom, h1, hl, h.2]
    · by_cases h2 : a = b
      · subst h2; simp [Memory.put, Memory.risesFrom, hl, h.2]
      · have : b < a := by omega
        simp [Memory.put, Memory.risesFrom, h1, h2, h.1, ih h.2 this]

theorem Memory.risesFrom_wf {m : Memory w} {l : Nat} (h : Memory.risesFrom l m = true) : m.wf = true := by
  cases m with
  | nil => rfl
  | cons c m => simp only [Memory.risesFrom, Bool.and_eq_true] at h; exact h.2

/-- Every write keeps the canonical form. -/
theorem Memory.put_wf (m : Memory w) (a : Nat) (v : BitVec w) (h : m.wf = true) : (m.put a v).wf = true := by
  cases m with
  | nil => rfl
  | cons c m =>
    obtain ⟨b, u⟩ := c
    simp only [Memory.wf] at h
    by_cases h1 : a < b
    · simp [Memory.put, Memory.wf, Memory.risesFrom, h1, h]
    · by_cases h2 : a = b
      · subst h2; simp [Memory.put, Memory.wf, h]
      · have : b < a := by omega
        simp [Memory.put, Memory.wf, h1, h2, Memory.risesFrom_put m v h this]

theorem Memory.get_of_risesFrom {m : Memory w} {l a : Nat} (h : Memory.risesFrom l m = true) (ha : a ≤ l) :
    m.get a = none := by
  induction m generalizing l with
  | nil => rfl
  | cons c m ih =>
    obtain ⟨b, u⟩ := c
    simp only [Memory.risesFrom, Bool.and_eq_true, decide_eq_true_eq] at h
    have : ¬ b = a := by omega
    simp [Memory.get, this, ih h.2 (by omega)]

/-- In canonical form equal contents are equal data. -/
theorem Memory.ext_of_get {m n : Memory w} (hm : m.wf = true) (hn : n.wf = true) (h : ∀ a, m.get a = n.get a) : m = n := by
  induction m generalizing n with
  | nil =>
    cases n with
    | nil => rfl
    | cons c n => have := h c.1; simp [Memory.get] at this
  | cons c m ih =>
    obtain ⟨b, u⟩ := c
    cases n with
    | nil => have := h b; simp [Memory.get] at this
    | cons d n =>
      obtain ⟨e, v⟩ := d
      simp only [Memory.wf] at hm hn
      have hbe : b = e := by
        by_contra hne
        rcases Nat.lt_or_gt_of_ne hne with hlt | hlt
        · have := h b
          simp [Memory.get, Ne.symm hne, Memory.get_of_risesFrom hn (Nat.le_of_lt hlt)] at this
        · have := h e
          simp [Memory.get, hne, Memory.get_of_risesFrom hm (Nat.le_of_lt hlt)] at this
      subst hbe
      have huv : u = v := by have := h b; simpa [Memory.get] using this
      subst huv
      congr 1
      refine ih (Memory.risesFrom_wf hm) (Memory.risesFrom_wf hn) fun a => ?_
      by_cases ha : b = a
      · subst ha; rw [Memory.get_of_risesFrom hm (Nat.le_refl _), Memory.get_of_risesFrom hn (Nat.le_refl _)]
      · have := h a; simpa [Memory.get, ha] using this

/-- The spaces of the reset state are in canonical form. -/
theorem State.reset_memories_wf :
    State.reset.sink.panel.wf = true ∧ State.reset.pix.wf = true ∧ Memory.wf State.reset.bits = true ∧
      Memory.wf State.reset.text = true ∧ Memory.wf State.reset.rom = true := by decide

end Sys2Proof.Machine
end

