-- ==== Sys2Proof/Laws/Sink.lean ====
section
/-! SUPPORT. The laws of the panel sink: what each frame leaves, and that a window followed by as many pixels as it holds fills
exactly the window (20_memory.md R95). -/
namespace Sys2Proof.Machine

/-- The end of a frame when nothing is outstanding. -/
theorem Sink.endFrame_settled {k : Sink} (h : k.frameComplete = true) : k.endFrame = { k with expect := .nothing } := by
  unfold Sink.frameComplete at h
  unfold Sink.endFrame
  split at h
  · rename_i he; simp only [he]; rw [← he]
  · rename_i he; simp only [he]
  · rename_i he; simp only [he, h, if_true]
  all_goals cases h

theorem Sink.endFrame_nothing {k : Sink} (h : k.expect = .nothing) : k.endFrame = k := by
  simp [Sink.endFrame, h]

/-- A command byte when nothing is outstanding. -/
theorem Sink.command_settled {k : Sink} (c : Byte) (h : k.frameComplete = true) :
    k.command c = ({ k with expect := .nothing } : Sink).decodeCommand c := by
  rw [Sink.command, Sink.endFrame_settled h]

-- What each command byte leaves (20_memory.md R89, R91, R93).

theorem Sink.decodeCommand_01 (k : Sink) : k.decodeCommand 0x01#8 = ({ k with writing := false, expect := .nothing } : Sink).loseAll := rfl

theorem Sink.decodeCommand_10 (k : Sink) : k.decodeCommand 0x10#8 = { k with writing := false, expect := .nothing, sleep := true } := rfl

theorem Sink.decodeCommand_11 (k : Sink) : k.decodeCommand 0x11#8 = { k with writing := false, expect := .nothing, sleep := false } := rfl

theorem Sink.decodeCommand_13 (k : Sink) : k.decodeCommand 0x13#8 = { k with writing := false, expect := .nothing, normal := true } := rfl

theorem Sink.decodeCommand_20 (k : Sink) : k.decodeCommand 0x20#8 = { k with writing := false, expect := .nothing, inv := false } := rfl

theorem Sink.decodeCommand_21 (k : Sink) : k.decodeCommand 0x21#8 = { k with writing := false, expect := .nothing, inv := true } := rfl

theorem Sink.decodeCommand_28 (k : Sink) : k.decodeCommand 0x28#8 = { k with writing := false, expect := .nothing, dispOn := false } := rfl

theorem Sink.decodeCommand_29 (k : Sink) : k.decodeCommand 0x29#8 = { k with writing := false, expect := .nothing, dispOn := true } := rfl

theorem Sink.decodeCommand_36 (k : Sink) : k.decodeCommand 0x36#8 = { k with writing := false, expect := .orient } := rfl

theorem Sink.decodeCommand_3A (k : Sink) : k.decodeCommand 0x3A#8 = { k with writing := false, expect := .colMode } := rfl

theorem Sink.decodeCommand_2A (k : Sink) : k.decodeCommand 0x2A#8 = { k with writing := false, expect := .columns [] } := rfl

theorem Sink.decodeCommand_2B (k : Sink) : k.decodeCommand 0x2B#8 = { k with writing := false, expect := .rows [] } := rfl

theorem Sink.decodeCommand_2C (k : Sink) : k.decodeCommand 0x2C#8 = { k with writing := true, expect := .pixelHi, ptrCol := k.winXS.toNat, ptrRow := k.winYS.toNat } := rfl

theorem Sink.command_nothing {k : Sink} (c : Byte) (h : k.expect = .nothing) : k.command c = k.decodeCommand c := by
  rw [Sink.command, Sink.endFrame_nothing h]

/-- Four bytes of 0x2A. -/
theorem Sink.data_columns {k : Sink} (a b c d : Byte) (h : k.expect = .columns []) :
    [a, b, c, d].foldl Sink.data k = { k with winXS := halfOf a b, winXE := halfOf c d, expect := .nothing } := by
  simp [Sink.data, h]

/-- Four bytes of 0x2B. -/
theorem Sink.data_rows {k : Sink} (a b c d : Byte) (h : k.expect = .rows []) :
    [a, b, c, d].foldl Sink.data k = { k with winYS := halfOf a b, winYE := halfOf c d, expect := .nothing } := by
  simp [Sink.data, h]

/-- A frame after which nothing is outstanding: the end of the frame changes nothing. -/
theorem Sink.frame_of {k k' : Sink} {c : Byte} {payload : List Byte} (ended : Bool)
    (h : payload.foldl Sink.data (k.command c) = k') (h' : k'.expect = .nothing) : k.frame ended c payload = k' := by
  rw [Sink.frame, h, Sink.endFrame_nothing h']; simp

-- What each frame leaves in a sink that is not in the middle of one (20_memory.md R89, R90, R93).

theorem Sink.frame_softReset {k : Sink} (ended : Bool) (hk : k.frameComplete = true) :
    k.frame ended 0x01#8 [] = ({ k with writing := false, expect := .nothing } : Sink).loseAll :=
  Sink.frame_of ended (by rw [Sink.command_settled _ hk, Sink.decodeCommand_01, List.foldl_nil]) rfl

theorem Sink.frame_enterSleep {k : Sink} (ended : Bool) (hk : k.frameComplete = true) :
    k.frame ended 0x10#8 [] = { k with writing := false, expect := .nothing, sleep := true } :=
  Sink.frame_of ended (by rw [Sink.command_settled _ hk, Sink.decodeCommand_10, List.foldl_nil]) rfl

theorem Sink.frame_exitSleep {k : Sink} (ended : Bool) (hk : k.frameComplete = true) :
    k.frame ended 0x11#8 [] = { k with writing := false, expect := .nothing, sleep := false } :=
  Sink.frame_of ended (by rw [Sink.command_settled _ hk, Sink.decodeCommand_11, List.foldl_nil]) rfl

theorem Sink.frame_normalOn {k : Sink} (ended : Bool) (hk : k.frameComplete = true) :
    k.frame ended 0x13#8 [] = { k with writing := false, expect := .nothing, normal := true } :=
  Sink.frame_of ended (by rw [Sink.command_settled _ hk, Sink.decodeCommand_13, List.foldl_nil]) rfl

theorem Sink.frame_invertOff {k : Sink} (ended : Bool) (hk : k.frameComplete = true) :
    k.frame ended 0x20#8 [] = { k with writing := false, expect := .nothing, inv := false } :=
  Sink.frame_of ended (by rw [Sink.command_settled _ hk, Sink.decodeCommand_20, List.foldl_nil]) rfl

theorem Sink.frame_invertOn {k : Sink} (ended : Bool) (hk : k.frameComplete = true) :
    k.frame ended 0x21#8 [] = { k with writing := false, expect := .nothing, inv := true } :=
  Sink.frame_of ended (by rw [Sink.command_settled _ hk, Sink.decodeCommand_21, List.foldl_nil]) rfl

theorem Sink.frame_displayOff {k : Sink} (ended : Bool) (hk : k.frameComplete = true) :
    k.frame ended 0x28#8 [] = { k with writing := false, expect := .nothing, dispOn := false } :=
  Sink.frame_of ended (by rw [Sink.command_settled _ hk, Sink.decodeCommand_28, List.foldl_nil]) rfl

theorem Sink.frame_displayOn {k : Sink} (ended : Bool) (hk : k.frameComplete = true) :
    k.frame ended 0x29#8 [] = { k with writing := false, expect := .nothing, dispOn := true } :=
  Sink.frame_of ended (by rw [Sink.command_settled _ hk, Sink.decodeCommand_29, List.foldl_nil]) rfl

theorem Sink.frame_orient {k : Sink} (ended : Bool) (a : Byte) (hk : k.frameComplete = true) :
    k.frame ended 0x36#8 [a] = { k with writing := false, expect := .nothing, orient := a } :=
  Sink.frame_of ended (by rw [Sink.command_settled _ hk, Sink.decodeCommand_36, List.foldl_cons, List.foldl_nil]; rfl) rfl

theorem Sink.frame_colMode {k : Sink} (ended : Bool) (a : Byte) (hk : k.frameComplete = true) :
    k.frame ended 0x3A#8 [a] = { k with writing := false, expect := .nothing, colMode := a } :=
  Sink.frame_of ended (by rw [Sink.command_settled _ hk, Sink.decodeCommand_3A, List.foldl_cons, List.foldl_nil]; rfl) rfl

theorem Sink.frame_columns {k : Sink} (ended : Bool) (a b c d : Byte) (hk : k.frameComplete = true) :
    k.frame ended 0x2A#8 [a, b, c, d] =
      { k with writing := false, expect := .nothing, winXS := halfOf a b, winXE := halfOf c d } :=
  Sink.frame_of ended
    (by rw [Sink.command_settled _ hk, Sink.decodeCommand_2A, Sink.data_columns _ _ _ _ rfl]) rfl

theorem Sink.frame_rows {k : Sink} (ended : Bool) (a b c d : Byte) (hk : k.frameComplete = true) :
    k.frame ended 0x2B#8 [a, b, c, d] =
      { k with writing := false, expect := .nothing, winYS := halfOf a b, winYE := halfOf c d } :=
  Sink.frame_of ended
    (by rw [Sink.command_settled _ hk, Sink.decodeCommand_2B, Sink.data_rows _ _ _ _ rfl]) rfl

theorem Sink.frames_nil (k : Sink) (ended : Bool) : k.frames ended [] = k := rfl

theorem Sink.frames_cons (k : Sink) (ended : Bool) (c : Byte) (payload : List Byte) (fs : List Frame) :
    k.frames ended ((c, payload) :: fs) = (k.frame ended c payload).frames ended fs := rfl

theorem Sink.frames_append (k : Sink) (ended : Bool) (fs gs : List Frame) :
    k.frames ended (fs ++ gs) = (k.frames ended fs).frames ended gs := List.foldl_append

/-- A window set by its two frames. -/
def Sink.setWindow (x y w h : Nat) (k : Sink) : Sink :=
  { k with
    winXS := halfOf 0x00#8 (BitVec.ofNat 8 x), winXE := halfOf 0x00#8 (BitVec.ofNat 8 (x + w - 1)),
    winYS := halfOf 0x00#8 (BitVec.ofNat 8 (y + 24)), winYE := halfOf 0x00#8 (BitVec.ofNat 8 (y + h + 23)),
    writing := false, expect := .nothing }

theorem Sink.frames_window (k : Sink) (ended : Bool) (x y w h : Nat) (hk : k.frameComplete = true) :
    k.frames ended (windowFrames x y w h) = k.setWindow x y w h := by
  rw [windowFrames, Sink.frames_cons, Sink.frame_columns ended _ _ _ _ hk, Sink.frames_cons,
    Sink.frame_rows ended _ _ _ _ rfl, Sink.frames_nil]
  rfl

theorem halfOf_zero_toNat (n : Nat) (h : n < 256) : (halfOf 0x00#8 (BitVec.ofNat 8 n)).toNat = n := by
  unfold halfOf
  rw [BitVec.toNat_append, BitVec.toNat_ofNat, BitVec.toNat_ofNat, Nat.mod_eq_of_lt (a := n) (by omega)]
  simp

theorem panelAddr_inj {c r c' r' : Nat} (h : c < 65536) (h' : c' < 65536) :
    panelAddr c r = panelAddr c' r' ↔ c = c' ∧ r = r' := by
  unfold panelAddr; omega

/-- The window's registers, as numbers. -/
structure Sink.Window (k : Sink) (xs ys w h : Nat) : Prop where
  left : k.winXS.toNat = xs
  right : k.winXE.toNat = xs + w - 1
  top : k.winYS.toNat = ys
  bottom : k.winYE.toNat = ys + h - 1
  wpos : 1 ≤ w
  hpos : 1 ≤ h
  wmax : xs + w ≤ 160
  hmax : ys + h ≤ 104
  mode : k.colMode = 0x05#8

/-- The sink between two pixels of a stream. -/
def Sink.streaming (panel : Memory 16) (col row : Nat) (k : Sink) : Sink :=
  { k with panel := panel, expect := .pixelHi, ptrCol := col, ptrRow := row }

theorem Sink.Window.streaming {k : Sink} {xs ys w h : Nat} (hw : k.Window xs ys w h) (m : Memory 16) (c r : Nat) :
    (k.streaming m c r).Window xs ys w h := ⟨hw.1, hw.2, hw.3, hw.4, hw.5, hw.6, hw.7, hw.8, hw.9⟩

/-- The native memory is one rectangle, of at least 160 by 104 pixels (00_scope.md R10). -/
theorem nativePixel_iff (col row : Nat) :
    nativePixel col row = true ↔ col < max 160 Config.nativeCols ∧ row < max 104 Config.nativeRows := by
  simp [nativePixel]

/-- One pixel in the window. -/
theorem Sink.writePixel_window {k : Sink} {xs ys w h n : Nat} (hw : k.Window xs ys w h) (hc : k.ptrCol = xs + n % w)
    (hr : k.ptrRow = ys + n / w) (hn : n < w * h) (v : Half) :
    k.writePixel v = k.streaming (k.panel.put (panelAddr (xs + n % w) (ys + n / w)) v)
      (xs + (n + 1) % w) (ys + (n + 1) / w) := by
  have h1 : n % w < w := Nat.mod_lt _ hw.wpos
  have h2 : n / w < h := (Nat.div_lt_iff_lt_mul hw.wpos).2 (by rwa [Nat.mul_comm] at hn)
  have wm := hw.wmax; have hm := hw.hmax; have wp := hw.wpos; have hp := hw.hpos
  have hv : k.windowValid = true := by
    simp only [Sink.windowValid, hw.left, hw.right, hw.top, hw.bottom, Bool.and_eq_true, decide_eq_true_eq]; omega
  have hnat : nativePixel (xs + n % w) (ys + n / w) = true := by
    have a1 : xs + n % w < 160 := by omega
    have a2 : ys + n / w < 104 := by omega
    simp [nativePixel, a1, a2]
  have hcond : k.colMode = Config.colMode16 ∧ k.windowValid = true ∧ k.ptrRow ≤ k.winYE.toNat ∧
      nativePixel k.ptrCol k.ptrRow = true := by
    refine ⟨hw.mode, hv, ?_, by rw [hc, hr]; exact hnat⟩
    rw [hr, hw.bottom]; omega
  have hd := Nat.div_add_mod n w
  unfold Sink.writePixel Sink.streaming
  rw [if_pos hcond]
  simp only [hc, hr, hw.right, hw.left]
  have key : (n + 1) % w = (if n % w + 1 = w then 0 else n % w + 1) ∧
      (n + 1) / w = (if n % w + 1 = w then n / w + 1 else n / w) := by
    by_cases he : n % w + 1 = w
    · have e1 : n + 1 = w * (n / w + 1) := by rw [Nat.mul_add]; omega
      simp only [he, if_true]
      rw [e1]
      exact ⟨Nat.mul_mod_right _ _, Nat.mul_div_cancel_left _ hw.wpos⟩
    · have e1 : n + 1 = (n % w + 1) + w * (n / w) := by omega
      simp only [he, if_false]
      rw [e1]
      refine ⟨?_, ?_⟩
      · rw [Nat.add_mul_mod_self_left, Nat.mod_eq_of_lt (by omega)]
      · rw [Nat.add_mul_div_left _ _ hw.wpos, Nat.div_eq_of_lt (by omega)]; simp
  rw [key.1, key.2]
  by_cases he : n % w + 1 = w
  · have : xs + n % w = xs + w - 1 := by omega
    simp only [this, he, if_true, Nat.add_zero, Nat.add_assoc]
  · have : ¬ xs + n % w = xs + w - 1 := by omega
    simp only [this, he, if_false, Nat.add_assoc]

/-- The pixels of a stream, from pixel `n` of the window on. -/
def Memory.putPixels (xs ys w : Nat) : (n : Nat) → List Half → Memory 16 → Memory 16
  | _, [], m => m
  | n, v :: vs, m => Memory.putPixels xs ys w (n + 1) vs (m.put (panelAddr (xs + n % w) (ys + n / w)) v)

theorem Memory.putPixels_wf (xs ys w n : Nat) (vs : List Half) (m : Memory 16) (h : m.wf = true) :
    (Memory.putPixels xs ys w n vs m).wf = true := by
  induction vs generalizing n m with
  | nil => exact h
  | cons v vs ih => exact ih _ _ (Memory.put_wf _ _ _ h)

theorem Memory.putPixels_get (xs ys w n : Nat) (vs : List Half) (m : Memory 16) (hw : 1 ≤ w) (hx : xs + w ≤ 65536)
    {col row : Nat} (hcol : col < 65536) :
    (Memory.putPixels xs ys w n vs m).get (panelAddr col row) =
      if xs ≤ col ∧ col < xs + w ∧ ys ≤ row ∧ n ≤ (row - ys) * w + (col - xs) ∧ (row - ys) * w + (col - xs) < n + vs.length
      then vs[(row - ys) * w + (col - xs) - n]? else m.get (panelAddr col row) := by
  induction vs generalizing n m with
  | nil =>
    rw [if_neg (by simp only [List.length_nil]; omega)]; rfl
  | cons v vs ih =>
    have h1 : n % w < w := Nat.mod_lt _ hw
    have hd := Nat.div_add_mod n w
    simp only [Memory.putPixels, ih, Memory.get_put, panelAddr_inj hcol (by omega : xs + n % w < 65536), List.length_cons]
    generalize hi : (row - ys) * w + (col - xs) = i
    by_cases hin : xs ≤ col ∧ col < xs + w ∧ ys ≤ row
    · have hiff : (col = xs + n % w ∧ row = ys + n / w) ↔ i = n := by
        constructor
        · rintro ⟨e1, e2⟩
          have a1 : col - xs = n % w := by omega
          have a2 : row - ys = n / w := by omega
          rw [← hi, a1, a2, Nat.mul_comm]; omega
        · intro h
          have hlt : col - xs < w := by omega
          have e1 : i % w = col - xs := by
            rw [← hi, Nat.mul_comm, Nat.mul_add_mod, Nat.mod_eq_of_lt hlt]
          have e2 : i / w = row - ys := by
            rw [← hi, Nat.mul_comm, Nat.mul_add_div hw, Nat.div_eq_of_lt hlt, Nat.add_zero]
          rw [h] at e1 e2
          omega
      simp only [hin, true_and, hiff]
      by_cases h2 : i = n
      · have a1 : ¬ (n + 1 ≤ i ∧ i < n + 1 + vs.length) := by omega
        have a2 : n ≤ i ∧ i < n + (vs.length + 1) := by omega
        rw [if_neg a1, if_pos h2, if_pos a2, h2, Nat.sub_self]; rfl
      · by_cases h3 : n + 1 ≤ i ∧ i < n + 1 + vs.length
        · have a2 : n ≤ i ∧ i < n + (vs.length + 1) := by omega
          have a3 : i - n = (i - (n + 1)) + 1 := by omega
          rw [if_pos h3, if_pos a2, a3]; rfl
        · have a2 : ¬ (n ≤ i ∧ i < n + (vs.length + 1)) := by omega
          rw [if_neg h3, if_neg h2, if_neg a2]
    · have hout : ¬ (col = xs + n % w ∧ row = ys + n / w) := by
        rintro ⟨e1, e2⟩
        exact hin ⟨by omega, by omega, e2 ▸ Nat.le_add_right _ _⟩
      rw [if_neg (fun h => hin ⟨h.1, h.2.1, h.2.2.1⟩), if_neg hout, if_neg (fun h => hin ⟨h.1, h.2.1, h.2.2.1⟩)]

/-- A stream of pixels into the window, from pixel `n` on. -/
theorem Sink.stream (vs : List Half) {k : Sink} {xs ys w h n : Nat} (hw : k.Window xs ys w h) (he : k.expect = .pixelHi)
    (hc : k.ptrCol = xs + n % w) (hr : k.ptrRow = ys + n / w) (hn : n + vs.length ≤ w * h) :
    (pixelBytes vs).foldl Sink.data k =
      k.streaming (Memory.putPixels xs ys w n vs k.panel) (xs + (n + vs.length) % w) (ys + (n + vs.length) / w) := by
  induction vs generalizing k n with
  | nil => simp only [Memory.putPixels, List.length_nil, Nat.add_zero, ← hc, ← hr, Sink.streaming, ← he]; rfl
  | cons v vs ih =>
    simp only [List.length_cons] at hn
    have hw' : ({ k with expect := .pixelLo (hi8 v) } : Sink).Window xs ys w h :=
      ⟨hw.1, hw.2, hw.3, hw.4, hw.5, hw.6, hw.7, hw.8, hw.9⟩
    have hstep : (k.data (hi8 v)).data (lo8 v) = ({ k with expect := .pixelLo (hi8 v) } : Sink).writePixel v := by
      simp [Sink.data, he]
    rw [Sink.writePixel_window hw' hc hr (by omega)] at hstep
    rw [pixelBytes_cons, List.foldl_cons, List.foldl_cons, hstep, ih (n := n + 1) (hw'.streaming _ _ _) rfl rfl rfl (by omega)]
    simp only [Memory.putPixels, List.length_cons, Nat.add_assoc, Nat.add_comm 1]
    rfl

/-- The sink after a window and a full stream of its pixels. -/
def Sink.painted (x y w h : Nat) (px : List Half) (ended : Bool) (k : Sink) : Sink :=
  { k.setWindow x y w h with
    panel := Memory.putPixels x (y + 24) w 0 px k.panel, writing := true,
    expect := if ended then .nothing else .pixelHi, ptrCol := x, ptrRow := y + h + 24 }

theorem Sink.setWindow_window {k : Sink} {x y w h : Nat} (hm : k.colMode = 0x05#8) (h1 : 1 ≤ w) (h2 : 1 ≤ h) (h3 : x + w ≤ 160)
    (h4 : y + h ≤ 80) : (k.setWindow x y w h).Window x (y + 24) w h := by
  refine ⟨?_, ?_, ?_, ?_, h1, h2, h3, by omega, hm⟩
  · exact halfOf_zero_toNat _ (by omega)
  · exact halfOf_zero_toNat _ (by omega)
  · exact halfOf_zero_toNat _ (by omega)
  · exact (halfOf_zero_toNat _ (by omega)).trans (by omega)

theorem Sink.painted_full {k : Sink} {x y w h : Nat} {px : List Half} (hm : k.colMode = 0x05#8) (h1 : 1 ≤ w) (h2 : 1 ≤ h)
    (h3 : x + w ≤ 160) (h4 : y + h ≤ 80) (ended : Bool) : (k.painted x y w h px ended).windowFull = true := by
  have hW := Sink.setWindow_window (k := k) hm h1 h2 h3 h4
  have e1 : (k.painted x y w h px ended).winXS.toNat = x := hW.left
  have e2 : (k.painted x y w h px ended).winXE.toNat = x + w - 1 := hW.right
  have e3 : (k.painted x y w h px ended).winYS.toNat = y + 24 := hW.top
  have e4 : (k.painted x y w h px ended).winYE.toNat = y + 24 + h - 1 := hW.bottom
  have e5 : (k.painted x y w h px ended).ptrCol = x := rfl
  have e6 : (k.painted x y w h px ended).ptrRow = y + h + 24 := rfl
  have hv : (k.painted x y w h px ended).windowValid = true := by
    unfold Sink.windowValid
    rw [e1, e2, e3, e4, decide_eq_true (by omega), decide_eq_true (by omega)]; rfl
  unfold Sink.windowFull
  rw [hv, e5, e6, e1, e4, decide_eq_true rfl, decide_eq_true (by omega)]; rfl

theorem Sink.painted_settled {k : Sink} {x y w h : Nat} {px : List Half} (hm : k.colMode = 0x05#8) (h1 : 1 ≤ w) (h2 : 1 ≤ h)
    (h3 : x + w ≤ 160) (h4 : y + h ≤ 80) (ended : Bool) : (k.painted x y w h px ended).frameComplete = true := by
  cases ended with
  | false => exact Sink.painted_full hm h1 h2 h3 h4 false
  | true => rfl

/-- A window, then exactly as many pixels as it holds. -/
theorem Sink.frames_windowedWrite (k : Sink) (ended : Bool) (x y w h : Nat) (px : List Half) (hk : k.frameComplete = true)
    (hm : k.colMode = 0x05#8) (h1 : 1 ≤ w) (h2 : 1 ≤ h) (h3 : x + w ≤ 160) (h4 : y + h ≤ 80) (hp : px.length = w * h) :
    k.frames ended (windowedWrite x y w h px) = k.painted x y w h px ended := by
  have hW := Sink.setWindow_window (k := k) hm h1 h2 h3 h4
  have hs : (pixelBytes px).foldl Sink.data ((k.setWindow x y w h).command 0x2C#8) = k.painted x y w h px false := by
    rw [Sink.command_nothing _ rfl, Sink.decodeCommand_2C]
    refine (Sink.stream px (n := 0) (h := h) (w := w) (xs := x) (ys := y + 24)
      (k := { k.setWindow x y w h with writing := true, expect := .pixelHi, ptrCol := (k.setWindow x y w h).winXS.toNat, ptrRow := (k.setWindow x y w h).winYS.toNat })
      ⟨hW.1, hW.2, hW.3, hW.4, hW.5, hW.6, hW.7, hW.8, hW.9⟩ rfl (by simpa using hW.left) (by simpa using hW.top) (by omega)).trans ?_
    have e1 : (0 + px.length) % w = 0 := by rw [hp]; simp
    have e2 : (0 + px.length) / w = h := by rw [hp, Nat.zero_add]; exact Nat.mul_div_cancel_left _ h1
    have e3 : y + 24 + h = y + h + 24 := by omega
    rw [e1, e2, e3]
    rfl
  rw [windowedWrite, Sink.frames_append, Sink.frames_window k ended x y w h hk, Sink.frames_cons, Sink.frames_nil, Sink.frame, hs]
  cases ended with
  | false => rfl
  | true =>
    simp only [if_true]
    rw [Sink.endFrame_settled (Sink.painted_settled hm h1 h2 h3 h4 false)]
    rfl

/-- The pixels of the painted sink (20_memory.md R95). -/
theorem Sink.painted_pixel (x y w h : Nat) (px : List Half) (ended : Bool) (k : Sink) (h1 : 1 ≤ w)
    (h3 : x + w ≤ 160) (h4 : y + h ≤ 80) (hp : px.length = w * h) {col row : Nat} (hcol : col < 65536) :
    (k.painted x y w h px ended).pixel col row =
      paintedPixel k x y w h (fun r c => px.getD (r * w + c) 0) col row := by
  unfold Sink.pixel paintedPixel Sink.painted
  simp only [Memory.putPixels_get x (y + 24) w 0 px k.panel h1 (by omega) hcol]
  by_cases hin : x ≤ col ∧ col < min (x + w) 160 ∧ y + 24 ≤ row ∧ row < min (y + h) 80 + 24
  · have hlt : (row - (y + 24)) * w + (col - x) < w * h := by
      have a : row - (y + 24) + 1 ≤ h := by omega
      calc (row - (y + 24)) * w + (col - x) < (row - (y + 24)) * w + w := by omega
        _ = w * (row - (y + 24) + 1) := by ring
        _ ≤ w * h := Nat.mul_le_mul_left _ a
    rw [if_pos hin, if_pos ⟨hin.1, by omega, hin.2.2.1, Nat.zero_le _, by omega⟩]
    have : (row - (y + 24)) * w + (col - x) < px.length := by omega
    simp [List.getElem?_eq_getElem this]
  · rw [if_neg hin]
    have hout : ¬ (x ≤ col ∧ col < x + w ∧ y + 24 ≤ row ∧ 0 ≤ (row - (y + 24)) * w + (col - x) ∧
        (row - (y + 24)) * w + (col - x) < 0 + px.length) := by
      rintro ⟨a, b, c, -, d⟩
      apply hin
      refine ⟨a, by omega, c, ?_⟩
      by_contra hge
      have : h ≤ row - (y + 24) := by omega
      have : h * w ≤ (row - (y + 24)) * w := Nat.mul_le_mul_right _ this
      have : w * h = h * w := Nat.mul_comm _ _
      omega
    rw [if_neg hout]
    rfl

/-- The frames of a drawing leave the sink settled, its settings as they were, and a rectangle of its pixels drawn. -/
structure Sink.Draws (k k' : Sink) (x y w h : Nat) (f : (r c : Nat) → Half) : Prop where
  settled : k'.frameComplete = true
  settings : k.SameSettings k'
  pixels : ∀ col row, col < 65536 → k'.pixel col row = paintedPixel k x y w h f col row

theorem Sink.draws_window (k : Sink) (ended : Bool) (x y w h : Nat) (px : List Half) (f : (r c : Nat) → Half)
    (hk : k.frameComplete = true) (hm : k.colMode = 0x05#8) (h1 : 1 ≤ w) (h2 : 1 ≤ h) (h3 : x + w ≤ 160) (h4 : y + h ≤ 80)
    (hp : px.length = w * h) (hf : ∀ r c, r < h → c < w → px.getD (r * w + c) 0 = f r c) :
    k.Draws (k.frames ended (windowedWrite x y w h px)) x y w h f := by
  rw [Sink.frames_windowedWrite k ended x y w h px hk hm h1 h2 h3 h4 hp]
  refine ⟨Sink.painted_settled hm h1 h2 h3 h4 ended, ⟨rfl, rfl, rfl, rfl, rfl, rfl⟩, fun col row hc => ?_⟩
  rw [Sink.painted_pixel x y w h px ended k h1 h3 h4 hp hc]
  unfold paintedPixel
  split
  · exact hf _ _ (by omega) (by omega)
  · rfl

theorem paintedPixel_none (k : Sink) {x y w h : Nat} (f : (r c : Nat) → Half) (hk : clip x y w h = none) (col row : Nat) :
    paintedPixel k x y w h f col row = k.pixel col row := by
  unfold paintedPixel
  unfold clip Config.panelW Config.panelH at hk
  rw [if_neg]
  rintro ⟨a, b, c, d⟩
  split at hk
  · omega
  · split at hk
    · omega
    · cases hk

theorem paintedPixel_some (k : Sink) {x y w h wc hc : Nat} (f : (r c : Nat) → Half) (hk : clip x y w h = some (wc, hc))
    (col row : Nat) : paintedPixel k x y w h f col row = paintedPixel k x y wc hc f col row := by
  unfold clip Config.panelW Config.panelH at hk
  split at hk
  · cases hk
  · split at hk
    · cases hk
    · simp only [Option.some.injEq, Prod.mk.injEq] at hk
      unfold paintedPixel
      have : (x ≤ col ∧ col < min (x + w) 160 ∧ y + 24 ≤ row ∧ row < min (y + h) 80 + 24) ↔
          (x ≤ col ∧ col < min (x + wc) 160 ∧ y + 24 ≤ row ∧ row < min (y + hc) 80 + 24) := by omega
      simp only [this]

/-- FILL draws its rectangle (42_raster.md R192). -/
theorem Sink.draws_fill (k : Sink) (ended : Bool) (x y w h : Nat) (color : Half) (hk : k.frameComplete = true)
    (hm : k.colMode = 0x05#8) : k.Draws (k.frames ended (fillFrames x y w h color)) x y w h (fun _ _ => color) := by
  unfold fillFrames
  cases hc : clip x y w h with
  | none => exact ⟨hk, ⟨rfl, rfl, rfl, rfl, rfl, rfl⟩, fun col row _ => (paintedPixel_none k _ hc col row).symm⟩
  | some p =>
    obtain ⟨wc, hc'⟩ := p
    have hb := clip_eq_some hc
    have hd := Sink.draws_window k ended x y wc hc' (List.replicate (wc * hc') color) (fun _ _ => color) hk hm hb.1 hb.2.1
      hb.2.2.1 hb.2.2.2.1 (by simp) (fun r c hr hcc => by
        have : r * wc + c < wc * hc' := by
          calc r * wc + c < r * wc + wc := by omega
            _ = wc * (r + 1) := by ring
            _ ≤ wc * hc' := Nat.mul_le_mul_left _ hr
        simp [List.getD_eq_getElem?_getD, this])
    exact ⟨hd.settled, hd.settings, fun col row h => (hd.pixels col row h).trans (paintedPixel_some k _ hc col row).symm⟩

theorem Sink.Draws.colMode {k k' : Sink} {x y w h : Nat} {f : (r c : Nat) → Half} (hd : k.Draws k' x y w h f)
    (hm : k.colMode = 0x05#8) : k'.colMode = 0x05#8 := hd.settings.2.2.2.2.2.trans hm

/-- Row after row of a rectangle. -/
theorem Sink.draws_rows (ended : Bool) (x y wc : Nat) (f : (r c : Nat) → Half) (n : Nat) {k : Sink}
    (hk : k.frameComplete = true) (hm : k.colMode = 0x05#8) (h1 : 1 ≤ wc) (h3 : x + wc ≤ 160) (h4 : y + n ≤ 80) :
    k.Draws (k.frames ended ((List.range n).flatMap fun r => windowedWrite x (y + r) wc 1 (rowPixels wc (f r)))) x y wc n f := by
  induction n with
  | zero => exact ⟨hk, ⟨rfl, rfl, rfl, rfl, rfl, rfl⟩, fun col row _ => by unfold paintedPixel; rw [if_neg (by omega)]; rfl⟩
  | succ n ih =>
    have hd := ih (by omega)
    rw [List.range_succ, List.flatMap_append, Sink.frames_append]
    simp only [List.flatMap_cons, List.flatMap_nil, List.append_nil]
    generalize k.frames ended ((List.range n).flatMap fun r => windowedWrite x (y + r) wc 1 (rowPixels wc (f r))) = k1 at hd ⊢
    have hd1 := Sink.draws_window k1 ended x (y + n) wc 1 (rowPixels wc (f n)) (fun _ c => f n c) hd.settled (hd.colMode hm) h1
      (Nat.le_refl 1) h3 (by omega) (by simp [rowPixels]) (fun r c hr hc => by
        have : r = 0 := by omega
        subst this
        simp [rowPixels, List.getD_eq_getElem?_getD, hc])
    obtain ⟨s1, s2, s3, s4, s5, s6⟩ := hd.settings
    obtain ⟨t1, t2, t3, t4, t5, t6⟩ := hd1.settings
    refine ⟨hd1.settled, ⟨t1.trans s1, t2.trans s2, t3.trans s3, t4.trans s4, t5.trans s5, t6.trans s6⟩, fun col row h => ?_⟩
    rw [hd1.pixels col row h]
    unfold paintedPixel
    rw [hd.pixels col row h]
    unfold paintedPixel
    by_cases a : x ≤ col ∧ col < x + wc
    · by_cases b : row = y + n + 24
      · rw [if_pos (by omega), if_pos (by omega)]
        have : row - (y + 24) = n := by omega
        rw [this]
      · rw [if_neg (by omega)]
        by_cases c : y + 24 ≤ row ∧ row < y + n + 24
        · rw [if_pos (by omega), if_pos (by omega)]
        · rw [if_neg (by omega), if_neg (by omega)]
    · rw [if_neg (by omega), if_neg (by omega), if_neg (by omega)]

/-- A primitive that sends one window a row draws its rectangle (42_raster.md R195, R198). -/
theorem Sink.draws_rowFrames (k : Sink) (ended : Bool) (x y w h : Nat) (f : (r c : Nat) → Half) (hk : k.frameComplete = true)
    (hm : k.colMode = 0x05#8) : k.Draws (k.frames ended (rowFrames x y w h f)) x y w h f := by
  unfold rowFrames
  cases hc : clip x y w h with
  | none => exact ⟨hk, ⟨rfl, rfl, rfl, rfl, rfl, rfl⟩, fun col row _ => (paintedPixel_none k _ hc col row).symm⟩
  | some p =>
    obtain ⟨wc, hc'⟩ := p
    have hb := clip_eq_some hc
    have hd := Sink.draws_rows ended x y wc f hc' hk hm hb.1 hb.2.2.1 hb.2.2.2.1
    exact ⟨hd.settled, hd.settings, fun col row h => (hd.pixels col row h).trans (paintedPixel_some k _ hc col row).symm⟩

end Sys2Proof.Machine
end

