-- ==== Sys2Proof/Laws/Text.lean ====
section
/-! SUPPORT. The laws of text on a free bus: DRAWCHAR and DRAWSTRING send the frames that Safety.lean names for them. -/
namespace Sys2Proof.Machine

/-- DRAWCHAR on a free bus. -/
theorem drawChar_ready (x y : Nat) (ch : Byte) (fg bg : Half) {s : State} (hs : s.BusReady) :
    ∃ (f : Nat → Nat → Half) (fc : Nat),
      drawChar x y ch fg bg s =
        .done ((s.sent (glyphFrames x y bg f)).withRegs (charWork x y ch fg bg s.work) (monoLine x y 7 16 f s.line) fc) ∧
      MonoPixels s .rom (glyphOffset ch) 7 fg bg f := by
  obtain ⟨f, fc, he, hf⟩ := monoBlit_ready .rom (glyphOffset ch) x y 7 16 fg bg
    (s := s.subMonoBlit x y (glyphOffset ch) fg bg) (by exact hs)
  refine ⟨f, fc, ?_, hf⟩
  have he' : monoBlit .rom (glyphOffset ch) x y Config.glyphW Config.glyphH fg bg
      (s.subMonoBlit x y (glyphOffset ch) fg bg) = _ := he
  rw [drawChar, he']
  simp only [Res.andThen]
  rw [fill_ready _ _ _ _ _ (by exact hs), glyphFrames, State.sent_append]
  rfl

theorem charWork_curx (x y : Nat) (ch : Byte) (fg bg : Half) (k : Work) : (charWork x y ch fg bg k).curx = k.curx := by
  unfold charWork fillWork rowsWork
  cases clip (x + 7) y 1 16 <;> cases clip x y 7 16 <;> rfl

theorem drawnChars_succ (x n : Nat) : drawnChars x (n + 1) = if 160 ≤ x then 0 else drawnChars (x + 8) n + 1 := by
  unfold drawnChars Config.ceilDiv
  split
  · rfl
  · split <;> omega

theorem readText_spec (i : Nat) (s : State) :
    ∃ (v : Byte) (fc : Nat), readText i s = (v, s.withRegs s.work s.line fc) ∧ (i < Config.spaceSize → v = s.textAt i) := by
  by_cases h : i < Config.spaceSize
  · exact ⟨_, s.freeCtr, by simp only [readText, h, if_true]; rfl, fun _ => rfl⟩
  · exact ⟨_, s.freeCtr + 1, by simp only [readText, h, if_false]; rfl, fun h' => absurd h' h⟩

/-- The working registers after `n` characters of DRAWSTRING from index `cidx` and cursor `curx` on. -/
def charsWorkFrom (y : Nat) (fg bg : Half) (ch : Nat → Byte) (cidx curx n : Nat) (k : Work) : Work :=
  (List.range n).foldl (fun k i =>
    { charWork (curx + 8 * i) y (ch (cidx + i)) fg bg { k with cidx := BitVec.ofNat 16 (cidx + i) } with
      curx := BitVec.ofNat 16 (curx + 8 * (i + 1)) }) k

/-- The scratch line after `n` characters of DRAWSTRING from index `cidx` and cursor `curx` on. -/
def charsLineFrom (y : Nat) (f : Nat → Nat → Nat → Half) (cidx curx n : Nat) (line : Vector Half 160) : Vector Half 160 :=
  (List.range n).foldl (fun l i => monoLine (curx + 8 * i) y 7 16 (f (cidx + i)) l) line

theorem foldl_range_succ {α : Type} (g : α → Nat → α) (n : Nat) (a : α) :
    (List.range (n + 1)).foldl g a = (List.range n).foldl (fun a i => g a (i + 1)) (g a 0) := by
  rw [List.range_succ_eq_map, List.foldl_cons, List.foldl_map]

/-- One character, then the others. -/
theorem charsWorkFrom_succ (y : Nat) (fg bg : Half) (ch : Nat → Byte) (cidx curx n : Nat) (k : Work) :
    charsWorkFrom y fg bg ch cidx curx (n + 1) k =
      charsWorkFrom y fg bg ch (cidx + 1) (curx + 8) n
        { charWork curx y (ch cidx) fg bg { k with cidx := BitVec.ofNat 16 cidx } with curx := BitVec.ofNat 16 (curx + 8) } := by
  have e (i : Nat) : cidx + (i + 1) = cidx + 1 + i := by omega
  have e' (i : Nat) : curx + 8 * (i + 1) = curx + 8 + 8 * i := by omega
  rw [charsWorkFrom, charsWorkFrom, foldl_range_succ]
  congr 1
  funext a i
  rw [e i, e' i, e' (i + 1)]

theorem charsLineFrom_succ (y : Nat) (f : Nat → Nat → Nat → Half) (cidx curx n : Nat) (line : Vector Half 160) :
    charsLineFrom y f cidx curx (n + 1) line =
      charsLineFrom y f (cidx + 1) (curx + 8) n (monoLine curx y 7 16 (f cidx) line) := by
  have e (i : Nat) : cidx + (i + 1) = cidx + 1 + i := by omega
  have e' (i : Nat) : curx + 8 * (i + 1) = curx + 8 + 8 * i := by omega
  rw [charsLineFrom, charsLineFrom, foldl_range_succ]
  congr 1
  funext a i
  rw [e i, e' i]

/-- Only the characters from `cidx` on matter. -/
theorem charsWorkFrom_congr (y : Nat) (fg bg : Half) {ch ch' : Nat → Byte} (cidx curx n : Nat) (k : Work)
    (h : ∀ i, ch (cidx + i) = ch' (cidx + i)) :
    charsWorkFrom y fg bg ch cidx curx n k = charsWorkFrom y fg bg ch' cidx curx n k := by
  simp only [charsWorkFrom, h]

theorem charsLineFrom_congr (y : Nat) {f f' : Nat → Nat → Nat → Half} (cidx curx n : Nat) (line : Vector Half 160)
    (h : ∀ i, f (cidx + i) = f' (cidx + i)) : charsLineFrom y f cidx curx n line = charsLineFrom y f' cidx curx n line := by
  simp only [charsLineFrom, h]

theorem charsWorkFrom_zero (x y len : Nat) (ch : Nat → Byte) (fg bg : Half) (k : Work) :
    stringWork x y len ch fg bg k =
      (let k' := charsWorkFrom y fg bg ch 0 x (drawnChars x len) { k with curx := BitVec.ofNat 16 x }
       if drawnChars x len < len then { k' with cidx := BitVec.ofNat 16 (drawnChars x len) } else k') := by
  simp only [stringWork, charsWork, charsWorkFrom, Nat.zero_add]

theorem charsLineFrom_zero (x y n : Nat) (f : Nat → Nat → Nat → Half) (line : Vector Half 160) :
    stringLine x y n f line = charsLineFrom y f 0 x n line := by
  simp only [stringLine, charsLineFrom, Nat.zero_add]

/-- The characters of DRAWSTRING on a free bus. -/
theorem drawChars_ready (y src : Nat) (fg bg : Half) (n cidx curx : Nat) {s : State} (hs : s.BusReady) :
    ∃ (ch : Nat → Byte) (f : Nat → Nat → Nat → Half) (work : Work) (line : Vector Half 160) (fc : Nat),
      drawChars y src fg bg n cidx curx s =
        .done ((s.sent ((List.range (drawnChars curx n)).flatMap fun i =>
          glyphFrames (curx + 8 * i) y bg (f (cidx + i)))).withRegs work line fc) ∧
      work.curx = (if drawnChars curx n = 0 then s.work.curx else BitVec.ofNat 16 (curx + 8 * drawnChars curx n)) ∧
      (80 ≤ y ∨ 160 ≤ curx → line = s.line) ∧
      work = (let k := charsWorkFrom y fg bg ch cidx curx (drawnChars curx n) s.work
        if drawnChars curx n < n then { k with cidx := BitVec.ofNat 16 (cidx + drawnChars curx n) } else k) ∧
      line = charsLineFrom y f cidx curx (drawnChars curx n) s.line ∧
      ∀ i, (src + i < Config.spaceSize → ch i = s.textAt (src + i)) ∧
        MonoPixels s .rom (glyphOffset (ch i)) 7 fg bg (f i) := by
  induction n generalizing cidx curx s with
  | zero =>
    choose f hf using fun i : Nat => monoPixels_exists s .rom (glyphOffset (s.textAt (src + i))) 7 fg bg
    have h0 : drawnChars curx 0 = 0 := by unfold drawnChars; split <;> simp
    exact ⟨fun i => s.textAt (src + i), f, s.work, s.line, s.freeCtr, by simp [drawChars, h0], by simp [h0], fun _ => rfl,
      by simp [h0, charsWorkFrom], by simp [h0, charsLineFrom], fun i => ⟨fun _ => rfl, hf i⟩⟩
  | succ n ih =>
    by_cases hx : 160 ≤ curx
    · choose f hf using fun i : Nat => monoPixels_exists s .rom (glyphOffset (s.textAt (src + i))) 7 fg bg
      have h0 : drawnChars curx (n + 1) = 0 := by simp [drawnChars, hx]
      refine ⟨fun i => s.textAt (src + i), f, (s.setCidx cidx).work, s.line, s.freeCtr, ?_, by simp only [h0, if_true]; rfl,
        fun _ => rfl, ?_, by simp [h0, charsLineFrom], fun i => ⟨fun _ => rfl, hf i⟩⟩
      · simp only [drawChars, Config.panelW, hx, if_true, h0]
        simp; rfl
      · rw [h0, if_pos (Nat.succ_pos n)]; rfl
    · obtain ⟨ch, fc1, ht, hch⟩ := readText_spec (src + cidx) (s.setCidx cidx)
      obtain ⟨g, fc2, hd, hg⟩ := drawChar_ready curx y ch fg bg
        (s := (s.setCidx cidx).withRegs (s.setCidx cidx).work (s.setCidx cidx).line fc1) (by exact hs)
      obtain ⟨chs, f, work, line, fc, he, hw, hl, hwk, hln, hf⟩ := ih (cidx + 1) (curx + 8)
        (s := ((s.sent (glyphFrames curx y bg g)).withRegs (charWork curx y ch fg bg (s.setCidx cidx).work)
          (monoLine curx y 7 16 g s.line) fc2).setCurx (curx + 8)) (by exact hs)
      have hdc : drawnChars curx (n + 1) = drawnChars (curx + 8) n + 1 := by rw [drawnChars_succ, if_neg hx]
      refine ⟨fun i => if i = cidx then ch else chs i, fun i => if i = cidx then g else f i, work, line, fc, ?_, ?_, fun h => ?_,
        ?_, ?_, fun i => ?_⟩
      · simp only [drawChars, Config.panelW, hx, if_false, ht, hd, Res.andThen]
        refine Eq.trans ?_ (he.trans (congrArg Res.done ?_))
        · rfl
        · rw [hdc, flatMap_range_succ, State.sent_append]
          simp only [Nat.add_zero, if_true, Nat.mul_zero]
          have e2 : (List.range (drawnChars (curx + 8) n)).flatMap (fun r => glyphFrames (curx + 8 * (r + 1)) y bg
                (if cidx + (r + 1) = cidx then g else f (cidx + (r + 1)))) =
              (List.range (drawnChars (curx + 8) n)).flatMap (fun r => glyphFrames (curx + 8 + 8 * r) y bg (f (cidx + 1 + r))) := by
            refine List.flatMap_congr fun r _ => ?_
            have e : cidx + (r + 1) = cidx + 1 + r := by omega
            have e' : curx + 8 * (r + 1) = curx + 8 + 8 * r := by omega
            have : cidx + 1 + r ≠ cidx := by omega
            simp only [e, e', this, if_false]
          rw [e2]
          rfl
      · rw [hw, hdc]
        have e : curx + 8 + 8 * drawnChars (curx + 8) n = curx + 8 * (drawnChars (curx + 8) n + 1) := by omega
        rw [e]
        split
        · rename_i h0; simp only [h0]; rfl
        · rfl
      · have hy : 80 ≤ y := h.resolve_right hx
        refine (hl (.inl hy)).trans ?_
        show monoLine curx y 7 16 g s.line = s.line
        unfold monoLine clip
        rw [if_pos (.inr hy)]
      · have hne : ∀ i, cidx + 1 + i ≠ cidx := fun i => by omega
        rw [hwk, hdc, charsWorkFrom_succ, charsWorkFrom_congr y fg bg (ch := fun i => if i = cidx then ch else chs i) (ch' := chs)
          _ _ _ _ fun i => if_neg (hne i)]
        simp only [if_true, Nat.add_lt_add_iff_right, show cidx + (drawnChars (curx + 8) n + 1) = cidx + 1 + drawnChars (curx + 8) n by omega]
        rfl
      · have hne : ∀ i, cidx + 1 + i ≠ cidx := fun i => by omega
        rw [hln, hdc, charsLineFrom_succ, charsLineFrom_congr y (f := fun i => if i = cidx then g else f i) (f' := f)
          _ _ _ _ fun i => if_neg (hne i)]
        simp only [if_true]
        rfl
      · by_cases h : i = cidx
        · subst h; simp only [if_true]; exact ⟨hch, hg⟩
        · simp only [h, if_false]; exact hf i

/-- The bitmap byte of a valid character's glyph (43_text.md R221, R222). -/
theorem bitmapAt_glyph (s : State) (ch : Byte) (i : Nat) (hv : ValidCode s.glyphCount ch) (hi : i < 14) :
    s.bitmapAt .rom (glyphOffset ch + (i : Int)) = some (glyphByte s ch i) := by
  have hg : Config.glyphBytes = 14 := rfl
  have he : glyphOffset ch + (i : Int) = ((14 * (ch.toNat - 0x20) + i : Nat) : Int) := by
    have := hv.1
    simp only [glyphOffset, glyphIndex, Config.glyphW, Config.glyphH, Config.ceilDiv, Config.firstCh]
    push_cast
    omega
  rw [he]
  have hlt : (14 * (ch.toNat - 0x20) + i) < 14 * s.glyphCount := by have := hv.1; have := hv.2; omega
  simp only [State.bitmapAt, hg, glyphByte]
  rw [if_pos ⟨by omega, by exact_mod_cast hlt⟩]
  rfl

theorem Sink.SameSettings.trans {k k1 k2 : Sink} (h : k.SameSettings k1) (h' : k1.SameSettings k2) : k.SameSettings k2 := by
  obtain ⟨s1, s2, s3, s4, s5, s6⟩ := h
  obtain ⟨t1, t2, t3, t4, t5, t6⟩ := h'
  exact ⟨t1.trans s1, t2.trans s2, t3.trans s3, t4.trans s4, t5.trans s5, t6.trans s6⟩

/-- DRAWCHAR draws a cell of eight columns: seven of the glyph, one of the gap (43_text.md R223). -/
theorem Sink.draws_glyph (k : Sink) (ended : Bool) (x y : Nat) (bg : Half) (f : Nat → Nat → Half) (hk : k.frameComplete = true)
    (hm : k.colMode = 0x05#8) :
    k.Draws (k.frames ended (glyphFrames x y bg f)) x y 8 16 (fun r c => if c < 7 then f r c else bg) := by
  rw [glyphFrames, Sink.frames_append]
  have hd := Sink.draws_rowFrames k ended x y 7 16 f hk hm
  generalize k.frames ended (rowFrames x y 7 16 f) = k1 at hd ⊢
  have hd1 := Sink.draws_fill k1 ended (x + 7) y 1 16 bg hd.settled (hd.colMode hm)
  refine ⟨hd1.settled, hd.settings.trans hd1.settings, fun col row h => ?_⟩
  rw [hd1.pixels col row h]
  unfold paintedPixel
  rw [hd.pixels col row h]
  unfold paintedPixel
  by_cases a : x + 7 ≤ col ∧ col < min (x + 7 + 1) 160 ∧ y + 24 ≤ row ∧ row < min (y + 16) 80 + 24
  · rw [if_pos a, if_pos (by omega)]; exact (if_neg (by omega)).symm
  · rw [if_neg a]
    by_cases b : x ≤ col ∧ col < min (x + 7) 160 ∧ y + 24 ≤ row ∧ row < min (y + 16) 80 + 24
    · rw [if_pos b, if_pos (by omega)]; exact (if_pos (by omega)).symm
    · rw [if_neg b, if_neg (by omega)]

/-- Character after character. -/
theorem Sink.draws_chars (ended : Bool) (x y : Nat) (bg : Half) (f : Nat → Nat → Nat → Half) (n : Nat) {k : Sink}
    (hk : k.frameComplete = true) (hm : k.colMode = 0x05#8) :
    k.Draws (k.frames ended ((List.range n).flatMap fun i => glyphFrames (x + 8 * i) y bg (f i))) x y (8 * n) 16
      (fun r c => if c % 8 < 7 then f (c / 8) r (c % 8) else bg) := by
  induction n with
  | zero => exact ⟨hk, ⟨rfl, rfl, rfl, rfl, rfl, rfl⟩, fun col row _ => by unfold paintedPixel; rw [if_neg (by omega)]; rfl⟩
  | succ n ih =>
    rw [List.range_succ, List.flatMap_append, Sink.frames_append]
    simp only [List.flatMap_cons, List.flatMap_nil, List.append_nil]
    generalize k.frames ended ((List.range n).flatMap fun i => glyphFrames (x + 8 * i) y bg (f i)) = k1 at ih ⊢
    have hd1 := Sink.draws_glyph k1 ended (x + 8 * n) y bg (f n) ih.settled (ih.colMode hm)
    refine ⟨hd1.settled, ih.settings.trans hd1.settings, fun col row h => ?_⟩
    rw [hd1.pixels col row h]
    unfold paintedPixel
    rw [ih.pixels col row h]
    unfold paintedPixel
    by_cases a : x + 8 * n ≤ col ∧ col < min (x + 8 * n + 8) 160 ∧ y + 24 ≤ row ∧ row < min (y + 16) 80 + 24
    · rw [if_pos a, if_pos (by omega)]
      have e1 : (col - x) % 8 = col - (x + 8 * n) := by omega
      have e2 : (col - x) / 8 = n := by omega
      simp only [e1, e2]
    · rw [if_neg a]
      by_cases b : x ≤ col ∧ col < min (x + 8 * n) 160 ∧ y + 24 ≤ row ∧ row < min (y + 16) 80 + 24
      · rw [if_pos b, if_pos (by omega)]
      · rw [if_neg b, if_neg (by omega)]

/-- The cells that DRAWSTRING draws reach as far as the text or to the edge of the panel (43_text.md R227). -/
theorem paintedPixel_drawn (k : Sink) (x y len : Nat) (f : Nat → Nat → Half) (col row : Nat) :
    paintedPixel k x y (8 * drawnChars x len) 16 f col row = paintedPixel k x y (8 * len) 16 f col row := by
  unfold paintedPixel drawnChars Config.ceilDiv
  have : (x ≤ col ∧ col < min (x + 8 * (if 160 ≤ x then 0 else min len ((160 - x + 8 - 1) / 8))) 160 ∧ y + 24 ≤ row ∧
      row < min (y + 16) 80 + 24) ↔ (x ≤ col ∧ col < min (x + 8 * len) 160 ∧ y + 24 ≤ row ∧ row < min (y + 16) 80 + 24) := by
    split <;> omega
  simp only [this]

end Sys2Proof.Machine
end

