-- ==== Sys2Proof/Laws/Trace.lean ====
section
/-! SUPPORT. The laws of traces: the bus lock, the frame view and the bytes with their selector level, for the events of frames and
for one trace after another. -/
namespace Sys2Proof.Machine

-- The bus lock

theorem lockAfter_append (h : Bool) (es fs : List Event) : lockAfter h (es ++ fs) = (lockAfter h es).bind (lockAfter · fs) := by
  induction es generalizing h with
  | nil => rfl
  | cons e es ih => cases e <;> cases h <;> simp [lockAfter, ih]

theorem lockAfter_snoc {es : List Event} {l : Bool} (h : lockAfter false es = some l) (e : Event) :
    lockAfter false (es ++ [e]) = lockAfter l [e] := by
  rw [lockAfter_append, h]; rfl

theorem lockAfter_tx8s (bs : List Byte) (es : List Event) : lockAfter true (bs.map .tx8 ++ es) = lockAfter true es := by
  induction bs with
  | nil => rfl
  | cons b bs ih => simpa [lockAfter] using ih

/-- A transaction starts and ends with the bus free (40_bus_transport.md R143, R144, R151). -/
theorem lockAfter_txn (hasCs : Bool) (c : Byte) (payload : List Byte) (es : List Event) :
    lockAfter false (txnEvents hasCs c payload ++ es) = lockAfter false es := by
  cases hasCs <;> cases payload <;> simp [txnEvents, csEvents, payloadEvents, lockAfter, lockAfter_tx8s]

theorem lockAfter_frames (hasCs : Bool) (fs : List Frame) (es : List Event) :
    lockAfter false (framesEvents hasCs fs ++ es) = lockAfter false es := by
  induction fs with
  | nil => rfl
  | cons f fs ih => simpa [framesEvents, lockAfter_txn] using ih

-- Which events exist

theorem allowed_txn (hasCs hasRst : Bool) (c : Byte) (payload : List Byte) :
    ∀ e ∈ txnEvents hasCs c payload, e.allowed hasCs hasRst = true := by
  cases hasCs <;> cases payload <;> simp [txnEvents, csEvents, payloadEvents, Event.allowed]
  · rintro e (⟨b, -, rfl⟩ | rfl) <;> rfl
  · rintro e (⟨b, -, rfl⟩ | rfl | rfl) <;> rfl

theorem allowed_frames (hasCs hasRst : Bool) (fs : List Frame) :
    ∀ e ∈ framesEvents hasCs fs, e.allowed hasCs hasRst = true := by
  intro e he
  obtain ⟨f, -, hf⟩ := List.mem_flatMap.1 he
  exact allowed_txn _ _ _ _ e hf

-- The bytes and their selector level

theorem dcBytes_append (l : Bool) (es fs : List Event) :
    ∃ l', dcBytes l (es ++ fs) = dcBytes l es ++ dcBytes l' fs := by
  induction es generalizing l with
  | nil => exact ⟨l, rfl⟩
  | cons e es ih => cases e <;> simpa [dcBytes] using ih _

theorem dcBytes_tx8s (bs : List Byte) (es : List Event) (l : Bool) :
    dcBytes l (bs.map .tx8 ++ es) = bs.map (fun b => (l, b)) ++ dcBytes l es := by
  induction bs with
  | nil => rfl
  | cons b bs ih => simpa [dcBytes] using ih

/-- The command byte arrives with the selector low, the payload with it high (40_bus_transport.md R155). -/
theorem dcBytes_txn (hasCs l : Bool) (c : Byte) (payload : List Byte) (es : List Event) :
    dcBytes l (txnEvents hasCs c payload ++ es) =
      (false, c) :: payload.map (fun b => (true, b)) ++ dcBytes (!payload.isEmpty) es := by
  cases hasCs <;> cases payload <;> simp [txnEvents, csEvents, payloadEvents, dcBytes, dcBytes_tx8s]

theorem dcBytes_frames (hasCs l : Bool) (fs : List Frame) :
    dcBytes l (framesEvents hasCs fs) = fs.flatMap fun f => (false, f.1) :: f.2.map fun b => (true, b) := by
  induction fs generalizing l with
  | nil => rfl
  | cons f fs ih =>
    have : framesEvents hasCs (f :: fs) = txnEvents hasCs f.1 f.2 ++ framesEvents hasCs fs := rfl
    rw [this, dcBytes_txn, ih]
    rfl

-- The frame view

theorem frameViewFrom_tx8s (bs : List Byte) (sent : List Byte) (es : List Event) :
    frameViewFrom (some sent) (bs.map .tx8 ++ es) = frameViewFrom (some (sent ++ bs)) es := by
  induction bs generalizing sent with
  | nil => simp
  | cons b bs ih =>
    cases sent <;> simp [frameViewFrom, ih]

/-- A transaction is one frame of the frame view. -/
theorem frameView_txn (hasCs : Bool) (c : Byte) (payload : List Byte) (es : List Event) :
    frameView (txnEvents hasCs c payload ++ es) = .frame c payload :: frameView es := by
  unfold frameView
  cases hasCs <;> cases payload <;>
    simp [txnEvents, csEvents, payloadEvents, frameViewFrom, frameViewFrom_tx8s]

theorem frameView_frames (hasCs : Bool) (fs : List Frame) (es : List Event) :
    frameView (framesEvents hasCs fs ++ es) = fs.map (fun f => .frame f.1 f.2) ++ frameView es := by
  induction fs with
  | nil => rfl
  | cons f fs ih =>
    have : framesEvents hasCs (f :: fs) ++ es = txnEvents hasCs f.1 f.2 ++ (framesEvents hasCs fs ++ es) := by
      simp [framesEvents]
    rw [this, frameView_txn, ih]
    rfl

/-- The pixel words of frames. -/
theorem pixelCount_frames (hasCs : Bool) (fs : List Frame) :
    pixelCount (framesEvents hasCs fs) = (fs.map fun f => if f.1 = 0x2C#8 then f.2.length / 2 else 0).sum := by
  have h := frameView_frames hasCs fs []
  rw [List.append_nil] at h
  rw [pixelCount, h]
  simp [frameView, frameViewFrom, View.pixels, Function.comp_def]

end Sys2Proof.Machine
end

