-- ==== Sys2Proof/Laws/Invariant.lean ====
section
/-! SUPPORT. What every operation keeps: the canonical form of the sink's pixel memory, and all clauses of the invariant but the
one about waiting, whether the operation ends or waits for a grant. -/
namespace Sys2Proof.Machine

-- The sink's pixel memory

theorem Sink.endFrame_wf (k : Sink) (h : k.panel.wf = true) : k.endFrame.panel.wf = true := by
  unfold Sink.endFrame
  split <;> first | exact h | rfl | skip
  split <;> first | exact h | rfl

theorem Sink.decodeCommand_wf (k : Sink) (c : Byte) (h : k.panel.wf = true) : (k.decodeCommand c).panel.wf = true := by
  unfold Sink.decodeCommand
  dsimp only
  split <;> first | exact h | rfl

theorem Sink.writePixel_wf (k : Sink) (v : Half) (h : k.panel.wf = true) : (k.writePixel v).panel.wf = true := by
  unfold Sink.writePixel
  split
  · dsimp only
    split <;> exact Memory.put_wf _ _ _ h
  · rfl

theorem Sink.data_wf (k : Sink) (b : Byte) (h : k.panel.wf = true) : (k.data b).panel.wf = true := by
  unfold Sink.data
  split <;> first | exact h | rfl | exact Sink.writePixel_wf _ _ h

theorem Sink.receive_wf (k : Sink) (dc : Bool) (b : Byte) (h : k.panel.wf = true) : (k.receive dc b).panel.wf = true := by
  unfold Sink.receive
  split
  · exact Sink.data_wf _ _ h
  · exact Sink.decodeCommand_wf _ _ (Sink.endFrame_wf _ h)

theorem Sink.foldl_data_wf (bs : List Byte) (k : Sink) (h : k.panel.wf = true) : (bs.foldl Sink.data k).panel.wf = true := by
  induction bs generalizing k with
  | nil => exact h
  | cons b bs ih => exact ih _ (Sink.data_wf _ _ h)

theorem Sink.frame_wf (k : Sink) (ended : Bool) (c : Byte) (payload : List Byte) (h : k.panel.wf = true) :
    (k.frame ended c payload).panel.wf = true := by
  have := Sink.foldl_data_wf payload _ (Sink.decodeCommand_wf _ c (Sink.endFrame_wf _ h))
  unfold Sink.frame
  dsimp only
  split
  · exact Sink.endFrame_wf _ this
  · exact this

theorem Sink.frames_wf (fs : List Frame) (k : Sink) (ended : Bool) (h : k.panel.wf = true) :
    (k.frames ended fs).panel.wf = true := by
  induction fs generalizing k with
  | nil => exact h
  | cons f fs ih => exact ih _ (Sink.frame_wf _ _ _ _ h)

-- Everything in the invariant that holds in the middle of a request too

/-- The clauses of `Inv` that hold between any two operations of a request. -/
structure Running (s : State) : Prop where
  panel : s.sink.panel.wf = true
  lock : lockAfter false s.trace = some s.lock
  straps : ∀ e ∈ s.trace, e.allowed s.hasCs s.hasRst = true
  driven : s.pins.dcOe = s.begun ∧ s.pins.sckOe = s.begun ∧ s.pins.mosiOe = s.begun ∧
    s.pins.csNOe = (s.begun && s.hasCs) ∧ s.pins.rstNOe = (s.begun && s.hasRst)
  begun : s.pstate ≠ .uninit → s.begun = true
  delay : s.dly = 0
  request : s.lock = true → s.busReq = true
  clock : s.begun = true → s.pins.sck = false

theorem Inv.running {s : State} (h : Inv s) : Running s := ⟨h.1, h.2, h.3, h.4, h.5, h.6, h.8, h.9⟩

theorem Running.inv {s : State} (h : Running s) (hw : s.busy = true → s.lock = false ∧ s.busReq = true) : Inv s :=
  ⟨h.1, h.2, h.3, h.4, h.5, h.6, hw, h.7, h.8⟩

/-- Only fields that no clause speaks of have changed. -/
theorem Running.of_eq {s t : State} (h : Running s) (e1 : t.sink = s.sink) (e2 : t.traceRev = s.traceRev) (e3 : t.lock = s.lock)
    (e4 : t.hasCs = s.hasCs ∧ t.hasRst = s.hasRst) (e5 : t.pins = s.pins) (e6 : t.begun = s.begun) (e7 : t.pstate = s.pstate)
    (e8 : t.dly = s.dly) (e9 : t.busReq = s.busReq) : Running t := by
  have et : t.trace = s.trace := by simp only [State.trace, e2]
  exact ⟨by rw [e1]; exact h.panel, by rw [et, e3]; exact h.lock, by rw [et, e4.1, e4.2]; exact h.straps,
    by rw [e5, e6, e4.1, e4.2]; exact h.driven, by rw [e7, e6]; exact h.begun, by rw [e8]; exact h.delay,
    by rw [e3, e9]; exact h.request, by rw [e6, e5]; exact h.clock⟩

/-- One event that does not concern the lock. -/
theorem Running.event {s : State} (h : Running s) {e : Event} (hl : lockAfter s.lock [e] = some s.lock)
    (ha : e.allowed s.hasCs s.hasRst = true) : Running (s.emit e) :=
  ⟨h.panel, by rw [State.emit_trace, lockAfter_snoc h.lock, hl]; rfl,
    by rw [State.emit_trace]; intro e' he'; simp only [List.mem_append, List.mem_singleton] at he'
       rcases he' with he' | rfl
       · exact h.straps _ he'
       · exact ha,
    h.driven, h.begun, h.delay, h.request, h.clock⟩

theorem Running.delay_op {s : State} (h : Running s) (n : Nat) : Running (s.delay n) :=
  Running.event (s := { s with dly := 0 }) ⟨h.1, h.2, h.3, h.4, h.5, rfl, h.7, h.8⟩ (e := .delay n) (by cases hl : s.lock <;> rfl) rfl

theorem Running.release_op {s : State} (h : Running s) : Running s.release :=
  ⟨h.panel, by rw [State.release_trace, lockAfter_snoc h.lock]; rfl,
    by rw [State.release_trace]; intro e' he'; simp only [List.mem_append, List.mem_singleton] at he'
       rcases he' with he' | rfl
       · exact h.straps _ he'
       · rfl,
    h.driven, h.begun, h.delay, fun h' => (by cases h'), h.clock⟩

theorem Running.tx8_op {s : State} (h : Running s) (hl : s.lock = true) (b : Byte) : Running (s.tx8 b) := by
  rw [State.tx8_eq]
  refine ⟨?_, ?_, ?_, h.driven, h.begun, h.delay, h.request, fun _ => rfl⟩
  · show (if s.sinkListens then s.sink.receive s.pins.dc b else s.sink).panel.wf = true
    split
    · exact Sink.receive_wf _ _ _ h.panel
    · exact h.panel
  · show lockAfter false (Event.tx8 b :: s.traceRev).reverse = some s.lock
    rw [List.reverse_cons]
    have := lockAfter_snoc h.lock (.tx8 b)
    rw [State.trace] at this
    rw [this, hl]; rfl
  · intro e he
    have he' : e ∈ (Event.tx8 b :: s.traceRev).reverse := he
    rw [List.reverse_cons, List.mem_append, List.mem_singleton] at he'
    rcases he' with he' | rfl
    · exact h.straps _ he'
    · rfl

theorem Running.driveRst_op {s : State} (h : Running s) (hr : s.hasRst = true) (l : Bool) : Running (s.driveRst l) := by
  refine Running.event (s := { s with pins := { s.pins with rstN := l }, sink := if l then s.sink else s.sink.resetPulse })
    ⟨?_, h.2, h.3, h.4, h.5, h.6, h.7, h.8⟩ (e := .rst l) (by cases hl : s.lock <;> rfl) hr
  cases l
  · rfl
  · exact h.panel

theorem Running.rstPulse_op {s : State} (h : Running s) (hr : s.hasRst = true) : Running s.rstPulse :=
  (((h.driveRst_op hr false).delay_op _).driveRst_op hr true).delay_op _

/-- Frames on a free bus. -/
theorem Running.sent {s : State} (h : Running s) (hl : s.lock = false) (fs : List Frame) : Running (s.sent fs) := by
  have hp : ∀ (fs : List Frame) (p : Pins) (hc : Bool), (fs.foldl (Pins.afterFrame hc) p).dcOe = p.dcOe ∧
      (fs.foldl (Pins.afterFrame hc) p).sckOe = p.sckOe ∧ (fs.foldl (Pins.afterFrame hc) p).mosiOe = p.mosiOe ∧
      (fs.foldl (Pins.afterFrame hc) p).csNOe = p.csNOe ∧ (fs.foldl (Pins.afterFrame hc) p).rstNOe = p.rstNOe ∧
      (p.sck = false → (fs.foldl (Pins.afterFrame hc) p).sck = false) := by
    intro fs
    induction fs with
    | nil => exact fun p hc => ⟨rfl, rfl, rfl, rfl, rfl, id⟩
    | cons f fs ih =>
      intro p hc
      obtain ⟨a1, a2, a3, a4, a5, a6⟩ := ih (p.afterFrame hc f) hc
      exact ⟨a1, a2, a3, a4, a5, fun _ => a6 rfl⟩
  obtain ⟨a1, a2, a3, a4, a5, a6⟩ := hp fs s.pins s.hasCs
  refine ⟨Sink.frames_wf _ _ _ h.panel, ?_, ?_, ?_, h.begun, h.delay, fun h' => ?_, fun hb => a6 (h.clock hb)⟩
  · rw [State.sent_trace, lockAfter_append, h.lock]
    have := lockAfter_frames s.hasCs fs []
    rw [List.append_nil] at this
    show lockAfter s.lock (framesEvents s.hasCs fs) = some s.lock
    rw [hl, this]; rfl
  · intro e he
    rw [State.sent_trace, List.mem_append] at he
    rcases he with he | he
    · exact h.straps _ he
    · exact allowed_frames _ _ _ _ he
  · obtain ⟨b1, b2, b3, b4, b5⟩ := h.driven
    exact ⟨a1.trans b1, a2.trans b2, a3.trans b3, a4.trans b4, a5.trans b5⟩
  · have h'' : s.lock = true := h'
    rw [hl] at h''; cases h''

-- Sequences of operations

/-- What a sequence of operations keeps, from a state whose lines are driven, however it ends. -/
def Res.Keeps (s : State) : Res → Prop
  | .done t => Running t ∧ t.begun = true ∧ t.hasRst = s.hasRst ∧ t.busy = s.busy
  | .hung t => Running t ∧ t.lock = false ∧ t.busReq = true ∧ t.busy = s.busy
  | .refused _ => True

/-- A sequence of operations keeps what it should from every state of its own kind. -/
def Keeping (f : State → Res) : Prop := ∀ s, Running s → s.begun = true → (f s).Keeps s

theorem Keeping.andThen {f g : State → Res} (hf : Keeping f) (hg : Keeping g) : Keeping fun s => (f s).andThen g := by
  intro s h hb
  have := hf s h hb
  show Res.Keeps s ((f s).andThen g)
  cases hr : f s with
  | done t =>
    rw [hr] at this
    have hk := hg t this.1 this.2.1
    rw [Res.andThen]
    cases hr' : g t with
    | done u => rw [hr'] at hk; exact ⟨hk.1, hk.2.1, hk.2.2.1.trans this.2.2.1, hk.2.2.2.trans this.2.2.2⟩
    | hung u => rw [hr'] at hk; exact ⟨hk.1, hk.2.1, hk.2.2.1, hk.2.2.2.trans this.2.2.2⟩
    | refused r => trivial
  | hung t => rw [hr] at this; exact this
  | refused r => trivial

/-- A change of the state that keeps what it should. -/
def KeepingState (f : State → State) : Prop :=
  ∀ s, Running s → s.begun = true → Running (f s) ∧ (f s).begun = true ∧ (f s).hasRst = s.hasRst ∧ (f s).busy = s.busy

theorem KeepingState.res {f : State → State} (hf : KeepingState f) : Keeping fun s => .done (f s) := fun s h hb => hf s h hb

theorem Keeping.map {f : State → Res} {g : State → State} (hf : Keeping f) (hg : KeepingState g) :
    Keeping fun s => (f s).map g := by
  intro s h hb
  have : Res.Keeps s ((f s).andThen fun s => .done (g s)) := hf.andThen hg.res s h hb
  show Res.Keeps s ((f s).map g)
  cases hr : f s with
  | done t => rw [hr] at this; exact this
  | hung t => rw [hr] at this; exact this
  | refused r => trivial

theorem Keeping.comp {f : State → Res} {g : State → State} (hf : Keeping f) (hg : KeepingState g) : Keeping fun s => f (g s) := by
  intro s h hb
  obtain ⟨h1, h2, h3, h4⟩ := hg s h hb
  have := hf (g s) h1 h2
  show Res.Keeps s (f (g s))
  cases hr : f (g s) with
  | done t => rw [hr] at this; exact ⟨this.1, this.2.1, this.2.2.1.trans h3, this.2.2.2.trans h4⟩
  | hung t => rw [hr] at this; exact ⟨this.1, this.2.1, this.2.2.1, this.2.2.2.trans h4⟩
  | refused r => trivial

/-- Working registers, the scratch line and the count of free values are no part of it. -/
theorem keeping_regs {f : State → State}
    (h : ∀ s, ∃ work line fc, f s = s.withRegs work line fc) : KeepingState f := by
  intro s hs hb
  obtain ⟨work, line, fc, e⟩ := h s
  rw [e]
  exact ⟨hs.of_eq rfl rfl rfl ⟨rfl, rfl⟩ rfl rfl rfl rfl rfl, hb, rfl, rfl⟩

theorem keeping_delay (n : Nat) : KeepingState (State.delay n) := fun _ hs hb => ⟨hs.delay_op n, hb, rfl, rfl⟩

theorem keeping_setPstate (p : PState) : KeepingState (State.setPstate p) := fun _ hs hb =>
  ⟨⟨hs.1, hs.2, hs.3, hs.4, fun _ => hb, hs.6, hs.7, hs.8⟩, hb, rfl, rfl⟩

/-- A transaction keeps it. -/
theorem keeping_txn (c : Byte) (payload : List Byte) : Keeping (txn c payload) := by
  intro s h hb
  rcases txn_cases c payload s with ⟨_, h2, _, e⟩ | ⟨n, _, h2, _, e⟩ | ⟨_, h2, _, e⟩ | ⟨_, e⟩ | ⟨_, _, e⟩ <;> rw [e]
  · exact ⟨h.sent h2 _, hb, rfl, rfl⟩
  · exact ⟨Running.sent (s := { s with grants := some n }) (h.of_eq rfl rfl rfl ⟨rfl, rfl⟩ rfl rfl rfl rfl rfl) h2 _, hb, rfl, rfl⟩
  · exact ⟨⟨h.1, h.2, h.3, h.4, h.5, h.6, fun _ => rfl, h.8⟩, h2, rfl, rfl⟩
  · trivial
  · trivial

theorem keeping_select (x y w h : Nat) : Keeping (select x y w h) := (keeping_txn _ _).andThen (keeping_txn _ _)

theorem keeping_sendDataRep (v : Half) (n : Nat) : Keeping (sendDataRep v n) :=
  ((keeping_txn _ _).comp (keeping_regs fun _ => ⟨_, _, _, rfl⟩)).map (keeping_regs fun _ => ⟨_, _, _, rfl⟩)

theorem keeping_done : Keeping .done := fun _ h hb => ⟨h, hb, rfl, rfl⟩

theorem keeping_fill (x y w h : Nat) (color : Half) : Keeping (fill x y w h color) := by
  unfold fill
  cases clip x y w h with
  | none => exact keeping_done
  | some p =>
    exact ((keeping_select x y p.1 p.2).comp (keeping_regs fun _ => ⟨_, _, _, rfl⟩)).andThen (keeping_sendDataRep color (p.1 * p.2))

theorem fetchPixels_regs (base n col : Nat) (s : State) :
    ∃ work line fc, (fetchPixels base n col s).2 = s.withRegs work line fc := by
  obtain ⟨g, fc, e, -⟩ := fetchPixels_spec base n col s
  exact ⟨_, _, _, by rw [e]⟩

/-- Pixels that were fetched, sent. -/
theorem keeping_fetchSend (base n : Nat) :
    Keeping fun s => let v := fetchPixels base n 0 s; sendData16 v.1 v.2 := by
  intro s h hb
  obtain ⟨work, line, fc, e⟩ := fetchPixels_regs base n 0 s
  have h1 : Running (fetchPixels base n 0 s).2 := by rw [e]; exact h.of_eq rfl rfl rfl ⟨rfl, rfl⟩ rfl rfl rfl rfl rfl
  have h2 : (fetchPixels base n 0 s).2.begun = true := by rw [e]; exact hb
  have h3 : (fetchPixels base n 0 s).2.hasRst = s.hasRst := by rw [e]; rfl
  have h4 : (fetchPixels base n 0 s).2.busy = s.busy := by rw [e]; rfl
  have := keeping_txn 0x2C#8 (pixelBytes (fetchPixels base n 0 s).1) _ h1 h2
  show Res.Keeps s (txn 0x2C#8 (pixelBytes (fetchPixels base n 0 s).1) (fetchPixels base n 0 s).2)
  cases hr : txn 0x2C#8 (pixelBytes (fetchPixels base n 0 s).1) (fetchPixels base n 0 s).2 with
  | done t => rw [hr] at this; exact ⟨this.1, this.2.1, this.2.2.1.trans h3, this.2.2.2.trans h4⟩
  | hung t => rw [hr] at this; exact ⟨this.1, this.2.1, this.2.2.1, this.2.2.2.trans h4⟩
  | refused r => trivial

theorem keeping_blitRows (x y w wc src n row : Nat) : Keeping (blitRows x y w wc src n row) := by
  induction n generalizing row with
  | zero => exact keeping_done
  | succ n ih =>
    exact (((keeping_select _ _ _ _).comp (keeping_regs fun _ => ⟨_, _, _, rfl⟩)).andThen (keeping_fetchSend _ _)).andThen (ih _)

theorem keeping_blit (x y w h src : Nat) : Keeping (blit x y w h src) := by
  unfold blit
  cases clip x y w h with
  | none => exact keeping_done
  | some p => exact (keeping_blitRows _ _ _ _ _ _ _).comp (keeping_regs fun _ => ⟨_, _, _, rfl⟩)

theorem keeping_expandRow (source : BitmapSource) (base : Int) (w row : Nat) (fg bg : Half) (n col : Nat) :
    KeepingState (expandRow source base w row fg bg n col) :=
  keeping_regs fun s => by
    obtain ⟨g, fc, e, -⟩ := expandRow_spec source base w row fg bg n col s
    exact ⟨_, _, _, e⟩

theorem keeping_sendLine (n : Nat) : Keeping fun s => sendData16 (s.lineTake n) s :=
  fun s h hb => keeping_txn 0x2C#8 (pixelBytes (s.lineTake n)) s h hb

theorem KeepingState.comp {f g : State → State} (hf : KeepingState f) (hg : KeepingState g) : KeepingState fun s => f (g s) := by
  intro s h hb
  obtain ⟨h1, h2, h3, h4⟩ := hg s h hb
  obtain ⟨g1, g2, g3, g4⟩ := hf (g s) h1 h2
  exact ⟨g1, g2, g3.trans h3, g4.trans h4⟩

theorem keeping_monoRows (source : BitmapSource) (base : Int) (x y w wc : Nat) (fg bg : Half) (n row : Nat) :
    Keeping (monoRows source base x y w wc fg bg n row) := by
  induction n generalizing row with
  | zero => exact keeping_done
  | succ n ih =>
    exact (((keeping_select _ _ _ _).comp ((keeping_expandRow _ _ _ _ _ _ _ _).comp (keeping_regs fun _ => ⟨_, _, _, rfl⟩))).andThen
      (keeping_sendLine _)).andThen (ih _)

theorem keeping_monoBlit (source : BitmapSource) (base : Int) (x y w h : Nat) (fg bg : Half) :
    Keeping (monoBlit source base x y w h fg bg) := by
  unfold monoBlit
  cases clip x y w h with
  | none => exact keeping_done
  | some p => exact (keeping_monoRows _ _ _ _ _ _ _ _ _ _).comp (keeping_regs fun _ => ⟨_, _, _, rfl⟩)

theorem keeping_drawChar (x y : Nat) (ch : Byte) (fg bg : Half) : Keeping (drawChar x y ch fg bg) :=
  ((keeping_monoBlit _ _ _ _ _ _ _ _).comp (keeping_regs fun _ => ⟨_, _, _, rfl⟩)).andThen
    ((keeping_fill _ _ _ _ _).comp (keeping_regs fun _ => ⟨_, _, _, rfl⟩))

theorem readText_regs (i : Nat) (s : State) : ∃ work line fc, (readText i s).2 = s.withRegs work line fc := by
  unfold readText
  split
  · exact ⟨s.work, s.line, s.freeCtr, rfl⟩
  · exact ⟨s.work, s.line, s.freeCtr + 1, rfl⟩

theorem keeping_drawChars (y src : Nat) (fg bg : Half) (n cidx curx : Nat) : Keeping (drawChars y src fg bg n cidx curx) := by
  induction n generalizing cidx curx with
  | zero => exact keeping_done
  | succ n ih =>
    by_cases hx : Config.panelW ≤ curx
    · have e : drawChars y src fg bg (n + 1) cidx curx = fun s => .done (s.setCidx cidx) := by
        funext s; simp only [drawChars, hx, if_true]
      rw [e]
      exact (keeping_done).comp (g := State.setCidx cidx) (keeping_regs fun _ => ⟨_, _, _, rfl⟩)
    · have e : drawChars y src fg bg (n + 1) cidx curx = fun s =>
          (drawChar curx y (readText (src + cidx) (s.setCidx cidx)).1 fg bg (readText (src + cidx) (s.setCidx cidx)).2).andThen
            fun s => drawChars y src fg bg n (cidx + 1) (curx + Config.glyphW + Config.gapW)
              (s.setCurx (curx + Config.glyphW + Config.gapW)) := by
        funext s; simp only [drawChars, hx, if_false]
      rw [e]
      have hr : KeepingState fun s => (readText (src + cidx) s).2 := keeping_regs fun s => readText_regs _ s
      have hd : Keeping fun s => drawChar curx y (readText (src + cidx) s).1 fg bg (readText (src + cidx) s).2 := by
        intro s h hb
        exact ((keeping_drawChar curx y (readText (src + cidx) s).1 fg bg).comp hr) s h hb
      exact (hd.comp (g := State.setCidx cidx) (keeping_regs fun _ => ⟨_, _, _, rfl⟩)).andThen
        ((ih _ _).comp (keeping_regs fun _ => ⟨_, _, _, rfl⟩))

theorem keeping_drawString (x y src len : Nat) (fg bg : Half) : Keeping (drawString x y src len fg bg) :=
  (keeping_drawChars _ _ _ _ _ _ _).comp (keeping_regs fun _ => ⟨_, _, _, rfl⟩)

theorem keeping_resetAction : Keeping resetAction := by
  intro s h hb
  show Res.Keeps s (resetAction s)
  unfold resetAction
  split
  · rename_i hr
    exact ⟨h.rstPulse_op hr, hb, rfl, rfl⟩
  · exact ((keeping_txn _ _).map (keeping_delay _)) s h hb

theorem keeping_panelReset : Keeping panelReset :=
  (((((((((keeping_resetAction.comp (keeping_setPstate _)).andThen (keeping_txn _ _)).map (keeping_delay _)).andThen
    (keeping_txn _ _)).andThen (keeping_txn _ _)).andThen (keeping_txn _ _)).andThen
    ((keeping_fill _ _ _ _ _).comp (keeping_regs fun _ => ⟨_, _, _, rfl⟩))).andThen (keeping_txn _ _)).map (keeping_setPstate _))

theorem keeping_power (on : Bool) : Keeping (power on) := by
  cases on
  · exact ((keeping_txn _ _).andThen (keeping_txn _ _)).map ((keeping_setPstate _).comp (keeping_delay _))
  · exact (((keeping_txn _ _).map (keeping_delay _)).andThen (keeping_txn _ _)).map (keeping_setPstate _)

theorem keeping_flip (on : Bool) : Keeping (flip on) := by
  cases on <;> exact keeping_txn _ _

theorem keeping_inverse (on : Bool) : Keeping (inverse on) := by
  cases on <;> exact keeping_txn _ _

/-- BEGIN drives the lines and then resets the panel (44_lifecycle.md R243). -/
theorem keeps_begin {s : State} (h : Running s) : (beginAll s).Keeps s := by
  have hl : ∀ l : Bool, lockAfter l [.pinCfg] = some l ∧ lockAfter l [.busInit] = some l := fun l => by cases l <;> exact ⟨rfl, rfl⟩
  refine keeping_panelReset { s.pinCfg.busInit with begun := true } ⟨h.panel, ?_, ?_, ?_, fun _ => rfl, h.delay, h.request, fun _ => rfl⟩ rfl
  · have et : ({ s.pinCfg.busInit with begun := true } : State).trace = s.trace ++ [.pinCfg] ++ [.busInit] := by
      simp [State.trace, State.busInit, State.pinCfg, State.emit]
    rw [et, lockAfter_snoc (l := s.lock), (hl _).2]
    · rfl
    · rw [lockAfter_snoc h.lock, (hl _).1]
  · intro e he
    have he' : e ∈ s.traceRev.reverse ++ [Event.pinCfg] ++ [Event.busInit] := by
      simpa [State.trace, State.busInit, State.pinCfg, State.emit] using he
    simp only [List.mem_append, List.mem_singleton] at he'
    rcases he' with (he' | rfl) | rfl
    · exact h.straps _ he'
    · rfl
    · rfl
  · exact ⟨rfl, rfl, rfl, by simp [State.busInit, State.pinCfg, State.emit], by simp [State.busInit, State.pinCfg, State.emit]⟩

end Sys2Proof.Machine
end

