-- ==== Sys2Proof/Laws/Settled.lean ====
section
/-! SUPPORT. No request leaves the sink in the middle of a frame, whether it ends or waits for a grant (41_addressing.md R176). -/
namespace Sys2Proof.Machine

/-- However a sequence of operations from a `P` state ends: in a `Q` state, or waiting with the sink settled. -/
def Ending (P Q : State → Prop) (f : State → Res) : Prop :=
  ∀ s, P s → match f s with
    | .done t => Q t
    | .hung t => SinkSettled t
    | .refused _ => True

theorem Ending.andThen {P Q R : State → Prop} {f g : State → Res} (hf : Ending P Q f) (hg : Ending Q R g) :
    Ending P R fun s => (f s).andThen g := by
  intro s h
  have := hf s h
  cases hr : f s with
  | done t => rw [hr] at this; simpa only [hr, Res.andThen] using hg t this
  | hung t => rw [hr] at this; simpa only [hr, Res.andThen] using this
  | refused r => simp only [hr, Res.andThen]

theorem Ending.map {P Q R : State → Prop} {f : State → Res} {g : State → State} (hf : Ending P Q f) (hg : ∀ s, Q s → R (g s)) :
    Ending P R fun s => (f s).map g := by
  intro s h
  have := hf s h
  cases hr : f s with
  | done t => rw [hr] at this; simpa only [hr, Res.map] using hg t this
  | hung t => rw [hr] at this; simpa only [hr, Res.map] using this
  | refused r => simp only [hr, Res.map]

theorem Ending.comp {P Q R : State → Prop} {f : State → Res} {g : State → State} (hf : Ending Q R f) (hg : ∀ s, P s → Q (g s)) :
    Ending P R fun s => f (g s) := fun s h => hf (g s) (hg s h)

theorem ending_done {P : State → Prop} : Ending P P .done := fun _ h => h

/-- Working registers, the scratch line and the count of free values are no part of it. -/
theorem settled_regs {f : State → State} (h : ∀ s, ∃ work line fc, f s = s.withRegs work line fc) (s : State)
    (hs : SinkSettled s) : SinkSettled (f s) := by
  obtain ⟨work, line, fc, e⟩ := h s
  rw [e]; exact hs

/-- One transaction, by what its frame does to the sink. -/
theorem ending_txn {P Q : Sink → Prop} (c : Byte) (payload : List Byte) (hp : ∀ k, P k → k.frameComplete = true)
    (hq : ∀ k ended, P k → Q (k.frame ended c payload)) :
    Ending (fun s => P s.sink) (fun s => Q s.sink) (txn c payload) := by
  intro s h
  rcases txn_cases c payload s with ⟨_, _, _, e⟩ | ⟨n, _, _, _, e⟩ | ⟨_, _, _, e⟩ | ⟨_, e⟩ | ⟨_, _, e⟩ <;> rw [e]
  · exact hq _ _ h
  · exact hq _ _ h
  · exact hp _ h
  · trivial
  · trivial

/-- A command without a payload. -/
theorem Sink.settled_frame_nil (k : Sink) (ended : Bool) (c : Byte)
    (h : ((k.endFrame).decodeCommand c).expect = .nothing) : (k.frame ended c []).frameComplete = true := by
  rw [Sink.frame_of (k' := (k.endFrame).decodeCommand c) ended rfl h, Sink.frameComplete, h]

theorem ending_sendCmd0 (c : Byte) (h : ∀ k : Sink, (k.decodeCommand c).expect = .nothing) :
    Ending SinkSettled SinkSettled (sendCmd0 c) :=
  ending_txn (P := fun k => k.frameComplete = true) (Q := fun k => k.frameComplete = true) c [] (fun _ h => h)
    fun k ended _ => Sink.settled_frame_nil k ended c (h _)

theorem ending_orient (a : Byte) : Ending SinkSettled SinkSettled (sendCmd1 0x36#8 a) :=
  ending_txn (P := fun k => k.frameComplete = true) (Q := fun k => k.frameComplete = true) _ _ (fun _ h => h)
    fun k ended hk => by rw [Sink.frame_orient ended a hk]; rfl

theorem ending_colMode (a : Byte) : Ending SinkSettled SinkSettled (sendCmd1 0x3A#8 a) :=
  ending_txn (P := fun k => k.frameComplete = true) (Q := fun k => k.frameComplete = true) _ _ (fun _ h => h)
    fun k ended hk => by rw [Sink.frame_colMode ended a hk]; rfl

/-- Nothing is expected, and the window has the columns of `w` pixels at `x`. -/
structure Sink.Columns (x w : Nat) (k : Sink) : Prop where
  nothing : k.expect = .nothing
  left : k.winXS = halfOf 0x00#8 (BitVec.ofNat 8 x)
  right : k.winXE = halfOf 0x00#8 (BitVec.ofNat 8 (x + w - 1))

/-- Nothing is expected, and the window is that of `w × h` pixels at `x`, `y`. -/
structure Sink.Windowed (x y w h : Nat) (k : Sink) : Prop where
  columns : k.Columns x w
  top : k.winYS = halfOf 0x00#8 (BitVec.ofNat 8 (y + 24))
  bottom : k.winYE = halfOf 0x00#8 (BitVec.ofNat 8 (y + h + 23))

theorem Sink.settled_of_nothing {k : Sink} (h : k.expect = .nothing) : k.frameComplete = true := by
  rw [Sink.frameComplete, h]

theorem ending_select (x y w h : Nat) (hh : 1 ≤ h) :
    Ending SinkSettled (fun s => s.sink.Windowed x y w h) (select x y w h) := by
  refine Ending.andThen (Q := fun s => s.sink.Columns x w) ?_ ?_
  · exact ending_txn (P := fun k => k.frameComplete = true) (Q := fun k => k.Columns x w) _ _ (fun _ h => h)
      fun k ended hk => by
        show (k.frame ended 0x2A#8 [0x00#8, BitVec.ofNat 8 (x + 0), 0x00#8, BitVec.ofNat 8 (x + w - 1 + 0)]).Columns x w
        rw [Sink.frame_columns ended _ _ _ _ hk]; exact ⟨rfl, rfl, rfl⟩
  · exact ending_txn (P := fun k => k.Columns x w) (Q := fun k => k.Windowed x y w h) _ _
      (fun k h => Sink.settled_of_nothing h.nothing)
      fun k ended hk => by
        have e : y + h - 1 + 24 = y + h + 23 := by omega
        show (k.frame ended 0x2B#8 [0x00#8, BitVec.ofNat 8 (y + 24), 0x00#8, BitVec.ofNat 8 (y + h - 1 + 24)]).Windowed x y w h
        rw [Sink.frame_rows ended _ _ _ _ (Sink.settled_of_nothing hk.nothing), e]
        exact ⟨⟨rfl, hk.left, hk.right⟩, rfl, rfl⟩

/-- Bytes after an unspecified input leave the sink so. -/
theorem Sink.data_unspecified (bs : List Byte) {k : Sink} (h : k.expect = .unspecified) :
    (bs.foldl Sink.data k).expect = .unspecified := by
  induction bs generalizing k with
  | nil => exact h
  | cons b bs ih => exact ih (by simp [Sink.data, h])

/-- A full stream into the window, whatever the colour mode is. -/
theorem Sink.stream_settled (k : Sink) (ended : Bool) {x y w h : Nat} (px : List Half) (hk : k.Windowed x y w h) (h1 : 1 ≤ w)
    (h2 : 1 ≤ h) (h3 : x + w ≤ 160) (h4 : y + h ≤ 80) (hp : px.length = w * h) :
    (k.frame ended 0x2C#8 (pixelBytes px)).frameComplete = true := by
  by_cases hm : k.colMode = 0x05#8
  · have hk' : k.setWindow x y w h = { k with writing := false } := by
      obtain ⟨⟨e1, e2, e3⟩, e4, e5⟩ := hk
      rw [Sink.setWindow, ← e1, ← e2, ← e3, ← e4, ← e5]
    have h0 := Sink.frames_windowedWrite k ended x y w h px (Sink.settled_of_nothing hk.columns.nothing) hm h1 h2 h3 h4 hp
    rw [windowedWrite, Sink.frames_append, Sink.frames_window k ended x y w h (Sink.settled_of_nothing hk.columns.nothing), hk',
      Sink.frames_cons, Sink.frames_nil] at h0
    have e : ({ k with writing := false } : Sink).frame ended 0x2C#8 (pixelBytes px) = k.frame ended 0x2C#8 (pixelBytes px) := by
      simp only [Sink.frame]
      rw [Sink.command_nothing (k := { k with writing := false }) _ hk.columns.nothing, Sink.command_nothing (k := k) _ hk.columns.nothing,
        Sink.decodeCommand_2C, Sink.decodeCommand_2C]
    rw [← e, h0]
    exact Sink.painted_settled hm h1 h2 h3 h4 ended
  · cases px with
    | nil =>
      have : 1 * 1 ≤ w * h := Nat.mul_le_mul h1 h2
      simp at hp; omega
    | cons v vs =>
      have hu : ((pixelBytes (v :: vs)).foldl Sink.data (k.command 0x2C#8)).expect = .unspecified := by
        rw [pixelBytes_cons, List.foldl_cons, List.foldl_cons]
        refine Sink.data_unspecified _ ?_
        rw [Sink.command_nothing _ hk.columns.nothing, Sink.decodeCommand_2C]
        simp [Sink.data, Sink.writePixel, Config.colMode16, hm]
      unfold Sink.frame
      generalize (pixelBytes (v :: vs)).foldl Sink.data (k.command 0x2C#8) = k1 at hu
      cases ended with
      | false => simp [Sink.frameComplete, hu]
      | true => simp only [if_true, Sink.endFrame, hu, Sink.frameComplete]

/-- A window selected, then a full stream of its pixels. -/
theorem ending_stream {x y w h : Nat} (px : List Half) (h1 : 1 ≤ w) (h2 : 1 ≤ h) (h3 : x + w ≤ 160) (h4 : y + h ≤ 80)
    (hp : px.length = w * h) : Ending (fun s => s.sink.Windowed x y w h) SinkSettled (sendData16 px) :=
  ending_txn (P := fun k => k.Windowed x y w h) (Q := fun k => k.frameComplete = true) _ _
    (fun _ hk => Sink.settled_of_nothing hk.columns.nothing) fun k ended hk => Sink.stream_settled k ended px hk h1 h2 h3 h4 hp

theorem ending_fill (x y w h : Nat) (color : Half) : Ending SinkSettled SinkSettled (fill x y w h color) := by
  unfold fill
  cases hc : clip x y w h with
  | none => exact ending_done
  | some p =>
    obtain ⟨wc, hc'⟩ := p
    obtain ⟨b1, b2, b3, b4, -⟩ := clip_eq_some hc
    refine ((ending_select x y wc hc' b2).comp (settled_regs fun _ => ⟨_, _, _, rfl⟩)).andThen ?_
    exact ((ending_stream (List.replicate (wc * hc') color) b1 b2 b3 b4 (by simp)).comp (g := State.setCnt (wc * hc'))
      (fun _ h => h)).map fun _ h => h

theorem ending_fetchSend {x y : Nat} (base n : Nat) (h1 : 1 ≤ n) (h3 : x + n ≤ 160) (h4 : y + 1 ≤ 80) :
    Ending (fun s => s.sink.Windowed x y n 1) SinkSettled fun s => let v := fetchPixels base n 0 s; sendData16 v.1 v.2 := by
  intro s h
  obtain ⟨g, fc, e, -⟩ := fetchPixels_spec base n 0 s
  have := ending_stream (x := x) (y := y) (w := n) (h := 1) (fetchPixels base n 0 s).1 h1 (Nat.le_refl 1) h3 h4 (by rw [e]; simp)
    (fetchPixels base n 0 s).2 (by rw [e]; exact h)
  exact this

theorem ending_blitRows (x y w wc src n row : Nat) (h1 : 1 ≤ wc) (h3 : x + wc ≤ 160) (h4 : y + row + n ≤ 80) :
    Ending SinkSettled SinkSettled (blitRows x y w wc src n row) := by
  induction n generalizing row with
  | zero => exact ending_done
  | succ n ih =>
    exact (((ending_select x (y + row) wc 1 (Nat.le_refl 1)).comp (settled_regs fun _ => ⟨_, _, _, rfl⟩)).andThen
      (ending_fetchSend _ _ h1 h3 (by omega))).andThen (ih _ (by omega))

theorem ending_blit (x y w h src : Nat) : Ending SinkSettled SinkSettled (blit x y w h src) := by
  unfold blit
  cases hc : clip x y w h with
  | none => exact ending_done
  | some p =>
    obtain ⟨wc, hc'⟩ := p
    obtain ⟨b1, b2, b3, b4, -⟩ := clip_eq_some hc
    exact (ending_blitRows _ _ _ _ _ _ _ b1 b3 (by omega)).comp (settled_regs fun _ => ⟨_, _, _, rfl⟩)

theorem ending_sendLine {x y n : Nat} (h1 : 1 ≤ n) (h3 : x + n ≤ 160) (h4 : y + 1 ≤ 80) :
    Ending (fun s => s.sink.Windowed x y n 1) SinkSettled fun s => sendData16 (s.lineTake n) s := fun s h =>
  ending_stream (x := x) (y := y) (w := n) (h := 1) (s.lineTake n) h1 (Nat.le_refl 1) h3 h4 (by simp [State.lineTake]; omega) s h

theorem ending_monoRows (source : BitmapSource) (base : Int) (x y w wc : Nat) (fg bg : Half) (n row : Nat) (h1 : 1 ≤ wc)
    (h3 : x + wc ≤ 160) (h4 : y + row + n ≤ 80) : Ending SinkSettled SinkSettled (monoRows source base x y w wc fg bg n row) := by
  induction n generalizing row with
  | zero => exact ending_done
  | succ n ih =>
    refine (((ending_select x (y + row) wc 1 (Nat.le_refl 1)).comp
      (g := fun s => expandRow source base w row fg bg wc 0 (s.setRow row)) fun s hs => ?_).andThen
      (ending_sendLine h1 h3 (by omega))).andThen (ih _ (by omega))
    obtain ⟨g, fc, e, -⟩ := expandRow_spec source base w row fg bg wc 0 (s.setRow row)
    rw [e]; exact hs

theorem ending_monoBlit (source : BitmapSource) (base : Int) (x y w h : Nat) (fg bg : Half) :
    Ending SinkSettled SinkSettled (monoBlit source base x y w h fg bg) := by
  unfold monoBlit
  cases hc : clip x y w h with
  | none => exact ending_done
  | some p =>
    obtain ⟨wc, hc'⟩ := p
    obtain ⟨b1, b2, b3, b4, -⟩ := clip_eq_some hc
    exact (ending_monoRows _ _ _ _ _ _ _ _ _ _ b1 b3 (by omega)).comp (settled_regs fun _ => ⟨_, _, _, rfl⟩)

theorem ending_drawChar (x y : Nat) (ch : Byte) (fg bg : Half) : Ending SinkSettled SinkSettled (drawChar x y ch fg bg) :=
  ((ending_monoBlit _ _ _ _ _ _ _ _).comp (settled_regs fun _ => ⟨_, _, _, rfl⟩)).andThen
    ((ending_fill _ _ _ _ _).comp (settled_regs fun _ => ⟨_, _, _, rfl⟩))

theorem ending_drawChars (y src : Nat) (fg bg : Half) (n cidx curx : Nat) :
    Ending SinkSettled SinkSettled (drawChars y src fg bg n cidx curx) := by
  induction n generalizing cidx curx with
  | zero => exact ending_done
  | succ n ih =>
    by_cases hx : Config.panelW ≤ curx
    · have e : drawChars y src fg bg (n + 1) cidx curx = fun s => .done (s.setCidx cidx) := by
        funext s; simp only [drawChars, hx, if_true]
      rw [e]
      exact ending_done.comp (g := State.setCidx cidx) (settled_regs fun _ => ⟨_, _, _, rfl⟩)
    · have e : drawChars y src fg bg (n + 1) cidx curx = fun s =>
          (drawChar curx y (readText (src + cidx) (s.setCidx cidx)).1 fg bg (readText (src + cidx) (s.setCidx cidx)).2).andThen
            fun s => drawChars y src fg bg n (cidx + 1) (curx + Config.glyphW + Config.gapW)
              (s.setCurx (curx + Config.glyphW + Config.gapW)) := by
        funext s; simp only [drawChars, hx, if_false]
      rw [e]
      have hd : Ending SinkSettled SinkSettled fun s => drawChar curx y (readText (src + cidx) s).1 fg bg (readText (src + cidx) s).2 :=
        fun s h => ending_drawChar curx y (readText (src + cidx) s).1 fg bg _ (by
          obtain ⟨work, line, fc, e⟩ := readText_regs (src + cidx) s
          rw [e]; exact h)
      exact (hd.comp (g := State.setCidx cidx) (settled_regs fun _ => ⟨_, _, _, rfl⟩)).andThen
        ((ih _ _).comp (settled_regs fun _ => ⟨_, _, _, rfl⟩))

theorem ending_drawString (x y src len : Nat) (fg bg : Half) : Ending SinkSettled SinkSettled (drawString x y src len fg bg) :=
  (ending_drawChars _ _ _ _ _ _ _).comp (settled_regs fun _ => ⟨_, _, _, rfl⟩)

theorem ending_resetAction : Ending SinkSettled SinkSettled resetAction := by
  intro s h
  by_cases hr : s.hasRst = true
  · have e : resetAction s = .done s.rstPulse := by simp only [resetAction, hr, if_true]
    rw [e]; exact (rfl : s.sink.resetPulse.frameComplete = true)
  · have e : resetAction s = (sendCmd0 0x01#8 s).map (State.delay Config.tSwReset) := by simp only [resetAction, hr, Bool.false_eq_true, if_false]
    rw [e]
    exact ((ending_sendCmd0 0x01#8 fun _ => rfl).map (R := SinkSettled) (g := State.delay Config.tSwReset) (fun _ h => h)) s h

theorem ending_panelReset : Ending SinkSettled SinkSettled panelReset :=
  (((((((((ending_resetAction.comp (P := SinkSettled) (g := State.setPstate .uninit) (fun _ h => h)).andThen
    (ending_sendCmd0 0x11#8 fun _ => rfl)).map (g := State.delay Config.tSlpOut) (fun _ h => h)).andThen (ending_orient _)).andThen
    (ending_colMode _)).andThen (ending_sendCmd0 0x13#8 fun _ => rfl)).andThen
    ((ending_fill _ _ _ _ _).comp (settled_regs fun _ => ⟨_, _, _, rfl⟩))).andThen
    (ending_sendCmd0 0x29#8 fun _ => rfl)).map fun _ h => h)

theorem ending_begin : Ending SinkSettled SinkSettled beginAll :=
  ending_panelReset.comp (P := SinkSettled) (g := fun s => { s.pinCfg.busInit with begun := true }) fun _ h => h

theorem ending_power (on : Bool) : Ending SinkSettled SinkSettled (power on) := by
  cases on
  · exact ((ending_sendCmd0 0x28#8 fun _ => rfl).andThen (ending_sendCmd0 0x10#8 fun _ => rfl)).map fun _ h => h
  · exact (((ending_sendCmd0 0x11#8 fun _ => rfl).map (g := State.delay Config.tSlpOut) (fun _ h => h)).andThen
      (ending_sendCmd0 0x29#8 fun _ => rfl)).map fun _ h => h

theorem ending_flip (on : Bool) : Ending SinkSettled SinkSettled (flip on) := by
  cases on <;> exact ending_orient _

theorem ending_inverse (on : Bool) : Ending SinkSettled SinkSettled (inverse on) := by
  cases on
  · exact ending_sendCmd0 0x20#8 fun _ => rfl
  · exact ending_sendCmd0 0x21#8 fun _ => rfl

end Sys2Proof.Machine
end

