-- ==== Sys2Proof/Laws/BringUp.lean ====
section
/-! SUPPORT. What RESET leaves in the trace, the lines, the registers and the sink (44_lifecycle.md R244, R245, R252). -/
namespace Sys2Proof.Machine

/-- The events of RESET (44_lifecycle.md R245). -/
theorem State.afterReset_trace (s : State) : s.afterReset.trace = s.trace ++ resetEvents s.hasCs s.hasRst := by
  unfold State.afterReset resetEvents
  generalize resetFrames = fs
  have e : ∀ u : State,
      (((((u.sent [(0x11#8, [])]).delay 120).sent fs).withRegs (resetWork s.work) s.line s.freeCtr).setPstate .awake).trace =
        u.trace ++ txnEvents u.hasCs 0x11#8 [] ++ [.delay 120] ++ framesEvents u.hasCs fs := by
    intro u
    simp [State.trace, State.setPstate, State.withRegs, State.sent, State.delay, State.emit, framesEvents]
  rw [e]
  unfold State.afterResetAction
  cases hr : s.hasRst
  · simp [State.setPstate, hr, State.trace, State.delay, State.emit, State.sent, framesEvents]
  · simp [State.setPstate, hr, State.trace, State.delay, State.emit, State.rstPulse, State.driveRst, Config.tRstLow, Config.tRstHigh]

/-- The lines after RESET (44_lifecycle.md R244). -/
theorem State.afterReset_pins (s : State) : s.afterReset.pins = { s.pins with
      csN := s.hasCs || s.pins.csN, rstN := s.hasRst || s.pins.rstN, dc := false, sck := false, mosi := true } := by
  unfold State.afterReset
  rw [resetFrames, State.sent_append]
  generalize ([(0x36#8, [0x68#8]), (0x3A#8, [0x05#8]), (0x13#8, [])] ++
    windowedWrite 0 0 160 80 (List.replicate 12800 0x0000#16) : List Frame) = fs
  have gen : ∀ (fs : List Frame) (b : Bool) (p : Pins),
      Pins.afterFrame b (fs.foldl (Pins.afterFrame b) p) (0x29#8, []) = Pins.afterFrame b p (0x29#8, []) := by
    intro fs b p
    induction fs generalizing p with
    | nil => rfl
    | cons f fs ih => rw [List.foldl_cons, ih]; simp [Pins.afterFrame]
  show Pins.afterFrame _ (fs.foldl (Pins.afterFrame _) _) (0x29#8, []) = _
  refine Eq.trans (gen fs _ _) ?_
  unfold State.afterResetAction
  cases hr : s.hasRst
  · simp [State.setPstate, hr, State.delay, State.emit, State.sent, Pins.afterFrame]
  · simp [State.setPstate, hr, State.delay, State.emit, State.rstPulse, State.driveRst, State.sent, Pins.afterFrame]

/-- What RESET leaves in the registers (44_lifecycle.md R244). -/
theorem State.afterReset_rest (s : State) (hl : s.lock = false) :
    s.afterReset.pstate = .awake ∧ s.afterReset.begun = s.begun ∧ s.afterReset.opnd = s.opnd ∧
      s.afterReset.work = resetWork s.work ∧ s.afterReset.line = s.line ∧ s.afterReset.lock = false ∧
      s.afterReset.busReq = false ∧ s.afterReset.dly = 0 ∧ SameOutside s s.afterReset := by
  have : ∀ u : State, (((((u.sent [(0x11#8, [])]).delay 120).sent resetFrames).withRegs
      (resetWork s.work) s.line s.freeCtr).setPstate .awake).pstate = .awake ∧ 
      (((((u.sent [(0x11#8, [])]).delay 120).sent resetFrames).withRegs
      (resetWork s.work) s.line s.freeCtr).setPstate .awake).busReq = false := by
    intro u
    refine ⟨rfl, ?_⟩
    show ((_ && _) && resetFrames.isEmpty) = false
    have : resetFrames.isEmpty = false := rfl
    rw [this, Bool.and_false]
  unfold State.afterReset
  refine ⟨rfl, ?_, ?_, rfl, rfl, ?_, (this _).2, rfl, ?_⟩
  all_goals generalize resetFrames = fs
  all_goals unfold State.afterResetAction
  all_goals cases hr : s.hasRst <;> simp [State.setPstate, hr, State.delay, State.emit, State.rstPulse, State.driveRst,
    State.sent, State.withRegs, hl, SameOutside]

/-- The sink after RESET: whatever the first action left, the frames after it (44_lifecycle.md R244). -/
theorem State.afterReset_sink (s : State) :
    ∃ k : Sink, k.frameComplete = true ∧ s.afterReset.sink = k.frames s.hasCs ([(0x11#8, [])] ++ resetFrames) := by
  unfold State.afterReset
  generalize resetFrames = fs
  cases hr : s.hasRst
  · refine ⟨s.sink.frame s.hasCs 0x01#8 [], ?_, ?_⟩
    · exact Sink.settled_frame_nil _ _ _ rfl
    · simp [State.afterResetAction, State.setPstate, hr, State.withRegs, State.delay, State.emit, State.sent, Sink.frames]
  · refine ⟨s.sink.resetPulse, rfl, ?_⟩
    simp [State.afterResetAction, State.setPstate, hr, State.withRegs, State.delay, State.emit, State.sent, Sink.frames,
      State.rstPulse, State.driveRst]

/-- What the frames of RESET leave in the sink (44_lifecycle.md R252). -/
theorem Sink.frames_reset (k : Sink) (ended : Bool) (hk : k.frameComplete = true) :
    let t := k.frames ended ([(0x11#8, [])] ++ resetFrames)
    t.sleep = false ∧ t.orient = 0x68#8 ∧ t.colMode = 0x05#8 ∧ t.normal = true ∧ t.dispOn = true ∧
      t.winXS.toNat = 0 ∧ t.winXE.toNat = 159 ∧ t.winYS.toNat = 24 ∧ t.winYE.toNat = 103 ∧ t.frameComplete = true ∧
      ∀ col row, col ≤ 159 → 24 ≤ row → row ≤ 103 → t.pixel col row = 0x0000#16 := by
  intro t
  have ht : t = (({ k with
        writing := false, expect := .nothing, sleep := false, orient := 0x68#8, colMode := 0x05#8, normal := true } : Sink).painted
      0 0 160 80 (List.replicate 12800 0x0000#16) ended).frame ended 0x29#8 [] := by
    show Sink.frames _ _ _ = _
    rw [resetFrames, List.append_assoc, Sink.frames_append, Sink.frames_append, Sink.frames_append]
    simp only [Sink.frames_cons, Sink.frames_nil]
    rw [Sink.frame_exitSleep _ hk, Sink.frame_orient _ _ rfl, Sink.frame_colMode _ _ rfl, Sink.frame_normalOn _ rfl]
    rw [Sink.frames_windowedWrite _ _ _ _ _ _ _ rfl rfl (by omega) (by omega) (by omega) (by omega) List.length_replicate]
  generalize hk2 : ({ k with
    writing := false, expect := .nothing, sleep := false, orient := 0x68#8, colMode := 0x05#8, normal := true } : Sink) = k2 at ht
  have hs := Sink.painted_settled (k := k2) (x := 0) (y := 0) (w := 160) (h := 80) (px := List.replicate 12800 0x0000#16)
    (by subst hk2; rfl) (by omega) (by omega) (by omega) (by omega) ended
  rw [Sink.frame_displayOn _ hs] at ht
  have hp := fun col row (hc : col < 65536) => Sink.painted_pixel 0 0 160 80 (List.replicate 12800 0x0000#16) ended k2
    (by omega) (by omega) (by omega) List.length_replicate (col := col) (row := row) hc
  rw [ht]
  have pf : ∀ a : Sink, a = Sink.painted 0 0 160 80 (List.replicate 12800 0x0000#16) ended k2 → ∀ col row,
      ({ a with writing := false, expect := .nothing, dispOn := true } : Sink).pixel col row = a.pixel col row :=
    fun a _ _ _ => rfl
  have pf := pf _ rfl
  clear ht t
  subst hk2
  refine ⟨rfl, rfl, rfl, rfl, rfl, ?_, ?_, ?_, ?_, rfl, ?_⟩
  · rfl
  · rfl
  · rfl
  · rfl
  · intro col row h1 h2 h3
    rw [pf, hp col row (by omega)]
    have h0 : ∀ n i, (List.replicate n (0x0000#16)).getD i 0 = 0x0000#16 := by
      intro n i; rw [List.getD_eq_getElem?_getD, List.getElem?_replicate]; split <;> rfl
    have h0 := h0 12800
    generalize List.replicate 12800 0x0000#16 = L at h0
    unfold paintedPixel
    rw [if_pos (by omega)]
    exact h0 _

end Sys2Proof.Machine
end

