-- ==== Sys2Proof/Laws/Outside.lean ====
section
/-! SUPPORT. What no instruction writes: a relation between two states that the elementary changes respect is respected by every
operation, whether it ends or waits for a grant. -/
namespace Sys2Proof.Machine

/-- A relation that every elementary change of a drawing respects. -/
structure Tolerant (ρ : State → State → Prop) : Prop where
  refl : ∀ s, ρ s s
  trans : ∀ s t u, ρ s t → ρ t u → ρ s u
  sent : ∀ s fs, ρ s (s.sent fs)
  grants : ∀ s g, ρ s { s with grants := g }
  waits : ∀ s, ρ s { s with busReq := true }
  regs : ∀ s work line fc, ρ s (s.withRegs work line fc)

/-- A relation that the elementary changes of the lifecycle operations respect too. -/
structure TolerantReset (ρ : State → State → Prop) : Prop where
  tolerant : Tolerant ρ
  delay : ∀ s n, ρ s (s.delay n)
  rstPulse : ∀ s, ρ s s.rstPulse
  setPstate : ∀ s p, ρ s (s.setPstate p)

/-- However a sequence of operations ends, its state is related to the one it began in. -/
def Following (ρ : State → State → Prop) (f : State → Res) : Prop :=
  ∀ s, match f s with
    | .done t => ρ s t
    | .hung t => ρ s t
    | .refused _ => True

variable {ρ : State → State → Prop}

theorem Following.andThen (h : Tolerant ρ) {f g : State → Res} (hf : Following ρ f) (hg : Following ρ g) :
    Following ρ fun s => (f s).andThen g := by
  intro s
  have := hf s
  cases hr : f s with
  | done t =>
    rw [hr] at this
    have hk := hg t
    simp only [hr, Res.andThen]
    cases hr' : g t with
    | done u => rw [hr'] at hk; exact h.trans _ _ _ this hk
    | hung u => rw [hr'] at hk; exact h.trans _ _ _ this hk
    | refused r => trivial
  | hung t => rw [hr] at this; simpa only [hr, Res.andThen] using this
  | refused r => simp only [hr, Res.andThen]

theorem Following.map (h : Tolerant ρ) {f : State → Res} {g : State → State} (hf : Following ρ f) (hg : ∀ s, ρ s (g s)) :
    Following ρ fun s => (f s).map g := by
  intro s
  have := hf s
  cases hr : f s with
  | done t => rw [hr] at this; simpa only [hr, Res.map] using h.trans _ _ _ this (hg t)
  | hung t => rw [hr] at this; simpa only [hr, Res.map] using this
  | refused r => simp only [hr, Res.map]

theorem Following.comp (h : Tolerant ρ) {f : State → Res} {g : State → State} (hf : Following ρ f) (hg : ∀ s, ρ s (g s)) :
    Following ρ fun s => f (g s) := by
  intro s
  have := hf (g s)
  cases hr : f (g s) with
  | done t => rw [hr] at this; simpa only [hr] using h.trans _ _ _ (hg s) this
  | hung t => rw [hr] at this; simpa only [hr] using h.trans _ _ _ (hg s) this
  | refused r => simp only [hr]

theorem following_done (h : Tolerant ρ) : Following ρ .done := fun s => h.refl s

theorem Tolerant.ofRegs (h : Tolerant ρ) {f : State → State} (hf : ∀ s, ∃ work line fc, f s = s.withRegs work line fc) (s : State) :
    ρ s (f s) := by
  obtain ⟨work, line, fc, e⟩ := hf s
  rw [e]; exact h.regs _ _ _ _

theorem following_txn (h : Tolerant ρ) (c : Byte) (payload : List Byte) : Following ρ (txn c payload) := by
  intro s
  rcases txn_cases c payload s with ⟨_, _, _, e⟩ | ⟨n, _, _, _, e⟩ | ⟨_, _, _, e⟩ | ⟨_, e⟩ | ⟨_, _, e⟩ <;> rw [e]
  · exact h.sent _ _
  · exact h.trans _ _ _ (h.grants s (some n)) (h.sent _ _)
  · exact h.waits _
  · trivial
  · trivial

theorem following_select (h : Tolerant ρ) (x y w hh : Nat) : Following ρ (select x y w hh) :=
  (following_txn h _ _).andThen h (following_txn h _ _)

theorem following_sendDataRep (h : Tolerant ρ) (v : Half) (n : Nat) : Following ρ (sendDataRep v n) :=
  ((following_txn h _ _).comp h (h.ofRegs fun _ => ⟨_, _, _, rfl⟩)).map h (h.ofRegs fun _ => ⟨_, _, _, rfl⟩)

theorem following_fill (h : Tolerant ρ) (x y w hh : Nat) (color : Half) : Following ρ (fill x y w hh color) := by
  unfold fill
  cases clip x y w hh with
  | none => exact following_done h
  | some p =>
    exact ((following_select h x y p.1 p.2).comp h (h.ofRegs fun _ => ⟨_, _, _, rfl⟩)).andThen h
      (following_sendDataRep h color (p.1 * p.2))

theorem following_fetchSend (h : Tolerant ρ) (base n : Nat) :
    Following ρ fun s => let v := fetchPixels base n 0 s; sendData16 v.1 v.2 := fun s =>
  ((following_txn h 0x2C#8 (pixelBytes (fetchPixels base n 0 s).1)).comp h
    (h.ofRegs fun t => fetchPixels_regs base n 0 t)) s

theorem following_blitRows (h : Tolerant ρ) (x y w wc src n row : Nat) : Following ρ (blitRows x y w wc src n row) := by
  induction n generalizing row with
  | zero => exact following_done h
  | succ n ih =>
    exact (((following_select h _ _ _ _).comp h (h.ofRegs fun _ => ⟨_, _, _, rfl⟩)).andThen h (following_fetchSend h _ _)).andThen h
      (ih _)

theorem following_blit (h : Tolerant ρ) (x y w hh src : Nat) : Following ρ (blit x y w hh src) := by
  unfold blit
  cases clip x y w hh with
  | none => exact following_done h
  | some p => exact (following_blitRows h _ _ _ _ _ _ _).comp h (h.ofRegs fun _ => ⟨_, _, _, rfl⟩)

theorem expandRow_regs (source : BitmapSource) (base : Int) (w row : Nat) (fg bg : Half) (n col : Nat) (s : State) :
    ∃ work line fc, expandRow source base w row fg bg n col s = s.withRegs work line fc := by
  obtain ⟨g, fc, e, -⟩ := expandRow_spec source base w row fg bg n col s
  exact ⟨_, _, _, e⟩

theorem following_monoRows (h : Tolerant ρ) (source : BitmapSource) (base : Int) (x y w wc : Nat) (fg bg : Half) (n row : Nat) :
    Following ρ (monoRows source base x y w wc fg bg n row) := by
  induction n generalizing row with
  | zero => exact following_done h
  | succ n ih =>
    exact (((following_select h _ _ _ _).comp h (fun s => h.trans _ _ _ (h.ofRegs (f := State.setRow row) (fun _ => ⟨_, _, _, rfl⟩) s)
      (h.ofRegs (expandRow_regs source base w row fg bg wc 0) _))).andThen h
      (fun s => following_txn h 0x2C#8 (pixelBytes (s.lineTake wc)) s)).andThen h (ih _)

theorem following_monoBlit (h : Tolerant ρ) (source : BitmapSource) (base : Int) (x y w hh : Nat) (fg bg : Half) :
    Following ρ (monoBlit source base x y w hh fg bg) := by
  unfold monoBlit
  cases clip x y w hh with
  | none => exact following_done h
  | some p => exact (following_monoRows h _ _ _ _ _ _ _ _ _ _).comp h (h.ofRegs fun _ => ⟨_, _, _, rfl⟩)

theorem following_drawChar (h : Tolerant ρ) (x y : Nat) (ch : Byte) (fg bg : Half) : Following ρ (drawChar x y ch fg bg) :=
  ((following_monoBlit h _ _ _ _ _ _ _ _).comp h (h.ofRegs fun _ => ⟨_, _, _, rfl⟩)).andThen h
    ((following_fill h _ _ _ _ _).comp h (h.ofRegs fun _ => ⟨_, _, _, rfl⟩))

theorem following_drawChars (h : Tolerant ρ) (y src : Nat) (fg bg : Half) (n cidx curx : Nat) :
    Following ρ (drawChars y src fg bg n cidx curx) := by
  induction n generalizing cidx curx with
  | zero => exact following_done h
  | succ n ih =>
    by_cases hx : Config.panelW ≤ curx
    · have e : drawChars y src fg bg (n + 1) cidx curx = fun s => .done (s.setCidx cidx) := by
        funext s; simp only [drawChars, hx, if_true]
      rw [e]
      exact (following_done h).comp h (g := State.setCidx cidx) (h.ofRegs fun _ => ⟨_, _, _, rfl⟩)
    · have e : drawChars y src fg bg (n + 1) cidx curx = fun s =>
          (drawChar curx y (readText (src + cidx) (s.setCidx cidx)).1 fg bg (readText (src + cidx) (s.setCidx cidx)).2).andThen
            fun s => drawChars y src fg bg n (cidx + 1) (curx + Config.glyphW + Config.gapW)
              (s.setCurx (curx + Config.glyphW + Config.gapW)) := by
        funext s; simp only [drawChars, hx, if_false]
      rw [e]
      have hd : Following ρ fun s => drawChar curx y (readText (src + cidx) s).1 fg bg (readText (src + cidx) s).2 := fun s =>
        ((following_drawChar h curx y (readText (src + cidx) s).1 fg bg).comp h (h.ofRegs fun t => readText_regs (src + cidx) t)) s
      exact (hd.comp h (g := State.setCidx cidx) (h.ofRegs fun _ => ⟨_, _, _, rfl⟩)).andThen h
        ((ih _ _).comp h (h.ofRegs fun _ => ⟨_, _, _, rfl⟩))

theorem following_drawString (h : Tolerant ρ) (x y src len : Nat) (fg bg : Half) : Following ρ (drawString x y src len fg bg) :=
  (following_drawChars h _ _ _ _ _ _ _).comp h (h.ofRegs fun _ => ⟨_, _, _, rfl⟩)

theorem following_flip (h : Tolerant ρ) (on : Bool) : Following ρ (flip on) := by
  cases on <;> exact following_txn h _ _

theorem following_inverse (h : Tolerant ρ) (on : Bool) : Following ρ (inverse on) := by
  cases on <;> exact following_txn h _ _

theorem following_resetAction (h : TolerantReset ρ) : Following ρ resetAction := by
  intro s
  by_cases hr : s.hasRst = true
  · have e : resetAction s = .done s.rstPulse := by simp only [resetAction, hr, if_true]
    rw [e]; exact h.rstPulse s
  · have e : resetAction s = (sendCmd0 0x01#8 s).map (State.delay Config.tSwReset) := by
      simp only [resetAction, hr, Bool.false_eq_true, if_false]
    rw [e]
    exact ((following_txn h.tolerant _ _).map h.tolerant (fun s => h.delay s _)) s

theorem following_panelReset (h : TolerantReset ρ) : Following ρ panelReset :=
  have t := h.tolerant
  ((((((((((following_resetAction h).comp t (fun s => h.setPstate s _)).andThen t (following_txn t _ _)).map t
    (fun s => h.delay s _)).andThen t (following_txn t _ _)).andThen t (following_txn t _ _)).andThen t
    (following_txn t _ _)).andThen t ((following_fill t _ _ _ _ _).comp t (t.ofRegs fun _ => ⟨_, _, _, rfl⟩))).andThen t
    (following_txn t _ _)).map t (fun s => h.setPstate s _))

theorem following_power (h : TolerantReset ρ) (on : Bool) : Following ρ (power on) := by
  have t := h.tolerant
  cases on
  · exact ((following_txn t _ _).andThen t (following_txn t _ _)).map t
      fun s => h.tolerant.trans _ _ _ (h.delay s _) (h.setPstate _ _)
  · exact (((following_txn t _ _).map t (fun s => h.delay s _)).andThen t (following_txn t _ _)).map t fun s => h.setPstate s _

end Sys2Proof.Machine
end

