-- ==== Sys2Proof/Laws/Granting.lean ====
section
/-! SUPPORT. What a sequence of micro-operations does if the arbiter grants only its first `n` acquisitions: it goes as it does
when every one is granted, or it stops before the next acquisition (40_bus_transport.md R144, 60_exceptions.md R278). -/
namespace Sys2Proof.Machine

/-- The state with another number of grants left. -/
def State.granting (g : Option Nat) (s : State) : State := { s with grants := g }

@[simp] theorem State.granting_granting (g g' : Option Nat) (s : State) : (s.granting g).granting g' = s.granting g' := rfl
@[simp] theorem State.granting_trace (g : Option Nat) (s : State) : (s.granting g).trace = s.trace := rfl

theorem State.granting_self {s : State} {g : Option Nat} (h : s.grants = g) : s.granting g = s := by cases s; cases h; rfl

-- The events before an acquisition

theorem untilAcq_append (n : Nat) (es fs : List Event) :
    untilAcq n (es ++ fs) = if n < es.count .acq then untilAcq n es else es ++ untilAcq (n - es.count .acq) fs := by
  induction es generalizing n with
  | nil => simp
  | cons e es ih =>
    by_cases he : e = .acq
    · subst he
      cases n with
      | zero => simp [untilAcq]
      | succ n =>
        simp only [List.cons_append, untilAcq, if_true, ih, List.count_cons_self, Nat.add_lt_add_iff_right, Nat.add_sub_add_right]
        split <;> rfl
    · have hc : (e :: es).count .acq = es.count .acq := by rw [List.count_cons, beq_eq_false_iff_ne.2 he]; rfl
      simp only [List.cons_append, untilAcq, if_neg he, ih, hc]
      split <;> rfl

/-- Events without an acquisition are all emitted. -/
theorem untilAcq_quiet (n : Nat) (es : List Event) (h : es.count .acq = 0) : untilAcq n es = es := by
  have := untilAcq_append n es []
  simpa [h, untilAcq] using this

theorem count_acq_txn (hasCs : Bool) (c : Byte) (payload : List Byte) : (txnEvents hasCs c payload).count .acq = 1 := by
  have e : List.count Event.acq (List.map Event.tx8 payload) = 0 := by simp [List.count_eq_zero]
  cases hasCs <;> cases payload <;> simp_all [txnEvents, csEvents, payloadEvents, List.count_append]

-- Sequences of micro-operations

/-- What no micro-operation inside a request changes. -/
structure Kept (s t : State) : Prop where
  begun : t.begun = s.begun
  lock : t.lock = s.lock
  busy : t.busy = s.busy
  respDone : t.respDone = s.respDone
  opnd : t.opnd = s.opnd
  pstate : t.pstate = s.pstate

theorem Kept.trans {s t u : State} (h : Kept s t) (h' : Kept t u) : Kept s u :=
  ⟨h'.begun.trans h.begun, h'.lock.trans h.lock, h'.busy.trans h.busy, h'.respDone.trans h.respDone, h'.opnd.trans h.opnd,
    h'.pstate.trans h.pstate⟩

/-- A change of state that acquires nothing and does not look at the grants. -/
structure Quiet (g : State → State) : Prop where
  commutes : ∀ s gr, g (s.granting gr) = (g s).granting gr
  events : ∀ s, ∃ es, es.count .acq = 0 ∧ (g s).trace = s.trace ++ es
  kept : ∀ s, Kept s (g s)

/-- The wait that begins where the grants end. -/
structure WaitsAfter (s : State) (n : Nat) (es : List Event) (u : State) : Prop where
  trace : u.trace = s.trace ++ untilAcq n es
  kept : Kept s u
  request : u.busReq = true
  grants : u.grants = some 0

/-- From `s` the sequence ends in `t` with the events `es` if every acquisition is granted; with `n` of them it goes as far as they
reach. -/
structure MeteredBy (f : State → Res) (s t : State) (es : List Event) : Prop where
  done : f (s.granting none) = .done t
  grants : t.grants = none
  trace : t.trace = s.trace ++ es
  kept : Kept s t
  enough : ∀ n, es.count .acq ≤ n → f (s.granting (some n)) = .done (t.granting (some (n - es.count .acq)))
  short : ∀ n, n < es.count .acq → ∃ u, f (s.granting (some n)) = .hung u ∧ WaitsAfter s n es u

/-- A sequence that is metered from every state in which a transaction may begin. -/
def Metered (f : State → Res) : Prop := ∀ s, s.begun = true → s.lock = false → ∃ t es, MeteredBy f s t es

theorem metered_done : Metered .done := fun s _ _ =>
  ⟨s.granting none, [], rfl, rfl, by simp, ⟨rfl, rfl, rfl, rfl, rfl, rfl⟩, fun _ _ => rfl, fun _ h => absurd h (Nat.not_lt_zero _)⟩

theorem metered_txn (c : Byte) (payload : List Byte) : Metered (txn c payload) := by
  intro s hb hl
  have hc := count_acq_txn s.hasCs c payload
  have he : framesEvents s.hasCs [(c, payload)] = txnEvents s.hasCs c payload := by simp [framesEvents]
  refine ⟨(s.granting none).sent [(c, payload)], txnEvents s.hasCs c payload, txn_ready c payload ⟨hb, hl, rfl⟩, rfl, ?_,
    ⟨rfl, rfl, rfl, rfl, rfl, rfl⟩, fun n hn => ?_, fun n hn => ?_⟩
  · rw [State.sent_trace, ← he]; rfl
  · obtain ⟨m, rfl⟩ : ∃ m, n = m + 1 := ⟨n - 1, by omega⟩
    rcases txn_cases c payload (s.granting (some (m + 1))) with ⟨_, _, g, _⟩ | ⟨m', _, _, g, e⟩ | ⟨_, _, g, _⟩ | ⟨g, _⟩ | ⟨_, g, _⟩
    · cases g
    · cases g; rw [e, hc]; rfl
    · cases g
    · exact absurd (hb.symm.trans g) (by decide)
    · exact absurd (hl.symm.trans g) (by decide)
  · obtain rfl : n = 0 := by omega
    exact ⟨_, txn_hung c payload (s := s.granting (some 0)) hb hl rfl, by simp [txnEvents, untilAcq, State.trace, State.granting],
      ⟨rfl, rfl, rfl, rfl, rfl, rfl⟩, rfl, rfl⟩

/-- One metered sequence after another. -/
theorem MeteredBy.andThen {f g : State → Res} {s t u : State} {es fs : List Event} (hf : MeteredBy f s t es)
    (hg : MeteredBy g t u fs) : MeteredBy (fun s => (f s).andThen g) s u (es ++ fs) where
  done := by simp only [hf.done, Res.andThen, ← hg.done, State.granting_self hf.grants]
  grants := hg.grants
  trace := by rw [hg.trace, hf.trace, List.append_assoc]
  kept := hf.kept.trans hg.kept
  enough n hn := by
    rw [List.count_append] at hn ⊢
    simp only [hf.enough n (by omega), Res.andThen, hg.enough (n - es.count .acq) (by omega), Nat.sub_sub]
  short n hn := by
    rw [List.count_append] at hn
    by_cases h : n < es.count .acq
    · obtain ⟨w, e, hw⟩ := hf.short n h
      exact ⟨w, by simp only [e, Res.andThen], by rw [untilAcq_append, if_pos h, hw.trace], hw.kept, hw.request, hw.grants⟩
    · obtain ⟨w, e, hw⟩ := hg.short (n - es.count .acq) (by omega)
      refine ⟨w, by simp only [hf.enough n (by omega), Res.andThen, e], ?_, hf.kept.trans hw.kept, hw.request, hw.grants⟩
      rw [untilAcq_append, if_neg h, hw.trace, hf.trace, List.append_assoc]

theorem Metered.andThen {f g : State → Res} (hf : Metered f) (hg : Metered g) : Metered fun s => (f s).andThen g := by
  intro s hb hl
  obtain ⟨t, es, h⟩ := hf s hb hl
  obtain ⟨u, fs, h'⟩ := hg t (h.kept.begun.trans hb) (h.kept.lock.trans hl)
  exact ⟨u, es ++ fs, h.andThen h'⟩

/-- A quiet change is a metered sequence. -/
theorem Quiet.metered {g : State → State} (hg : Quiet g) : Metered fun s => .done (g s) := by
  intro s _ _
  obtain ⟨es, h0, he⟩ := hg.events s
  refine ⟨(g s).granting none, es, by rw [hg.commutes], rfl, he, ?_, fun n _ => by rw [hg.commutes, h0]; rfl, fun n hn => ?_⟩
  · obtain ⟨a, b, c, d, e, f⟩ := hg.kept s; exact ⟨a, b, c, d, e, f⟩
  · rw [h0] at hn; exact absurd hn (Nat.not_lt_zero n)

theorem Metered.map {f : State → Res} {g : State → State} (hf : Metered f) (hg : Quiet g) : Metered fun s => (f s).map g := by
  have e : (fun s => (f s).map g) = fun s => (f s).andThen fun s => .done (g s) := by
    funext s; cases f s <;> rfl
  rw [e]; exact hf.andThen hg.metered

/-- A sequence whose operands are read from the state first. -/
theorem Metered.read {α : Type} {f : α → State → Res} {r : State → α} {g : State → State} (hf : ∀ a, Metered (f a)) (hg : Quiet g)
    (hr : ∀ s gr, r (s.granting gr) = r s) : Metered fun s => f (r s) (g s) := by
  intro s hb hl
  obtain ⟨t, es, h⟩ := ((hg.metered).andThen (hf (r s))) s hb hl
  refine ⟨t, es, ?_, h.grants, h.trace, h.kept, fun n hn => ?_, fun n hn => ?_⟩
  · rw [hr]; exact h.done
  · rw [hr]; exact h.enough n hn
  · rw [hr]; exact h.short n hn

theorem Metered.comp {f : State → Res} {g : State → State} (hf : Metered f) (hg : Quiet g) : Metered fun s => f (g s) :=
  Metered.read (f := fun _ : Unit => f) (r := fun _ => ()) (fun _ => hf) hg fun _ _ => rfl

theorem Quiet.comp {f g : State → State} (hf : Quiet f) (hg : Quiet g) : Quiet fun s => g (f s) where
  commutes s gr := by rw [hf.commutes, hg.commutes]
  events s := by
    obtain ⟨es, h, e⟩ := hf.events s
    obtain ⟨fs, h', e'⟩ := hg.events (f s)
    exact ⟨es ++ fs, by rw [List.count_append, h, h'], by rw [e', e, List.append_assoc]⟩
  kept s := (hf.kept s).trans (hg.kept _)

/-- A change of working registers, scratch line and count of free values that does not look at the grants. -/
theorem quiet_regs {g : State → State} (h : ∀ s, ∃ work line fc, g s = s.withRegs work line fc)
    (hc : ∀ s gr, g (s.granting gr) = (g s).granting gr) : Quiet g where
  commutes := hc
  events s := by obtain ⟨a, b, c, e⟩ := h s; exact ⟨[], rfl, by rw [e, List.append_nil]; rfl⟩
  kept s := by obtain ⟨a, b, c, e⟩ := h s; rw [e]; exact ⟨rfl, rfl, rfl, rfl, rfl, rfl⟩

theorem quiet_delay (n : Nat) : Quiet (State.delay n) :=
  ⟨fun _ _ => rfl, fun s => ⟨[.delay n], rfl, State.delay_trace n s⟩, fun _ => ⟨rfl, rfl, rfl, rfl, rfl, rfl⟩⟩

theorem quiet_rstPulse : Quiet State.rstPulse :=
  ⟨fun _ _ => rfl, fun s => ⟨[.rst false, .delay Config.tRstLow, .rst true, .delay Config.tRstHigh], rfl, by simp [State.rstPulse]⟩,
    fun _ => ⟨rfl, rfl, rfl, rfl, rfl, rfl⟩⟩

-- The reads of the source spaces do not look at the grants

theorem readPix_granting (i : Nat) (s : State) (g : Option Nat) :
    readPix i (s.granting g) = ((readPix i s).1, (readPix i s).2.granting g) := by
  unfold readPix; split <;> rfl

theorem readText_granting (i : Nat) (s : State) (g : Option Nat) :
    readText i (s.granting g) = ((readText i s).1, (readText i s).2.granting g) := by
  unfold readText; split <;> rfl

theorem readBitmap_granting (source : BitmapSource) (i : Int) (s : State) (g : Option Nat) :
    readBitmap source i (s.granting g) = ((readBitmap source i s).1, (readBitmap source i s).2.granting g) := by
  cases source
  · simp only [readBitmap, readBits]; split <;> rfl
  · unfold readBitmap readRom
    show (if 0 ≤ i ∧ i < (Config.glyphBytes * s.glyphCount : Nat) then _ else _) = _
    split <;> rfl

theorem fetchPixels_granting (base n col : Nat) (s : State) (g : Option Nat) :
    fetchPixels base n col (s.granting g) = ((fetchPixels base n col s).1, (fetchPixels base n col s).2.granting g) := by
  induction n generalizing col s with
  | zero => rfl
  | succ n ih =>
    have e : State.setCol col (s.granting g) = (s.setCol col).granting g := rfl
    simp only [fetchPixels, e, readPix_granting, ih]

theorem expandRow_granting (source : BitmapSource) (base : Int) (w row : Nat) (fg bg : Half) (n col : Nat) (s : State)
    (g : Option Nat) : expandRow source base w row fg bg n col (s.granting g) =
      (expandRow source base w row fg bg n col s).granting g := by
  induction n generalizing col s with
  | zero => rfl
  | succ n ih =>
    have e : State.setCol col (s.granting g) = (s.setCol col).granting g := rfl
    have e' (c : Nat) (v : Half) (t : State) : State.setLine c v (t.granting g) = (t.setLine c v).granting g := rfl
    simp only [expandRow, e, readBitmap_granting, e', ih]

-- The operations

theorem metered_select (x y w h : Nat) : Metered (select x y w h) := (metered_txn _ _).andThen (metered_txn _ _)

theorem metered_sendDataRep (v : Half) (n : Nat) : Metered (sendDataRep v n) :=
  ((metered_txn _ _).comp (quiet_regs (g := State.setCnt n) (fun _ => ⟨_, _, _, rfl⟩) fun _ _ => rfl)).map
    (quiet_regs (fun _ => ⟨_, _, _, rfl⟩) fun _ _ => rfl)

theorem metered_fill (x y w h : Nat) (color : Half) : Metered (fill x y w h color) := by
  unfold fill
  cases clip x y w h with
  | none => exact metered_done
  | some p =>
    exact ((metered_select x y p.1 p.2).comp (quiet_regs (g := State.setClip p.1 p.2) (fun _ => ⟨_, _, _, rfl⟩) fun _ _ => rfl)).andThen
      (metered_sendDataRep color (p.1 * p.2))

theorem metered_fetchSend (base n : Nat) : Metered fun s => let v := fetchPixels base n 0 s; sendData16 v.1 v.2 :=
  Metered.read (f := sendData16) (r := fun s => (fetchPixels base n 0 s).1) (g := fun s => (fetchPixels base n 0 s).2)
    (fun v => metered_txn 0x2C#8 (pixelBytes v)) (quiet_regs (fetchPixels_regs base n 0) fun s gr => by rw [fetchPixels_granting])
    fun s gr => by rw [fetchPixels_granting]

theorem metered_blitRows (x y w wc src n row : Nat) : Metered (blitRows x y w wc src n row) := by
  induction n generalizing row with
  | zero => exact metered_done
  | succ n ih =>
    exact (((metered_select x (y + row) wc 1).comp (quiet_regs (g := State.setRow row) (fun _ => ⟨_, _, _, rfl⟩) fun _ _ => rfl)).andThen
      (metered_fetchSend _ _)).andThen (ih _)

theorem metered_blit (x y w h src : Nat) : Metered (blit x y w h src) := by
  unfold blit
  cases clip x y w h with
  | none => exact metered_done
  | some p =>
    exact (metered_blitRows x y w p.1 src p.2 0).comp (quiet_regs (g := State.setClip p.1 p.2) (fun _ => ⟨_, _, _, rfl⟩) fun _ _ => rfl)

theorem metered_monoRows (source : BitmapSource) (base : Int) (x y w wc : Nat) (fg bg : Half) (n row : Nat) :
    Metered (monoRows source base x y w wc fg bg n row) := by
  induction n generalizing row with
  | zero => exact metered_done
  | succ n ih =>
    refine (((metered_select x (y + row) wc 1).comp ((quiet_regs (g := State.setRow row) (fun _ => ⟨_, _, _, rfl⟩) fun _ _ => rfl).comp
      (quiet_regs (expandRow_regs source base w row fg bg wc 0) fun s gr => expandRow_granting ..))).andThen ?_).andThen (ih _)
    exact Metered.read (f := sendData16) (r := State.lineTake wc) (g := id) (fun v => metered_txn 0x2C#8 (pixelBytes v))
      (quiet_regs (fun s => ⟨s.work, s.line, s.freeCtr, rfl⟩) fun _ _ => rfl) fun _ _ => rfl

theorem metered_monoBlit (source : BitmapSource) (base : Int) (x y w h : Nat) (fg bg : Half) :
    Metered (monoBlit source base x y w h fg bg) := by
  unfold monoBlit
  cases clip x y w h with
  | none => exact metered_done
  | some p =>
    exact (metered_monoRows source base x y w p.1 fg bg p.2 0).comp
      (quiet_regs (g := State.setClip p.1 p.2) (fun _ => ⟨_, _, _, rfl⟩) fun _ _ => rfl)

theorem metered_drawChar (x y : Nat) (ch : Byte) (fg bg : Half) : Metered (drawChar x y ch fg bg) :=
  ((metered_monoBlit _ _ _ _ _ _ _ _).comp (quiet_regs (fun _ => ⟨_, _, _, rfl⟩) fun _ _ => rfl)).andThen
    ((metered_fill _ _ _ _ _).comp (quiet_regs (fun _ => ⟨_, _, _, rfl⟩) fun _ _ => rfl))

theorem metered_drawChars (y src : Nat) (fg bg : Half) (n cidx curx : Nat) : Metered (drawChars y src fg bg n cidx curx) := by
  induction n generalizing cidx curx with
  | zero => exact metered_done
  | succ n ih =>
    have hq : Quiet (State.setCidx cidx) := quiet_regs (fun _ => ⟨_, _, _, rfl⟩) fun _ _ => rfl
    by_cases hx : Config.panelW ≤ curx
    · have e : drawChars y src fg bg (n + 1) cidx curx = fun s => .done (s.setCidx cidx) := by
        funext s; simp only [drawChars, hx, if_true]
      rw [e]; exact hq.metered
    · have e : drawChars y src fg bg (n + 1) cidx curx = fun s =>
          (drawChar curx y (readText (src + cidx) (s.setCidx cidx)).1 fg bg (readText (src + cidx) (s.setCidx cidx)).2).andThen
            fun s => drawChars y src fg bg n (cidx + 1) (curx + Config.glyphW + Config.gapW)
              (s.setCurx (curx + Config.glyphW + Config.gapW)) := by
        funext s; simp only [drawChars, hx, if_false]
      rw [e]
      have hd : Metered fun s => drawChar curx y (readText (src + cidx) s).1 fg bg (readText (src + cidx) s).2 :=
        Metered.read (f := fun ch => drawChar curx y ch fg bg) (r := fun s => (readText (src + cidx) s).1)
          (g := fun s => (readText (src + cidx) s).2) (fun ch => metered_drawChar curx y ch fg bg)
          (quiet_regs (readText_regs (src + cidx)) fun s gr => by rw [readText_granting]) fun s gr => by rw [readText_granting]
      exact (hd.comp hq).andThen
        ((ih _ _).comp (quiet_regs (g := State.setCurx (curx + Config.glyphW + Config.gapW)) (fun _ => ⟨_, _, _, rfl⟩) fun _ _ => rfl))

theorem metered_drawString (x y src len : Nat) (fg bg : Half) : Metered (drawString x y src len fg bg) :=
  (metered_drawChars _ _ _ _ _ _ _).comp (quiet_regs (fun _ => ⟨_, _, _, rfl⟩) fun _ _ => rfl)

theorem metered_flip (on : Bool) : Metered (flip on) := by cases on <;> exact metered_txn _ _

theorem metered_inverse (on : Bool) : Metered (inverse on) := by cases on <;> exact metered_txn _ _

/-- POWER before `PSTATE` is set at its end (44_lifecycle.md R246). -/
theorem metered_power (on : Bool) : ∃ f, Metered f ∧ power on = fun s => (f s).map (State.setPstate (if on then .awake else .sleeping)) := by
  cases on
  · refine ⟨_, ((metered_txn 0x28#8 []).andThen (metered_txn 0x10#8 [])).map (quiet_delay Config.tSlpIn), ?_⟩
    funext s
    show ((sendCmd0 0x28#8 s).andThen (sendCmd0 0x10#8)).map _ = ((((txn 0x28#8 [] s).andThen (txn 0x10#8 []))).map _).map _
    unfold sendCmd0
    cases (txn 0x28#8 [] s).andThen (txn 0x10#8 []) <;> rfl
  · exact ⟨_, ((metered_txn 0x11#8 []).map (quiet_delay Config.tSlpOut)).andThen (metered_txn 0x29#8 []), rfl⟩

theorem metered_resetAction : Metered resetAction := by
  intro s hb hl
  by_cases hr : s.hasRst = true
  · have e : ∀ g, resetAction (s.granting g) = .done (s.granting g).rstPulse := fun g => by
      simp only [resetAction, show (s.granting g).hasRst = true from hr, if_true]
    obtain ⟨t, es, h⟩ := quiet_rstPulse.metered s hb hl
    exact ⟨t, es, by rw [e]; exact h.done, h.grants, h.trace, h.kept, fun n hn => by rw [e]; exact h.enough n hn,
      fun n hn => by rw [e]; exact h.short n hn⟩
  · have e : ∀ g, resetAction (s.granting g) = (sendCmd0 0x01#8 (s.granting g)).map (State.delay Config.tSwReset) := fun g => by
      rw [resetAction, if_neg (show ¬ (s.granting g).hasRst = true from hr)]
    obtain ⟨t, es, h⟩ := ((metered_txn 0x01#8 []).map (quiet_delay Config.tSwReset)) s hb hl
    exact ⟨t, es, by rw [e]; exact h.done, h.grants, h.trace, h.kept, fun n hn => by rw [e]; exact h.enough n hn,
      fun n hn => by rw [e]; exact h.short n hn⟩

/-- RESET between the two settings of `PSTATE` (44_lifecycle.md R244). -/
theorem metered_panelReset : ∃ f, Metered f ∧ panelReset = fun s => (f (s.setPstate .uninit)).map (State.setPstate .awake) :=
  ⟨_, ((((((metered_resetAction.andThen (metered_txn 0x11#8 [])).map (quiet_delay Config.tSlpOut)).andThen
    (metered_txn 0x36#8 [Config.orientNormal])).andThen (metered_txn 0x3A#8 [Config.colMode16])).andThen
    (metered_txn 0x13#8 [])).andThen ((metered_fill 0 0 Config.panelW Config.panelH Config.black).comp
      (quiet_regs (g := State.subFill 0 0 Config.panelW Config.panelH Config.black 3#2) (fun _ => ⟨_, _, _, rfl⟩) fun _ _ => rfl))).andThen
    (metered_txn 0x29#8 []), rfl⟩

end Sys2Proof.Machine
end

