-- ==== Sys2Proof/Laws/Serve.lean ====
section
/-! SUPPORT. How a request and a micro-operation run alone end: the laws of `serve`, `Res.request`, `Res.micro`, `acquire` and the
block's reset. -/
namespace Sys2Proof.Machine

/-- Everything that serving a request can do: be ignored, be refused, end, wait for a grant, or stop as its body stops. -/
theorem serve_cases (load : Operands → Operands) (body : State → Res) (s : State) :
    (s.busy = true ∧ serve load body s = .next s) ∨
    (s.busy = false ∧ s.begun = false ∧ serve load body s = .refused .beforeBegin) ∨
    (∃ t, s.busy = false ∧ s.begun = true ∧ body (s.accept load) = .done t ∧ serve load body s = .next t.complete) ∨
    (∃ t, s.busy = false ∧ s.begun = true ∧ body (s.accept load) = .hung t ∧ serve load body s = .next t) ∨
    (∃ r, s.busy = false ∧ s.begun = true ∧ body (s.accept load) = .refused r ∧ serve load body s = .refused r) := by
  unfold serve
  cases hb : s.busy with
  | true => exact .inl ⟨rfl, rfl⟩
  | false =>
    cases hg : s.begun with
    | false => exact .inr (.inl ⟨rfl, rfl, rfl⟩)
    | true =>
      simp only [Bool.false_eq_true, if_false, reduceCtorEq]
      cases hr : body (s.accept load) with
      | done t => exact .inr (.inr (.inl ⟨t, trivial, trivial, rfl, rfl⟩))
      | hung t => exact .inr (.inr (.inr (.inl ⟨t, trivial, trivial, rfl, rfl⟩)))
      | refused r => exact .inr (.inr (.inr (.inr ⟨r, trivial, trivial, rfl, rfl⟩)))

/-- A ready state can run a transaction once the request is accepted. -/
theorem accept_ready (load : Operands → Operands) {s : State} (h : s.Ready) : (s.accept load).BusReady :=
  ⟨h.2.1, h.2.2.1, h.2.2.2⟩

/-- A request whose body is done in a ready state. -/
theorem serve_ready (load : Operands → Operands) (body : State → Res) {s t : State} (h : s.Ready)
    (hb : body (s.accept load) = .done t) : serve load body s = .next t.complete := by
  simp only [serve, h.1, h.2.1, hb, Res.request, Bool.false_eq_true, if_false, reduceCtorEq]

/-- A request that sends frames and changes working registers was served. -/
theorem served {s : State} (load : Operands → Operands) (hs : s.Ready) (fs : List Frame) (work : Work) (line : Vector Half 160)
    (fc : Nat) : Served s ((((s.accept load).sent fs).withRegs work line fc).complete) (load s.opnd) fs :=
  ⟨rfl, State.sent_trace fs (s.accept load), rfl, rfl, ⟨rfl, rfl, rfl⟩, ⟨hs.2.2.1, rfl⟩, ⟨rfl, rfl, rfl⟩,
    ⟨rfl, rfl, rfl, rfl, rfl, rfl, rfl, rfl, rfl, rfl⟩⟩

/-- How a served request ends, for a relation that the body respects. -/
theorem serve_rel {ρ : State → State → Prop} {load : Operands → Operands} {body : State → Res} {s t : State} (hb : s.busy = false)
    (hf : Following ρ body) (hc : ∀ u, ρ (s.accept load) u → ρ (s.accept load) u.complete) (h : serve load body s = .next t) :
    ρ (s.accept load) t := by
  have hr := hf (s.accept load)
  rcases serve_cases load body s with ⟨e, _⟩ | ⟨_, _, e⟩ | ⟨u, _, _, eb, e⟩ | ⟨u, _, _, eb, e⟩ | ⟨r, _, _, eb, e⟩
  · rw [hb] at e; cases e
  · rw [e] at h; cases h
  · rw [e] at h; rw [eb] at hr; cases h; exact hc u hr
  · rw [e] at h; rw [eb] at hr; cases h; exact hr
  · rw [e] at h; cases h

/-- How a micro-operation run alone ends, for a relation that its operation respects. -/
theorem micro_rel {ρ : State → State → Prop} {f : State → Res} {s t : State} (hf : Following ρ f)
    (hb : ∀ u, ρ s u → ρ s { u with busy := true }) (h : (f s).micro = .next t) : ρ s t := by
  have hr := hf s
  cases e : f s with
  | done u => rw [e] at h hr; cases h; exact hr
  | hung u => rw [e] at h hr; cases h; exact hb u hr
  | refused r => rw [e] at h; cases h

/-- Everything that ACQUIRE can do (40_bus_transport.md R144). -/
theorem acquire_cases (s : State) :
    (s.begun = false ∧ acquire s = .refused .beforeBegin) ∨
    (s.begun = true ∧ s.lock = true ∧ acquire s = .refused .lockHeld) ∨
    (s.begun = true ∧ s.lock = false ∧ s.grants = none ∧
      acquire s = .done (State.emit .acq { s with busReq := true, lock := true })) ∨
    (s.begun = true ∧ s.lock = false ∧ s.grants = some 0 ∧ acquire s = .hung { s with busReq := true }) ∨
    (∃ n, s.begun = true ∧ s.lock = false ∧ s.grants = some (n + 1) ∧
      acquire s = .done (State.emit .acq { s with busReq := true, lock := true, grants := some n })) := by
  unfold acquire
  cases hg : s.begun with
  | false => exact .inl ⟨rfl, rfl⟩
  | true =>
    cases hl : s.lock with
    | true => exact .inr (.inl ⟨rfl, rfl, rfl⟩)
    | false =>
      simp only [Bool.false_eq_true, if_false, reduceCtorEq]
      cases hk : s.grants with
      | none => exact .inr (.inr (.inl ⟨trivial, trivial, rfl, rfl⟩))
      | some n =>
        cases n with
        | zero => exact .inr (.inr (.inr (.inl ⟨trivial, trivial, rfl, rfl⟩)))
        | succ n => exact .inr (.inr (.inr (.inr ⟨n, trivial, trivial, rfl, rfl⟩)))

/-- What the block's reset leaves alone: everything outside the block (70_reset_and_hazards.md R304; log 11). -/
theorem State.blockReset_outside (s : State) :
    s.blockReset.hasCs = s.hasCs ∧ s.blockReset.hasRst = s.hasRst ∧ s.blockReset.glyphCount = s.glyphCount ∧
      s.blockReset.rom = s.rom ∧ s.blockReset.pix = s.pix ∧ s.blockReset.bits = s.bits ∧ s.blockReset.text = s.text ∧
      s.blockReset.grants = s.grants ∧ s.blockReset.inputs = s.inputs :=
  ⟨rfl, rfl, rfl, rfl, rfl, rfl, rfl, rfl, rfl⟩

/-- The trace and the sink after the block's reset (70_reset_and_hazards.md R302, R304). -/
theorem State.blockReset_trace (s : State) :
    s.blockReset.trace = (if s.busy then s.trace else []) ∧ s.blockReset.sink = (if s.busy then s.sink.loseAll else s.sink) := by
  cases h : s.busy <;> simp [State.blockReset, State.trace, h]

end Sys2Proof.Machine
end

