-- ==== Sys2Proof/Tests/Slice0.lean ====
section
/-! SUPPORT. Tests: ill-formed terms, words written out from the spec's encodings, one step per instruction against the vectors of
95_test_vectors.md, and states that meet the premises of each statement. Nothing here is a statement for the provers. -/
namespace Sys2Proof.Tests
open Sys2Proof.Machine

-- Helpers

/-- The block after BEGIN as far as the handshake goes; strap `HAS_CS` as given. -/
def ready (hasCs : Bool := true) : State := { State.reset with begun := true, hasCs := hasCs }

/-- The same with the panel in 16-bit colour mode. -/
def drawing : State := { ready with sink := { resetSink with colMode := 0x05#8 } }

/-- The same with the bus held. -/
def holding : State := { ready with lock := true, busReq := true }

/-- The glyph of 'A' of the test table `TROM` (95_test_vectors.md, notation). -/
def glyphA : List Byte := [0x00#8, 0xFC#8, 0x02#8, 0x02#8, 0x02#8, 0xFC#8, 0x00#8, 0x00#8, 0x3F#8, 0x01#8, 0x01#8, 0x01#8, 0x3F#8, 0x00#8]

/-- The list as a space that starts at an index. -/
def space {w : Nat} : Nat → List (BitVec w) → Memory w
  | _, [] => []
  | i, v :: vs => (i, v) :: space (i + 1) vs

/-- With `TROM`, as far as it is 'A', and a text of 'A's at 0x300. -/
def lettered : State := { ready with glyphCount := 95, rom := space 462 glyphA, text := space 0x300 [0x41#8, 0x41#8, 0x41#8] }

/-- The state after a step that has one. -/
def after (o : Host.Outcome State Fault Refusal) : Option State :=
  match o with
  | .next t => some t
  | .fault _ => none
  | .refused _ => none

/-- The trace after a step. -/
def traceAfter (o : Host.Outcome State Fault Refusal) : Option (List Event) := (after o).map State.trace

/-- The frames of a trace after a step. -/
def viewAfter (o : Host.Outcome State Fault Refusal) : Option (List View) := (traceAfter o).map frameView

/-- The name of a refusal. -/
def refusal (o : Host.Outcome State Fault Refusal) : Option Refusal :=
  match o with
  | .next _ => none
  | .fault _ => none
  | .refused r => some r

-- Ill-formed terms: one for each check

theorem test_wf_empty_stream : (Instr.mopSendData16 []).wf = false := by decide
theorem test_wf_empty_memory_write : (Instr.frmMemWrite []).wf = false := by decide
theorem test_wf_no_repetition : (Instr.mopSendDataRep 0 0).wf = false := by decide
theorem test_wf_too_many_repetitions : (Instr.mopSendDataRep 0 12801).wf = false := by decide
theorem test_wf_select_no_width : (Instr.mopSelect 0 0 0 1).wf = false := by decide
theorem test_wf_select_no_height : (Instr.mopSelect 0 0 1 0).wf = false := by decide
theorem test_wf_select_past_the_right : (Instr.mopSelect 1 0 160 1).wf = false := by decide
theorem test_wf_select_past_the_bottom : (Instr.mopSelect 0 1 1 80).wf = false := by decide

-- Words written out: the packed words of 95_test_vectors.md B6 and 30_encoding.md R100, R101

theorem test_decode_begin : decode (.request 0x0200000000000000000000000000000000000000000000#181) = .ok .reqBegin := by decide
theorem test_decode_reset : decode (.request 0x0400000000000000000000000000000000000000000000#181) = .ok .reqReset := by decide
theorem test_decode_power :
    decode (.request 0x0600000000000000000000000000000000000000000000#181) = .ok (.reqPower false) ∧
      decode (.request 0x0700000000000000000000000000000000000000000000#181) = .ok (.reqPower true) := by decide
theorem test_decode_flip :
    decode (.request 0x0800000000000000000000000000000000000000000000#181) = .ok (.reqFlip false) ∧
      decode (.request 0x0900000000000000000000000000000000000000000000#181) = .ok (.reqFlip true) := by decide
theorem test_decode_inverse :
    decode (.request 0x0A00000000000000000000000000000000000000000000#181) = .ok (.reqInverse false) ∧
      decode (.request 0x0B00000000000000000000000000000000000000000000#181) = .ok (.reqInverse true) := by decide
theorem test_decode_fill :
    decode (.request 0x0C000096000000140050FFFF0000000000000000000000#181) = .ok (.reqFill 150 0 20 80 0xFFFF) ∧
      decode (.request 0x0C000000004FFFFFFFFF12340000000000000000000000#181) = .ok (.reqFill 0 79 65535 65535 0x1234) := by
  decide
theorem test_decode_blit :
    decode (.request 0x0E00009E004E0003000300000000000001000000000000#181) = .ok (.reqBlit 158 78 3 3 0x100) := by decide
theorem test_decode_mono_blit :
    decode (.request 0x1000000000000003000AFFFF0000000002000000000000#181) =
      .ok (.reqMonoBlit 0 0 3 10 0x200 0xFFFF 0x0000) := by decide
theorem test_decode_draw_char :
    decode (.request 0x1241009C004600000000FFFF0000000000000000000000#181) =
      .ok (.reqDrawChar 156 70 0x41 0xFFFF 0x0000) := by decide
theorem test_decode_draw_string :
    decode (.request 0x14000090000000000000FFFF0000000003000003000000#181) =
      .ok (.reqDrawString 144 0 0x300 3 0xFFFF 0x0000) := by decide
theorem test_decode_rgb :
    decode (.request 0x1600000000000000000000000000000000000000123456#181) = .ok (.reqRgb 0x12 0x34 0x56) := by decide
/-- Codes 0x0, 0xC and 0xF are reserved (30_encoding.md R114). -/
theorem test_decode_reserved :
    decode (.request 0x00#181) = .error .reservedRequest ∧
      decode (.request 0x1800000000000000000000000000000000000000000000#181) = .error .reservedRequest ∧
      decode (.request 0x1F00000000000000000000000000000000000000000000#181) = .error .reservedRequest := by decide
/-- Fields an operation does not use are ignored (10_state.md R21). -/
theorem test_decode_ignores_unused :
    decode (.request 0x0C7F0096000000140050FFFFAAAA123456780300FFFFFF#181) = .ok (.reqFill 150 0 20 80 0xFFFF) := by decide

-- Bytes written out: the frames of 30_encoding.md R103, R104, R105

theorem test_decode_frames_without_payload :
    decode (.frame [0x01#8]) = .ok .frmSoftReset ∧ decode (.frame [0x11#8]) = .ok .frmExitSleep ∧
      decode (.frame [0x10#8]) = .ok .frmEnterSleep ∧ decode (.frame [0x13#8]) = .ok .frmNormalOn ∧
      decode (.frame [0x20#8]) = .ok .frmInvertOff ∧ decode (.frame [0x21#8]) = .ok .frmInvertOn ∧
      decode (.frame [0x29#8]) = .ok .frmDisplayOn ∧ decode (.frame [0x28#8]) = .ok .frmDisplayOff := by decide
theorem test_decode_frames_with_argument :
    decode (.frame [0x36#8, 0xA8#8]) = .ok (.frmSetOrient 0xA8) ∧ decode (.frame [0x3A#8, 0x05#8]) = .ok (.frmSetColMode 0x05) ∧
      decode (.frame [0x2A#8, 0x00#8, 0x96#8, 0x00#8, 0x9F#8]) = .ok (.frmColAddrSet 150 159) ∧
      decode (.frame [0x2B#8, 0x00#8, 0x18#8, 0x00#8, 0x67#8]) = .ok (.frmRowAddrSet 24 103) ∧
      decode (.frame [0x2C#8, 0x10#8, 0x00#8, 0x10#8, 0x01#8]) = .ok (.frmMemWrite [0x1000, 0x1001]) := by decide
theorem test_decode_bad_frames :
    decode (.frame []) = .error .emptyFrame ∧ decode (.frame [0x00#8]) = .error .unknownCommand ∧
      decode (.frame [0x29#8, 0x00#8]) = .error .frameLength ∧ decode (.frame [0x36#8]) = .error .frameLength ∧
      decode (.frame [0x2A#8, 0x00#8, 0x00#8, 0x00#8]) = .error .frameLength ∧ decode (.frame [0x2C#8]) = .error .frameLength ∧
      decode (.frame [0x2C#8, 0x12#8]) = .error .frameLength := by decide
/-- A micro-operation has no binary encoding and stands for itself (30_encoding.md R113; log 2). -/
theorem test_decode_micro_operations :
    ∀ i ∈ [Instr.mopTx8 0x2C, .mopTx16 0xF800, .mopTxn 0x36 [0x68], .mopAcquire, .mopRelease, .mopSendCmd0 0x11,
        .mopSendCmd1 0x3A 0x05, .mopSendCmdN 0x2B [0, 0x18, 0, 0x67], .mopSendData16 [0x1111], .mopSendDataRep 0x07E0 3,
        .mopSendData8, .mopDelay 120, .mopRstPulse, .mopClip 150 0 20 80, .mopSelect 10 20 3 2],
      decode (.micro i) = .ok i := by decide
theorem test_decode_micro_holds_no_request : decode (.micro .reqBegin) = .error .notMicro := by decide
/-- Row FILL of the opcode table: `match` 0x6 over the four bits of `req_op` (log 4). -/
theorem test_table_word_of_a_request : decodeTableWord 8 0x06 = some (.reqFill 0 0 0 0 0) := by decide
/-- Row SET_ORIENT of the opcode table: command byte 0x36, argument byte in bits 15 to 8. -/
theorem test_table_word_of_a_frame : decodeTableWord 16 0xA836 = some (.frmSetOrient 0xA8) := by decide
theorem test_with_fetch_word :
    (after (step (State.reset.withFetchWord 8 0x0B))).map (fun t => (t.opnd.op, t.respData)) = some (0xB#4, 0x0000#16) := by decide

-- One step per instruction

/-- V70: RGB before BEGIN. -/
theorem test_rgb_red : (after (exec (.reqRgb 255 0 0) State.reset)).map (fun t => (t.respData, t.traceRev)) = some (0xF800#16, []) := by
  decide
/-- V30. -/
theorem test_rgb_mixed : (after (exec (.reqRgb 0xAB 0xCD 0xEF) State.reset)).map State.respData = some 0xAE7D#16 := by decide
/-- V34: the frames of FILL 10, 20, 3, 2, 0x07E0. -/
theorem test_fill_frames :
    viewAfter (exec (.reqFill 10 20 3 2 0x07E0) ready) = some
      [.frame 0x2A [0x00, 0x0A, 0x00, 0x0C], .frame 0x2B [0x00, 0x2C, 0x00, 0x2D],
       .frame 0x2C [0x07, 0xE0, 0x07, 0xE0, 0x07, 0xE0, 0x07, 0xE0, 0x07, 0xE0, 0x07, 0xE0]] := by decide
/-- V33, V34: the pixels of FILL 159, 79, 5, 5, 0xF800. -/
theorem test_fill_last_pixel :
    (after (exec (.reqFill 159 79 5 5 0xF800) drawing)).map (fun t => t.sink.panel) = some [(panelAddr 159 103, 0xF800)] := by decide
/-- V39: BLIT clipped to two columns and two rows, stride three. -/
theorem test_blit_stride :
    viewAfter (exec (.reqBlit 158 78 3 3 0x100)
      { ready with pix := space 0x100 [0x1000, 0x1001, 0x1002, 0x1003, 0x1004, 0x1005, 0x1006, 0x1007, 0x1008] }) = some
      [.frame 0x2A [0x00, 0x9E, 0x00, 0x9F], .frame 0x2B [0x00, 0x66, 0x00, 0x66], .frame 0x2C [0x10, 0x00, 0x10, 0x01],
       .frame 0x2A [0x00, 0x9E, 0x00, 0x9F], .frame 0x2B [0x00, 0x67, 0x00, 0x67], .frame 0x2C [0x10, 0x03, 0x10, 0x04]] := by
  decide
/-- V40, the streams of its ten rows: both bands. -/
theorem test_mono_blit_bands :
    (viewAfter (exec (.reqMonoBlit 0 0 3 10 0x200 0xFFFF 0x0000)
      { ready with bits := space 0x200 [0x01#8, 0x02#8, 0xFF#8, 0x02#8, 0x00#8, 0x01#8] })).map (fun vs =>
        vs.filter fun v => decide (v.pixels = 3)) = some
      ([.frame 0x2C [0xFF, 0xFF, 0x00, 0x00, 0xFF, 0xFF], .frame 0x2C [0x00, 0x00, 0xFF, 0xFF, 0xFF, 0xFF]] ++
        List.replicate 7 (.frame 0x2C [0x00, 0x00, 0x00, 0x00, 0xFF, 0xFF]) ++
        [.frame 0x2C [0xFF, 0xFF, 0x00, 0x00, 0x00, 0x00]]) := by decide +kernel
/-- V52: DRAWCHAR at (159, 79) is one background pixel. -/
theorem test_draw_char_corner :
    viewAfter (exec (.reqDrawChar 159 79 0x41 0xFFFF 0x0000) lettered) = some
      [.frame 0x2A [0x00, 0x9F, 0x00, 0x9F], .frame 0x2B [0x00, 0x67, 0x00, 0x67], .frame 0x2C [0x00, 0x00]] := by decide +kernel
/-- V51: 40 pixel words, the glyph cut, the gap dropped. -/
theorem test_draw_char_cut :
    (traceAfter (exec (.reqDrawChar 156 70 0x41 0xFFFF 0x0000) lettered)).map (fun es => (pixelCount es, (frameView es).length)) =
      some (40, 30) := by decide +kernel
/-- V55: "AB" at 153 draws one character and leaves the cursor at 161. -/
theorem test_draw_string_one_character :
    (after (exec (.reqDrawString 153 0 0x300 2 0xFFFF 0x0000) lettered)).map (fun t =>
      (t.work.curx, pixelCount t.trace, (frameView t.trace).length)) = some (161#16, 112, 48) := by decide +kernel
/-- V55: nothing at 160. -/
theorem test_draw_string_at_the_edge :
    traceAfter (exec (.reqDrawString 160 0 0x300 2 0xFFFF 0x0000) lettered) = some [] := by decide
/-- V62: BEGIN before BEGIN. -/
theorem test_begin_registers :
    (after (exec .reqBegin State.reset)).map (fun t => (t.pstate, t.begun, t.lock, t.busy, t.pins.dc)) =
      some (.awake, true, false, false, false) := by decide +kernel
/-- V61: without a reset line RESET begins with the software reset. -/
theorem test_reset_registers :
    (after (exec .reqReset { ready with hasRst := false })).map (fun t => (t.pstate, t.work.wc, t.work.hc)) =
      some (.awake, 160#8, 80#8) := by decide +kernel
/-- V63: POWER 0 with a device-select line. -/
theorem test_power_off :
    traceAfter (exec (.reqPower false) ready) = some [.acq, .cs false, .dc false, .tx8 0x28, .rel, .cs true, .acq, .cs false,
      .dc false, .tx8 0x10, .rel, .cs true, .delay 120] := by decide
/-- V63: POWER 1 without one. -/
theorem test_power_on :
    traceAfter (exec (.reqPower true) (ready false)) = some [.acq, .dc false, .tx8 0x11, .rel, .delay 120, .acq, .dc false,
      .tx8 0x29, .rel] := by decide
/-- V64. -/
theorem test_flip :
    viewAfter (exec (.reqFlip true) ready) = some [.frame 0x36 [0xA8]] ∧ viewAfter (exec (.reqFlip false) ready) = some
      [.frame 0x36 [0x68]] := by decide
/-- V65. -/
theorem test_inverse :
    viewAfter (exec (.reqInverse true) ready) = some [.frame 0x21 []] ∧ viewAfter (exec (.reqInverse false) ready) = some
      [.frame 0x20 []] := by decide
/-- 20_memory.md R89, R93. -/
theorem test_frames_reach_the_sink :
    (after (exec .frmDisplayOn drawing)).map (fun t => t.sink.dispOn) = some true ∧
      (after (exec .frmDisplayOff { drawing with sink := { drawing.sink with dispOn := true } })).map (fun t => t.sink.dispOn) =
        some false ∧
      (after (exec .frmInvertOn drawing)).map (fun t => t.sink.inv) = some true ∧
      (after (exec .frmInvertOff { drawing with sink := { drawing.sink with inv := true } })).map (fun t => t.sink.inv) =
        some false ∧
      (after (exec .frmEnterSleep drawing)).map (fun t => t.sink.sleep) = some true ∧
      (after (exec .frmExitSleep { drawing with sink := { drawing.sink with sleep := true } })).map (fun t => t.sink.sleep) =
        some false ∧
      (after (exec .frmNormalOn drawing)).map (fun t => t.sink.normal) = some true := by decide
/-- 20_memory.md R90, R93. -/
theorem test_arguments_reach_the_sink :
    (after (exec (.frmSetOrient 0x68) drawing)).map (fun t => t.sink.orient) = some 0x68#8 ∧
      (after (exec (.frmSetColMode 0x06) drawing)).map (fun t => t.sink.colMode) = some 0x06#8 ∧
      (after (exec (.frmColAddrSet 150 159) drawing)).map (fun t => (t.sink.winXS, t.sink.winXE)) = some (150#16, 159#16) ∧
      (after (exec (.frmRowAddrSet 24 103) drawing)).map (fun t => (t.sink.winYS, t.sink.winYE)) = some (24#16, 103#16) := by
  decide
theorem test_soft_reset_frame : (after (exec .frmSoftReset drawing)).map (fun t => t.sink.panel) = some [] := by decide
/-- 20_memory.md R91: the pointer starts at the start corner. -/
theorem test_memory_write_frame :
    (after (exec (.frmMemWrite [0x1234]) { drawing with sink := { drawing.sink with winXS := 7, winXE := 7, winYS := 24, winYE := 24 } })).map
      (fun t => t.sink.panel) = some [(panelAddr 7 24, 0x1234)] := by decide
/-- V10. -/
theorem test_tx8_wave :
    risingSamples false (byteWave 0x2C) = [false, false, true, false, true, true, false, false] ∧
      (after (exec (.mopTx8 0x01) holding)).map (fun t => (t.pins.mosi, t.pins.sck)) = some (true, false) := by decide
/-- V9. -/
theorem test_tx16 : traceAfter (exec (.mopTx16 0x001F) holding) = some [.tx8 0x00, .tx8 0x1F] := by decide
/-- V1. -/
theorem test_txn :
    traceAfter (exec (.mopTxn 0x36 [0x68]) ready) =
      some [.acq, .cs false, .dc false, .tx8 0x36, .dc true, .tx8 0x68, .rel, .cs true] := by decide
/-- V4. -/
theorem test_send_cmd0 : traceAfter (exec (.mopSendCmd0 0x29) (ready false)) = some [.acq, .dc false, .tx8 0x29, .rel] := by decide
/-- V5. -/
theorem test_send_cmd1 :
    traceAfter (exec (.mopSendCmd1 0x3A 0x05) ready) =
      some [.acq, .cs false, .dc false, .tx8 0x3A, .dc true, .tx8 0x05, .rel, .cs true] := by decide
/-- V6. -/
theorem test_send_cmd_n :
    traceAfter (exec (.mopSendCmdN 0x2B [0x00, 0x18, 0x00, 0x67]) ready) = some [.acq, .cs false, .dc false, .tx8 0x2B, .dc true,
      .tx8 0x00, .tx8 0x18, .tx8 0x00, .tx8 0x67, .rel, .cs true] := by decide
/-- V7. -/
theorem test_send_data16 :
    traceAfter (exec (.mopSendData16 [0x1111, 0x2222]) (ready false)) =
      some [.acq, .dc false, .tx8 0x2C, .dc true, .tx8 0x11, .tx8 0x11, .tx8 0x22, .tx8 0x22, .rel] := by decide
/-- V8. -/
theorem test_send_data_rep :
    traceAfter (exec (.mopSendDataRep 0x07E0 3) ready) = some [.acq, .cs false, .dc false, .tx8 0x2C, .dc true, .tx8 0x07, .tx8 0xE0,
      .tx8 0x07, .tx8 0xE0, .tx8 0x07, .tx8 0xE0, .rel, .cs true] := by decide
/-- 40_bus_transport.md R144, R151. -/
theorem test_acquire_and_release :
    (after (exec .mopAcquire ready)).map (fun t => (t.lock, t.busReq)) = some (true, true) ∧
      (after (exec .mopRelease holding)).map (fun t => (t.lock, t.busReq, t.traceRev)) = some (false, false, [.rel]) := by decide
/-- 60_exceptions.md R278. -/
theorem test_acquire_waits :
    (after (exec .mopAcquire { ready with grants := some 0 })).map (fun t => (t.lock, t.busReq, t.busy, t.traceRev)) =
      some (false, true, true, []) := by decide
/-- 60_exceptions.md R278: POWER 0 that is granted one of its two transactions waits, `PSTATE` as before. -/
theorem test_power_waits :
    (after (exec (.reqPower false) { ready with grants := some 1, pstate := .awake })).map
        (fun t => (t.busy, t.busReq, t.pstate, frameView t.trace)) = some (true, true, .awake, [.frame 0x28 []]) := by decide
/-- 10_state.md R32: the pulse of `resp_done` is over when the next code runs. -/
theorem test_resp_done_pulse :
    (after (step { ready with respDone := true, inputs := [.micro (.mopDelay 1)] })).map (fun t => t.respDone) = some false := by decide
/-- V11. -/
theorem test_delay_and_rst_pulse :
    traceAfter (exec (.mopDelay 120) ready) = some [.delay 120] ∧
      traceAfter (exec .mopRstPulse ready) = some [.rst false, .delay 100, .rst true, .delay 120] := by decide
/-- V20. -/
theorem test_clip :
    (after (exec (.mopClip 150 0 20 80) ready)).map (fun t => (t.work.wc, t.work.hc)) = some (10#8, 80#8) ∧
      (after (exec (.mopClip 100 79 61 2) ready)).map (fun t => (t.work.wc, t.work.hc)) = some (60#8, 1#8) := by decide
theorem test_clip_none :
    after (exec (.mopClip 160 0 1 1) ready) = some ready ∧ after (exec (.mopClip 0 80 1 1) ready) = some ready ∧
      after (exec (.mopClip 0 0 0 5) ready) = some ready ∧ after (exec (.mopClip 0 0 5 0) ready) = some ready := ⟨rfl, rfl, rfl, rfl⟩
/-- V22. -/
theorem test_select :
    viewAfter (exec (.mopSelect 159 79 1 1) ready) =
      some [.frame 0x2A [0x00, 0x9F, 0x00, 0x9F], .frame 0x2B [0x00, 0x67, 0x00, 0x67]] := by decide
/-- 40_bus_transport.md R150. -/
theorem test_send_data8 : refusal (exec .mopSendData8 ready) = some .sendData8 := by decide
/-- 10_state.md R28: FILL before BEGIN. -/
theorem test_before_begin : refusal (exec (.reqFill 0 0 1 1 0) State.reset) = some .beforeBegin := by decide
/-- V49: glyph offsets. -/
theorem test_glyph_offset : glyphOffset 0x41 = 462 ∧ glyphOffset 0x20 = 0 ∧ glyphOffset 0x1F = -14 ∧ glyphOffset 0xFF = 3122 := by
  decide
/-- The memory's canonical form is kept when a pixel is written before, at and after a listed one. -/
theorem test_memory_put :
    Memory.put [(5, 1#16), (9, 2#16)] 7 3#16 = [(5, 1#16), (7, 3#16), (9, 2#16)] ∧
      Memory.put [(5, 1#16), (9, 2#16)] 9 3#16 = [(5, 1#16), (9, 3#16)] := by decide

-- The premises of the statements are met: one theorem each, with the boundary values of each clause

/-- A request of the table presented to the block after BEGIN: RGB 0x12, 0x34, 0x56. -/
def presented : State := { ready with inputs := [.request 0x1600000000000000000000000000000000000000123456#181] }

/-- The block after BEGIN with its lines driven. -/
def driven : State :=
  { ready with pins := { resetPins with csNOe := true, dcOe := true, rstNOe := true, sckOe := true, mosiOe := true } }

theorem test_meets_DecodeReadsWhatEncodeWrites :
    ∀ i ∈ [Instr.frmMemWrite [0], .mopSendDataRep 0 1, .mopSendDataRep 0 12800, .mopSelect 159 79 1 1, .mopSelect 0 0 160 80,
      .mopSendData16 [0], .reqFill 65535 65535 65535 65535 65535], i.wf = true := by decide
theorem test_meets_FrameBytesAreThoseOfTheirFrame :
    decodeFrame [0x2C#8, 0xF8#8, 0x00#8] = .ok (.frmMemWrite [0xF800]) ∧ decodeFrame [0x29#8] = .ok .frmDisplayOn := by decide
theorem test_meets_RequestCodesOneToElevenAreOperations :
    ((unpack 0x0200000000000000000000000000000000000000000000#181).op.toNat = 1 ∧
      (unpack 0x1600000000000000000000000000000000000000000000#181).op.toNat = 11 ∧ (1 ≤ 1 ∧ 1 ≤ 11) ∧ (1 ≤ 11 ∧ 11 ≤ 11)) ∧
    ((unpack 0x00#181).op.toNat = 0 ∧ (unpack 0x1800000000000000000000000000000000000000000000#181).op.toNat = 12 ∧
      (unpack 0x1E00000000000000000000000000000000000000000000#181).op.toNat = 15 ∧ ¬ (1 ≤ 0 ∧ 0 ≤ 11) ∧ ¬ (1 ≤ 12 ∧ 12 ≤ 11) ∧
      ¬ (1 ≤ 15 ∧ 15 ≤ 11)) := by decide
theorem test_meets_StepRunsTheDecodedInstruction :
    presented.blkRst = false ∧ presented.busy = false ∧
      presented.inputs = .request 0x1600000000000000000000000000000000000000123456#181 :: [] ∧
      decode (.request 0x1600000000000000000000000000000000000000123456#181) = .ok (.reqRgb 0x12 0x34 0x56) ∧
      (Instr.reqRgb 0x12 0x34 0x56).wf = true := by decide
theorem test_meets_OperandRegistersHoldTheRequest :
    presented.blkRst = false ∧ presented.busy = false ∧
      presented.inputs = .request 0x1600000000000000000000000000000000000000123456#181 :: [] ∧
      decode (.request 0x1600000000000000000000000000000000000000123456#181) = .ok (.reqRgb 0x12 0x34 0x56) ∧
      ∃ t, step presented = .next t := by
  refine ⟨by decide, by decide, by decide, by decide, _, rfl⟩
theorem test_meets_ReservedRequestCompletesWithoutEffect :
    let s := { ready with inputs := [.request 0x1800000000000000000000000000000000000000000000#181] }
    s.blkRst = false ∧ s.busy = false ∧ s.inputs = .request 0x1800000000000000000000000000000000000000000000#181 :: [] ∧
      decode (.request 0x1800000000000000000000000000000000000000000000#181) = .error .reservedRequest := by decide
theorem test_meets_IdleBlockDoesNothing :
    State.reset.blkRst = false ∧ State.reset.busy = false ∧ State.reset.inputs = [] := by decide
theorem test_meets_WaitingBlockIgnoresRequests :
    let s := { ready with busy := true, busReq := true }
    s.blkRst = false ∧ s.busy = true ∧ (Instr.reqFill 0 0 1 1 0).kind = .request ∧ Instr.reqBegin.kind = .request := by decide
theorem test_meets_BlockResetGivesTheResetValues :
    let s := { ready with blkRst := true }
    let u := { s with busy := true }
    s.blkRst = true ∧ s.busy = false ∧ u.blkRst = true ∧ u.busy = true := by decide
/-- Also for TX16. -/
theorem test_meets_Tx8ShiftsOneByteOut : holding.begun = true ∧ holding.lock = true := by decide
/-- Also for the other statements whose only premise is that a transaction can run. -/
theorem test_meets_TransactionSendsOneFrame : ready.BusReady ∧ (ready false).BusReady := by decide
theorem test_meets_SendData16StreamsItsPixels : ([0x1111, 0x2222] : List Half) ≠ [] ∧ ready.BusReady := by decide
theorem test_meets_SendDataRepRepeatsOnePixel : (1 ≤ 1 ∧ 1 ≤ 12800) ∧ (1 ≤ 12800 ∧ 12800 ≤ 12800) ∧ ready.BusReady := by decide
theorem test_meets_AcquireTakesAGrantedBusOrWaits :
    ready.begun = true ∧ ready.lock = false ∧ ready.grants = none ∧
      ({ ready with grants := some 1 } : State).grants = some (0 + 1) ∧ ({ ready with grants := some 0 } : State).grants = some 0 := by
  decide
theorem test_meets_RstPulseLowThenHigh : ready.begun = true ∧ ready.hasRst = true := by decide
theorem test_meets_FailedPreconditionsStop :
    ready.begun = true ∧ ready.lock = false ∧ holding.begun = true ∧ holding.lock = true ∧
      ({ ready with hasRst := false } : State).hasRst = false ∧
      ¬ (1 ≤ 0 ∧ 1 ≤ 1 ∧ 0 + 0 ≤ 160 ∧ 0 + 1 ≤ 80) ∧ ¬ (1 ≤ 161 ∧ 1 ≤ 1 ∧ 0 + 161 ≤ 160 ∧ 0 + 1 ≤ 80) ∧
      ¬ (1 ≤ 1 ∧ 1 ≤ 1 ∧ 0 + 1 ≤ 160 ∧ 80 + 1 ≤ 80) ∧ ¬ (1 ≤ 0 ∧ 0 ≤ 12800) ∧ ¬ (1 ≤ 12801 ∧ 12801 ≤ 12800) := by decide
theorem test_meets_RequestsBeforeBeginAreRefused :
    (Instr.reqReset).kind = .request ∧ Instr.reqReset ≠ .reqBegin ∧ (∀ r g b, Instr.reqReset ≠ .reqRgb r g b) ∧
      State.reset.busy = false ∧ State.reset.begun = false := by
  refine ⟨by decide, by decide, fun _ _ _ h => ?_, by decide, by decide⟩
  cases h
theorem test_meets_ClippedSizeStaysInThePanel :
    clip 150 0 20 80 = some (10, 80) ∧ clip 159 79 5 5 = some (1, 1) ∧ clip 0 0 65535 65535 = some (160, 80) := by decide
theorem test_meets_SelectProgramsTheWindow :
    (1 ≤ 1 ∧ 1 ≤ 1 ∧ 159 + 1 ≤ 160 ∧ 79 + 1 ≤ 80) ∧ (1 ≤ 160 ∧ 1 ≤ 80 ∧ 0 + 160 ≤ 160 ∧ 0 + 80 ≤ 80) ∧ ready.BusReady := by decide
theorem test_meets_EveryFrameIsOneTransaction : ready.BusReady ∧ ([0x1234] : List Half) ≠ [] := by decide
theorem test_meets_SinkReadsCommandAndArgumentFrames :
    (drawing.BusReady ∧ SinkSettled drawing) ∧
      let s := { drawing with lock := true, pins := { drawing.pins with csN := false, dc := false } }
      s.begun = true ∧ s.lock = true ∧ s.sinkListens = true ∧ s.pins.dc = false ∧ SinkSettled s := by decide
theorem test_meets_StreamFillsExactlyTheWindow :
    drawing.BusReady ∧ SinkSettled drawing ∧ drawing.sink.colMode = 0x05#8 ∧
      ((159#16).toNat ≤ (159#16).toNat ∧ (159#16).toNat < 160 ∧ (103#16).toNat ≤ (103#16).toNat ∧ (103#16).toNat < 104 ∧
        [0x1234#16].length = ((159#16).toNat - (159#16).toNat + 1) * ((103#16).toNat - (103#16).toNat + 1)) ∧
      ((0#16).toNat ≤ (1#16).toNat ∧ (1#16).toNat < 160 ∧ (0#16).toNat ≤ (1#16).toNat ∧ (1#16).toNat < 104 ∧
        [1#16, 2#16, 3#16, 4#16].length = ((1#16).toNat - (0#16).toNat + 1) * ((1#16).toNat - (0#16).toNat + 1)) := by decide
theorem test_meets_RgbPacksTheUpperBits : State.reset.busy = false ∧ ready.busy = false := by decide
/-- Also for every statement whose only premise is that a request is served to its end. -/
theorem test_meets_EveryRequestCompletesWhenGranted :
    (Instr.reqFill 0 0 1 1 0).kind = .request ∧ (Instr.reqBegin).kind = .request ∧ ready.Ready ∧ lettered.Ready := by decide
/-- Also for the other statements on what a drawing leaves in the panel. -/
theorem test_meets_FillPaintsTheRectangle : drawing.Ready ∧ SinkSettled drawing ∧ drawing.sink.colMode = 0x05#8 := by decide
theorem test_meets_PixelWordsEqualTheClippedArea :
    ready.Ready ∧ ((159#16).toNat < 160 ∧ (79#16).toNat < 80 ∧ 1 ≤ (1#16).toNat ∧ 1 ≤ (1#16).toNat) ∧
      ¬ ((160#16).toNat < 160 ∧ (79#16).toNat < 80 ∧ 1 ≤ (1#16).toNat ∧ 1 ≤ (1#16).toNat) ∧
      ¬ ((159#16).toNat < 160 ∧ (79#16).toNat < 80 ∧ 1 ≤ (0#16).toNat ∧ 1 ≤ (1#16).toNat) := by decide
theorem test_meets_OffPanelDrawingEmitsNothing :
    ready.Ready ∧ (160 ≤ (160#16).toNat ∨ 80 ≤ (0#16).toNat) ∧ (160 ≤ (0#16).toNat ∨ 80 ≤ (80#16).toNat) := by decide
theorem test_meets_DrawStringDrawsUntilTheEdge :
    lettered.Ready ∧ drawnChars 0 25 = 20 ∧ drawnChars 153 2 = 1 ∧ drawnChars 160 2 = 0 := by decide
theorem test_meets_BeginConfiguresTheLinesAndResets :
    (State.reset.busy = false ∧ State.reset.lock = false ∧ State.reset.grants = none) ∧
      (ready.busy = false ∧ ready.lock = false ∧ ready.grants = none) := by decide
theorem test_meets_BringUpLeavesABlackPanel :
    ready.busy = false ∧ ready.lock = false ∧ ready.grants = none ∧ Instr.reqReset = .reqReset ∧ ready.begun = true := by decide
theorem test_meets_OnlyLifecycleRequestsChangeThePowerState :
    Instr.reqFlip true ≠ .reqBegin ∧ Instr.reqFlip true ≠ .reqReset ∧ (∀ on, Instr.reqFlip true ≠ .reqPower on) ∧
      ∃ t, exec (.reqFlip true) ready = .next t := by
  refine ⟨by decide, by decide, by decide, _, rfl⟩
theorem test_meets_NoStepWritesWhatIsOutside : ∃ t, step presented = .next t := ⟨_, rfl⟩
theorem test_meets_EmittedEventsStayEmitted :
    presented.blkRst = false ∧ presented.begun = true ∧ ∃ t, step presented = .next t := ⟨by decide, by decide, _, rfl⟩
theorem test_meets_RequestsWaitWhereTheGrantsEnd :
    (∀ n ∈ [0, 1], let s := { ready with grants := some n };
      (Instr.reqPower false).kind = .request ∧ s.busy = false ∧ s.begun = true ∧ s.lock = false ∧ s.grants = some n) ∧
    (let s := { State.reset with grants := some 0 };
      Instr.reqBegin.kind = .request ∧ s.busy = false ∧ s.lock = false ∧ s.grants = some 0) ∧
    ∀ n ∈ [0, 1, 2], let s := { ready with grants := some n }
      s.busy = false ∧ s.begun = true ∧ s.lock = false ∧ s.grants = some n ∧ n < 3 ∧ (159#16).toNat < 160 ∧ (79#16).toNat < 80 ∧
        1 ≤ (1#16).toNat ∧ 1 ≤ (1#16).toNat := by decide
theorem test_meets_EveryStepKeepsTheMachineInvariant :
    Inv { driven with inputs := [.micro .mopAcquire] } ∧ ∃ t, step { driven with inputs := [.micro .mopAcquire] } = .next t ∧
      t.lock = true := by
  refine ⟨⟨by decide, by decide, by decide, by decide, by decide, by decide, by decide, by decide, by decide⟩, _, rfl, by decide⟩
theorem test_meets_RequestsNeverLeaveAFrameOpen : BetweenFrames presented ∧ ∃ t, step presented = .next t := by
  refine ⟨⟨by decide, fun c hc => ?_⟩, _, rfl⟩
  rw [List.mem_singleton.mp hc]
  exact ⟨_, rfl⟩

end Sys2Proof.Tests
end

