-- ==== Sys2Proof/Proofs/Step.lean ====
section
/-! What one step of the machine and one arm of `exec` can do, said once: which code a step takes, which operations run as a served
request and which as a sequence of bus operations run alone. The proofs about every step are case splits along these lemmas. -/
namespace Sys2Proof.Machine

-- The step

/-- `blk_rst` has priority over everything (60_exceptions.md R275). -/
theorem step_blkRst {s : State} (hr : s.blkRst = true) : step s = .next s.blockReset := by
  simp only [step, hr, if_true]

/-- A block that waits for a grant stays in the wait (60_exceptions.md R278). -/
theorem step_busy {s : State} (hr : s.blkRst = false) (hb : s.busy = true) : step s = .next s := by
  simp only [step, hr, hb, Bool.false_eq_true, if_true, if_false]

theorem step_idle {s : State} (hr : s.blkRst = false) (hb : s.busy = false) (hi : s.inputs = []) :
    step s = .next s.idleStep := by
  simp only [step, hr, hb, hi, Bool.false_eq_true, if_false]

theorem step_takes {s : State} {c : Code} {rest : List Code} (hr : s.blkRst = false) (hb : s.busy = false)
    (hi : s.inputs = c :: rest) : step s = runCode c { s with inputs := rest } := by
  simp only [step, hr, hb, hi, Bool.false_eq_true, if_false]

/-- Everything that one step can do: reset the block, stay in a wait, idle, or run the next code. -/
theorem step_cases (s : State) :
    (s.blkRst = true ∧ step s = .next s.blockReset) ∨
    (s.blkRst = false ∧ s.busy = true ∧ step s = .next s) ∨
    (s.blkRst = false ∧ s.busy = false ∧ s.inputs = [] ∧ step s = .next s.idleStep) ∨
    (∃ c rest, s.blkRst = false ∧ s.busy = false ∧ s.inputs = c :: rest ∧ step s = runCode c { s with inputs := rest }) := by
  rcases Bool.eq_false_or_eq_true s.blkRst with hr | hr
  · exact .inl ⟨hr, step_blkRst hr⟩
  rcases Bool.eq_false_or_eq_true s.busy with hb | hb
  · exact .inr (.inl ⟨hr, hb, step_busy hr hb⟩)
  rcases hi : s.inputs with _ | ⟨c, rest⟩
  · exact .inr (.inr (.inl ⟨hr, hb, rfl, step_idle hr hb hi⟩))
  · exact .inr (.inr (.inr ⟨c, rest, hr, hb, rfl, step_takes hr hb hi⟩))

theorem runCode_ok {c : Code} {i : Instr} (hd : decode c = .ok i) (s : State) : runCode c s = exec i (s.latch c) := by
  simp only [runCode, hd]

/-- Everything that running a code can do: run its instruction, complete a reserved request, or refuse a code that holds nothing. -/
theorem runCode_cases (c : Code) (s : State) :
    (∃ i, decode c = .ok i ∧ runCode c s = exec i (s.latch c)) ∨
    (decode c = .error .reservedRequest ∧ runCode c s = .next s.completeReserved) ∨
    (∃ e, e ≠ .reservedRequest ∧ decode c = .error e ∧ runCode c s = .refused .badCode) := by
  cases hd : decode c with
  | ok i => exact .inl ⟨i, rfl, runCode_ok hd s⟩
  | error e =>
    cases e with
    | reservedRequest => exact .inr (.inl ⟨rfl, by simp only [runCode, hd]⟩)
    | emptyFrame => exact .inr (.inr ⟨.emptyFrame, nofun, rfl, by simp only [runCode, hd]⟩)
    | unknownCommand => exact .inr (.inr ⟨.unknownCommand, nofun, rfl, by simp only [runCode, hd]⟩)
    | frameLength => exact .inr (.inr ⟨.frameLength, nofun, rfl, by simp only [runCode, hd]⟩)
    | notMicro => exact .inr (.inr ⟨.notMicro, nofun, rfl, by simp only [runCode, hd]⟩)

/-- Latching a code writes at most the operand registers and `resp_done`. -/
theorem State.latch_eq (c : Code) (s : State) : ∃ o d, s.latch c = { s with opnd := o, respDone := d } := by
  cases c with
  | request w => exact ⟨unpack w, s.respDone, rfl⟩
  | frame bytes => exact ⟨s.opnd, false, rfl⟩
  | micro i => exact ⟨s.opnd, false, rfl⟩

-- Requests

/-- The operand registers that accepting the request `i` loads (10_state.md R21). -/
def loadOf (i : Instr) (o : Operands) : Operands :=
  match i with
  | .reqBegin => { o with op := 0x1#4 }
  | .reqReset => { o with op := 0x2#4 }
  | .reqPower on => { o with op := 0x3#4, on := on }
  | .reqFlip on => { o with op := 0x4#4, on := on }
  | .reqInverse on => { o with op := 0x5#4, on := on }
  | .reqFill x y w h color => { o with op := 0x6#4, x := x, y := y, wd := w, ht := h, c0 := color }
  | .reqBlit x y w h src => { o with op := 0x7#4, x := x, y := y, wd := w, ht := h, src := src }
  | .reqMonoBlit x y w h src fg bg => { o with op := 0x8#4, x := x, y := y, wd := w, ht := h, src := src, c0 := fg, c1 := bg }
  | .reqDrawChar x y ch fg bg => { o with op := 0x9#4, x := x, y := y, ch := ch, c0 := fg, c1 := bg }
  | .reqDrawString x y src len fg bg => { o with op := 0xA#4, x := x, y := y, src := src, len := len, c0 := fg, c1 := bg }
  | .reqRgb r g b => { o with op := 0xB#4, r8 := r, g8 := g, b8 := b }
  | _ => o

/-- What the request `i` does once it is accepted, for the nine requests that are refused before BEGIN (10_state.md R28). -/
def servedBody : Instr → Option (State → Res)
  | .reqReset => some panelReset
  | .reqPower on => some (power on)
  | .reqFlip on => some (flip on)
  | .reqInverse on => some (inverse on)
  | .reqFill x y w h color => some (fill x.toNat y.toNat w.toNat h.toNat color)
  | .reqBlit x y w h src => some (blit x.toNat y.toNat w.toNat h.toNat src.toNat)
  | .reqMonoBlit x y w h src fg bg =>
    some (monoBlit .host (src.toNat : Int) x.toNat y.toNat w.toNat h.toNat fg bg)
  | .reqDrawChar x y ch fg bg => some (drawChar x.toNat y.toNat ch fg bg)
  | .reqDrawString x y src len fg bg => some (drawString x.toNat y.toNat src.toNat len.toNat fg bg)
  | _ => none

theorem exec_served {i : Instr} {body : State → Res} (h : servedBody i = some body) (s : State) :
    exec i s = serve (loadOf i) body s := by
  cases i <;> cases h <;> rfl

theorem exec_begin {s : State} (hb : s.busy = false) :
    exec .reqBegin s = (beginAll (s.accept (loadOf .reqBegin))).request := by
  show execBegin s = _
  simp only [execBegin, hb, Bool.false_eq_true, if_false]
  rfl

theorem exec_rgb (r g b : Byte) {s : State} (hb : s.busy = false) :
    exec (.reqRgb r g b) s = .next ((s.accept (loadOf (.reqRgb r g b))).completeWith (packRgb r g b)) := by
  show execRgb r g b s = _
  simp only [execRgb, hb, Bool.false_eq_true, if_false]
  rfl

/-- A request is BEGIN, RGB, or one of the nine that are served after BEGIN only. -/
theorem request_cases {i : Instr} (h : i.kind = .request) :
    i = .reqBegin ∨ (∃ r g b, i = .reqRgb r g b) ∨ ∃ body, servedBody i = some body := by
  cases i with
  | reqBegin => exact .inl rfl
  | reqRgb r g b => exact .inr (.inl ⟨r, g, b, rfl⟩)
  | reqReset | reqPower | reqFlip | reqInverse | reqFill | reqBlit | reqMonoBlit | reqDrawChar | reqDrawString =>
    exact .inr (.inr ⟨_, rfl⟩)
  | _ => cases h

-- Frames and micro-operations run alone

/-- The bus operations that `i`, run alone, consists of: one transaction for a frame (40_bus_transport.md R143), and the
micro-operations that begin with an acquisition. -/
def aloneBody (i : Instr) : Option (State → Res) :=
  match i with
  | .mopTxn c payload => some (txn c payload)
  | .mopAcquire => some acquire
  | .mopSendCmd0 c => some (sendCmd0 c)
  | .mopSendCmd1 c a => some (sendCmd1 c a)
  | .mopSendCmdN c args => some (sendCmdN c args)
  | .mopSendData16 pixels => some (sendData16 pixels)
  | .mopSendDataRep v n => some (sendDataRep v n)
  | .mopSelect x y w h => some (select x y w h)
  | i => (frameParts i).map fun f => txn f.1 f.2

theorem exec_alone {i : Instr} {f : State → Res} (h : aloneBody i = some f) (s : State) :
    exec i s = if i.wf then (f s).micro else .refused .operandDomain := by
  cases i <;> cases h <;> rfl

/-- A frame run alone is one transaction. -/
theorem aloneBody_frame {i : Instr} (h : i.kind = .frame) : ∃ c payload, aloneBody i = some (txn c payload) := by
  cases i with
  | frmSoftReset | frmExitSleep | frmEnterSleep | frmSetOrient | frmSetColMode | frmNormalOn | frmInvertOff | frmInvertOn
  | frmDisplayOn | frmDisplayOff | frmColAddrSet | frmRowAddrSet | frmMemWrite => exact ⟨_, _, rfl⟩
  | _ => cases h

end Sys2Proof.Machine
end

