-- ==== Sys2Proof/Proofs/Invariant.lean ====
section
/-! Every step keeps the invariant of the machine. Between two operations of a request the clauses of `Running` hold; what `Inv` adds
is that a busy block is one that waits for a grant, which follows from how a sequence of operations ends (`Res.Keeps`). -/
namespace Sys2Proof.Machine

-- Operations that begin with an acquisition

/-- Before BEGIN the sequence of operations is refused (10_state.md R28). -/
def RefusedBeforeBegin (f : State → Res) : Prop := ∀ s, s.begun = false → f s = .refused .beforeBegin

theorem refusedBeforeBegin_acquire : RefusedBeforeBegin acquire := by
  intro s hb
  rcases acquire_cases s with ⟨_, e⟩ | ⟨h, _⟩ | ⟨h, _⟩ | ⟨h, _⟩ | ⟨_, h, _⟩
  · exact e
  all_goals exact absurd (hb.symm.trans h) nofun

theorem refusedBeforeBegin_txn (c : Byte) (payload : List Byte) : RefusedBeforeBegin (txn c payload) := by
  intro s hb
  simp only [txn, refusedBeforeBegin_acquire s hb, Res.map]

theorem refusedBeforeBegin_select (x y w h : Nat) : RefusedBeforeBegin (select x y w h) := by
  intro s hb
  simp only [select, sendCmdN, refusedBeforeBegin_txn _ _ s hb, Res.andThen]

theorem refusedBeforeBegin_sendDataRep (v : Half) (n : Nat) : RefusedBeforeBegin (sendDataRep v n) := by
  intro s hb
  simp only [sendDataRep, refusedBeforeBegin_txn _ _ (s.setCnt n) hb, Res.map]

/-- ACQUIRE on a free bus: `ACQ` opens the transaction that `LOCK` stands for (10_state.md R38). -/
theorem Running.acquired {s : State} (h : Running s) (hl : s.lock = false) :
    Running (State.emit .acq { s with busReq := true, lock := true }) := by
  refine ⟨h.panel, ?_, ?_, h.driven, h.begun, h.delay, fun _ => rfl, h.clock⟩
  · show lockAfter false (State.emit .acq s).trace = some true
    rw [State.emit_trace, lockAfter_snoc h.lock, hl]
    rfl
  · show ∀ e ∈ (State.emit .acq s).trace, e.allowed s.hasCs s.hasRst = true
    intro e he
    rw [State.emit_trace, List.mem_append, List.mem_singleton] at he
    rcases he with he | rfl
    · exact h.straps e he
    · rfl

theorem keeping_acquire : Keeping acquire := by
  intro s h hb
  rcases acquire_cases s with ⟨_, e⟩ | ⟨_, _, e⟩ | ⟨_, hl, _, e⟩ | ⟨_, hl, _, e⟩ | ⟨n, _, hl, _, e⟩ <;> rw [e]
  · trivial
  · trivial
  · exact ⟨h.acquired hl, hb, rfl, rfl⟩
  · exact ⟨⟨h.panel, h.lock, h.straps, h.driven, h.begun, h.delay, fun _ => rfl, h.clock⟩, hl, rfl, rfl⟩
  · have hg : Running { s with grants := some n } := h.of_eq rfl rfl rfl ⟨rfl, rfl⟩ rfl rfl rfl rfl rfl
    exact ⟨hg.acquired hl, hb, rfl, rfl⟩

-- How the ends of a request and of an operation run alone meet the invariant

theorem Inv.of_running_idle {s : State} (h : Running s) (hb : s.busy = false) : Inv s :=
  h.inv fun hb' => absurd (hb.symm.trans hb') nofun

/-- A request that ends is no longer busy; one that waits holds no bus. -/
theorem Res.Keeps.request_inv {s t : State} {r : Res} (hk : r.Keeps s) (h : r.request = .next t) : Inv t := by
  cases r with
  | done u =>
    cases h
    obtain ⟨hu, -, -, -⟩ := hk
    exact Inv.of_running_idle (hu.of_eq rfl rfl rfl ⟨rfl, rfl⟩ rfl rfl rfl rfl rfl) rfl
  | hung u =>
    cases h
    obtain ⟨hu, hl, hq, -⟩ := hk
    exact hu.inv fun _ => ⟨hl, hq⟩
  | refused r => cases h

/-- The same of an operation that is run alone from a block that is not busy. -/
theorem Res.Keeps.micro_inv {s t : State} {r : Res} (hk : r.Keeps s) (hb : s.busy = false) (h : r.micro = .next t) : Inv t := by
  cases r with
  | done u =>
    cases h
    obtain ⟨hu, -, -, hub⟩ := hk
    exact Inv.of_running_idle hu (hub.trans hb)
  | hung u =>
    cases h
    obtain ⟨hu, hl, hq, -⟩ := hk
    have hw : Running { u with busy := true } := hu.of_eq rfl rfl rfl ⟨rfl, rfl⟩ rfl rfl rfl rfl rfl
    exact hw.inv fun _ => ⟨hl, hq⟩
  | refused r => cases h

-- Requests

/-- Accepting a request writes the operand registers and the handshake, of which `Running` does not speak. -/
theorem Running.accept {s : State} (h : Running s) (load : Operands → Operands) : Running (s.accept load) :=
  h.of_eq rfl rfl rfl ⟨rfl, rfl⟩ rfl rfl rfl rfl rfl

theorem keeping_servedBody {i : Instr} {body : State → Res} (h : servedBody i = some body) : Keeping body := by
  cases i with
  | reqReset => cases h; exact keeping_panelReset
  | reqPower on => cases h; exact keeping_power on
  | reqFlip on => cases h; exact keeping_flip on
  | reqInverse on => cases h; exact keeping_inverse on
  | reqFill => cases h; exact keeping_fill _ _ _ _ _
  | reqBlit => cases h; exact keeping_blit _ _ _ _ _
  | reqMonoBlit => cases h; exact keeping_monoBlit _ _ _ _ _ _ _ _
  | reqDrawChar => cases h; exact keeping_drawChar _ _ _ _ _
  | reqDrawString => cases h; exact keeping_drawString _ _ _ _ _ _
  | _ => cases h

theorem serve_inv {load : Operands → Operands} {body : State → Res} {s t : State} (hk : Keeping body) (hi : Inv s)
    (h : serve load body s = .next t) : Inv t := by
  rcases serve_cases load body s with ⟨_, e⟩ | ⟨_, _, e⟩ | ⟨u, _, hg, eb, e⟩ | ⟨u, _, hg, eb, e⟩ | ⟨r, _, _, _, e⟩
  · cases e.symm.trans h; exact hi
  · cases e.symm.trans h
  · have hr := hk (s.accept load) (hi.running.accept load) hg
    rw [eb] at hr
    exact hr.request_inv (e.symm.trans h)
  · have hr := hk (s.accept load) (hi.running.accept load) hg
    rw [eb] at hr
    exact hr.request_inv (e.symm.trans h)
  · cases e.symm.trans h

theorem exec_request_inv {i : Instr} {s t : State} (hk : i.kind = .request) (hi : Inv s) (hb : s.busy = false)
    (h : exec i s = .next t) : Inv t := by
  rcases request_cases hk with rfl | ⟨r, g, b, rfl⟩ | ⟨body, hs⟩
  · exact (keeps_begin (hi.running.accept _)).request_inv ((exec_begin hb).symm.trans h)
  · cases (exec_rgb r g b hb).symm.trans h
    exact Inv.of_running_idle (hi.running.of_eq rfl rfl rfl ⟨rfl, rfl⟩ rfl rfl rfl rfl rfl) rfl
  · exact serve_inv (keeping_servedBody hs) hi ((exec_served hs s).symm.trans h)

-- Frames and micro-operations

/-- An operation that is refused before BEGIN and keeps what it should after it, run alone. -/
theorem exec_alone_inv {i : Instr} {f : State → Res} {s t : State} (ha : aloneBody i = some f) (hf : Keeping f)
    (hr : RefusedBeforeBegin f) (hi : Inv s) (hb : s.busy = false) (h : exec i s = .next t) : Inv t := by
  rw [exec_alone ha] at h
  split at h
  · rcases Bool.eq_false_or_eq_true s.begun with hg | hg
    · exact (hf s hi.running hg).micro_inv hb h
    · rw [hr s hg] at h; cases h
  · cases h

theorem exec_txn_inv {i : Instr} {c : Byte} {payload : List Byte} {s t : State} (ha : aloneBody i = some (txn c payload))
    (hi : Inv s) (hb : s.busy = false) (h : exec i s = .next t) : Inv t :=
  exec_alone_inv ha (keeping_txn c payload) (refusedBeforeBegin_txn c payload) hi hb h

/-- TX8 ends only while the bus is held (40_bus_transport.md R140); so do TX16 below and, with a reset line, RSTPULSE (R153). -/
theorem execTx8_next {b : Byte} {s t : State} (h : execTx8 b s = .next t) : s.lock = true ∧ t = s.tx8 b := by
  unfold execTx8 at h
  split at h
  · cases h
  · split at h
    · cases h
    · next hl => cases h; exact ⟨Bool.eq_true_of_not_eq_false hl, rfl⟩

theorem execTx16_next {v : Half} {s t : State} (h : execTx16 v s = .next t) : s.lock = true ∧ t = s.tx16 v := by
  unfold execTx16 at h
  split at h
  · cases h
  · split at h
    · cases h
    · next hl => cases h; exact ⟨Bool.eq_true_of_not_eq_false hl, rfl⟩

theorem execRstPulse_next {s t : State} (h : execRstPulse s = .next t) : s.hasRst = true ∧ t = s.rstPulse := by
  unfold execRstPulse at h
  split at h
  · cases h
  · split at h
    · cases h
    · next hr => cases h; exact ⟨Bool.eq_true_of_not_eq_false hr, rfl⟩

/-- CLIP writes at most `WC` and `HC` (41_addressing.md R171). -/
theorem execClip_next {x y w h : Half} {s t : State} (hn : execClip x y w h s = .next t) :
    ∃ work, t = { s with work := work } := by
  unfold execClip at hn
  split at hn
  · cases hn; exact ⟨s.work, rfl⟩
  · next wc hc _ => cases hn; exact ⟨(s.setClip wc hc).work, rfl⟩

theorem exec_micro_inv {i : Instr} {s t : State} (hk : i.kind = .micro) (hi : Inv s) (hb : s.busy = false)
    (h : exec i s = .next t) : Inv t := by
  cases i with
  | mopTx8 b =>
    obtain ⟨hl, rfl⟩ := execTx8_next h
    exact Inv.of_running_idle (hi.running.tx8_op hl b) hb
  | mopTx16 v =>
    obtain ⟨hl, rfl⟩ := execTx16_next h
    exact Inv.of_running_idle ((hi.running.tx8_op hl (hi8 v)).tx8_op hl (lo8 v)) hb
  | mopTxn | mopSendCmd0 | mopSendCmd1 | mopSendCmdN | mopSendData16 => exact exec_txn_inv rfl hi hb h
  | mopAcquire => exact exec_alone_inv rfl keeping_acquire refusedBeforeBegin_acquire hi hb h
  | mopRelease => cases h; exact Inv.of_running_idle hi.running.release_op hb
  | mopSendDataRep v n =>
    exact exec_alone_inv rfl (keeping_sendDataRep v n) (refusedBeforeBegin_sendDataRep v n) hi hb h
  | mopSendData8 => cases h
  | mopDelay n => cases h; exact Inv.of_running_idle (hi.running.delay_op n) hb
  | mopRstPulse =>
    obtain ⟨hr, rfl⟩ := execRstPulse_next h
    exact Inv.of_running_idle (hi.running.rstPulse_op hr) hb
  | mopClip =>
    obtain ⟨work, rfl⟩ := execClip_next h
    exact Inv.of_running_idle (hi.running.of_eq rfl rfl rfl ⟨rfl, rfl⟩ rfl rfl rfl rfl rfl) hb
  | mopSelect x y w hh => exact exec_alone_inv rfl (keeping_select x y w hh) (refusedBeforeBegin_select x y w hh) hi hb h
  | _ => cases hk

-- The step

theorem exec_inv {i : Instr} {s t : State} (hi : Inv s) (hb : s.busy = false) (h : exec i s = .next t) : Inv t := by
  cases hk : i.kind with
  | request => exact exec_request_inv hk hi hb h
  | frame =>
    obtain ⟨c, payload, ha⟩ := aloneBody_frame hk
    exact exec_txn_inv ha hi hb h
  | micro => exact exec_micro_inv hk hi hb h

/-- A change of fields that no clause of the invariant speaks of, in a block that is not busy. -/
theorem Inv.of_untouched {s : State} (hi : Inv s) (hb : s.busy = false) (o : Operands) (d : Bool) (v : Half) (n : Nat)
    (cs : List Code) : Inv { s with opnd := o, respDone := d, respData := v, freeCtr := n, inputs := cs } :=
  Inv.of_running_idle (hi.running.of_eq rfl rfl rfl ⟨rfl, rfl⟩ rfl rfl rfl rfl rfl) hb

theorem runCode_inv {c : Code} {s t : State} (hi : Inv s) (hb : s.busy = false) (h : runCode c s = .next t) : Inv t := by
  rcases runCode_cases c s with ⟨i, _, e⟩ | ⟨_, e⟩ | ⟨_, _, _, e⟩
  · obtain ⟨o, d, hl⟩ := s.latch_eq c
    rw [e, hl] at h
    exact exec_inv (hi.of_untouched hb o d _ _ _) hb h
  · cases e.symm.trans h
    exact hi.of_untouched hb _ _ _ _ _
  · cases e.symm.trans h

/-- A reset in a wait keeps the trace, in which the bus is free (70_reset_and_hazards.md R302); else the trace is empty. -/
theorem blockReset_inv {s : State} (hi : Inv s) : Inv s.blockReset := by
  obtain ⟨htrace, hsink⟩ := s.blockReset_trace
  refine Inv.of_running_idle ⟨?_, ?_, ?_, ⟨rfl, rfl, rfl, rfl, rfl⟩, fun h => absurd rfl h, rfl, nofun, nofun⟩ rfl
  · rw [hsink]
    split
    · rfl
    · exact hi.panel
  · rw [htrace]
    split
    · rename_i hb
      exact hi.lock.trans (congrArg some (hi.waiting hb).1)
    · rfl
  · rw [htrace]
    split
    · exact hi.straps
    · exact nofun

/-- Settles O58, by the cases of a step; the instruction it runs keeps the invariant by `exec_inv`. -/
theorem everyStepKeepsTheMachineInvariant : Obligations.EveryStepKeepsTheMachineInvariant := by
  intro s t hi h
  rcases step_cases s with ⟨_, e⟩ | ⟨_, _, e⟩ | ⟨_, hb, _, e⟩ | ⟨c, rest, _, hb, _, e⟩
  · cases e.symm.trans h; exact blockReset_inv hi
  · cases e.symm.trans h; exact hi
  · cases e.symm.trans h; exact hi.of_untouched hb _ _ _ _ _
  · exact runCode_inv (hi.of_untouched hb _ _ _ _ rest) hb (e.symm.trans h)

/-- Settles O59: at reset the trace is empty and no line is driven; the sink expects nothing (log 20) and nothing is presented
(log 3). -/
theorem resetStateMeetsTheMachineInvariant : Obligations.ResetStateMeetsTheMachineInvariant := by
  have hr : Running State.reset := ⟨rfl, rfl, nofun, ⟨rfl, rfl, rfl, rfl, rfl⟩, fun h => absurd rfl h, rfl, nofun, nofun⟩
  have hs : SinkSettled State.reset := rfl
  exact ⟨Inv.of_running_idle hr rfl, hs, nofun⟩

end Sys2Proof.Machine
end

