-- ==== Sys2Proof/Proofs/Requests.lean ====
section
/-! Latching and serving a request: what a request leaves in the operand registers, what is refused before BEGIN, the value of RGB,
and the values of the block's reset. -/
namespace Sys2Proof.Machine

-- The step runs the decoded instruction

/-- Settles O5: the step takes the first code, and the code holds the instruction. -/
theorem stepRunsTheDecodedInstruction : Obligations.StepRunsTheDecodedInstruction := by
  intro s c rest i hr hb hi hd _
  exact (step_takes hr hb hi).trans (runCode_ok hd _)

-- The operand registers

/-- The operand registers are the same. -/
def SameOperands (s t : State) : Prop := t.opnd = s.opnd

theorem tolerantReset_sameOperands : TolerantReset SameOperands where
  tolerant :=
    { refl := fun _ => rfl
      trans := fun _ _ _ h h' => h'.trans h
      sent := fun _ _ => rfl
      grants := fun _ _ => rfl
      waits := fun _ => rfl
      regs := fun _ _ _ _ => rfl }
  delay := fun _ _ => rfl
  rstPulse := fun _ => rfl
  setPstate := fun _ _ => rfl

/-- The body of a served request respects every relation that the elementary changes respect. -/
theorem following_servedBody {ρ : State → State → Prop} (h : TolerantReset ρ) {i : Instr} {body : State → Res}
    (hs : servedBody i = some body) : Following ρ body := by
  have t := h.tolerant
  cases i with
  | reqReset => cases hs; exact following_panelReset h
  | reqPower on => cases hs; exact following_power h on
  | reqFlip on => cases hs; exact following_flip t on
  | reqInverse on => cases hs; exact following_inverse t on
  | reqFill => cases hs; exact following_fill t _ _ _ _ _
  | reqBlit => cases hs; exact following_blit t _ _ _ _ _
  | reqMonoBlit => cases hs; exact following_monoBlit t _ _ _ _ _ _ _ _
  | reqDrawChar => cases hs; exact following_drawChar t _ _ _ _ _
  | reqDrawString => cases hs; exact following_drawString t _ _ _ _ _ _
  | _ => cases hs

/-- BEGIN drives the lines and then does what RESET does (44_lifecycle.md R243). -/
theorem following_beginAll {ρ : State → State → Prop} (h : TolerantReset ρ)
    (hb : ∀ s : State, ρ s { s.pinCfg.busInit with begun := true }) : Following ρ beginAll :=
  (following_panelReset h).comp h.tolerant hb

/-- How a request ends, for a relation that its body respects. -/
theorem request_rel {ρ : State → State → Prop} {f : State → Res} {s t : State} (hf : Following ρ f)
    (hc : ∀ u, ρ s u → ρ s u.complete) (h : (f s).request = .next t) : ρ s t := by
  have hr := hf s
  cases e : f s with
  | done u => rw [e] at h hr; cases h; exact hc u hr
  | hung u => rw [e] at h hr; cases h; exact hr
  | refused r => rw [e] at h; cases h

/-- However an accepted request ends, the operand registers hold what accepting it loaded. -/
theorem exec_request_opnd {i : Instr} {s t : State} (hk : i.kind = .request) (hb : s.busy = false) (h : exec i s = .next t) :
    t.opnd = loadOf i s.opnd := by
  have hc : ∀ a u : State, SameOperands a u → SameOperands a u.complete := fun _ _ hu => hu
  rcases request_cases hk with rfl | ⟨r, g, b, rfl⟩ | ⟨body, hs⟩
  · exact request_rel (following_beginAll tolerantReset_sameOperands fun _ => rfl) (hc _) ((exec_begin hb).symm.trans h)
  · cases (exec_rgb r g b hb).symm.trans h; rfl
  · exact serve_rel hb (following_servedBody tolerantReset_sameOperands hs) (hc _) ((exec_served hs s).symm.trans h)

theorem operands_with_op {o : Operands} {n : Nat} (h : o.op.toNat = n) : { o with op := BitVec.ofNat 4 n } = o := by
  rw [← h, BitVec.ofNat_toNat, BitVec.setWidth_eq]

/-- The fields that a request names stand in the word already: accepting it loads what was latched. -/
theorem loadOf_decodeFields {o : Operands} {i : Instr} (h : decodeFields o = .ok i) : loadOf i o = o ∧ i.kind = .request := by
  unfold decodeFields at h
  split at h <;> cases h
  all_goals
    next hop => exact ⟨operands_with_op hop, rfl⟩

/-- Settles O6: the word's fields are latched, accepting the request loads them again, and no operation writes them. -/
theorem operandRegistersHoldTheRequest : Obligations.OperandRegistersHoldTheRequest := by
  intro s t w rest i hr hb hi hd h
  obtain ⟨hload, hk⟩ := loadOf_decodeFields (show decodeFields (unpack w) = .ok i from hd)
  have he : exec i (State.latch (.request w) { s with inputs := rest }) = .next t := by
    rw [← runCode_ok hd, ← step_takes hr hb hi, h]
  exact (exec_request_opnd hk (by exact hb) he).trans hload

-- Before BEGIN

theorem serve_beforeBegin (load : Operands → Operands) (body : State → Res) {s : State} (hb : s.busy = false)
    (hg : s.begun = false) : serve load body s = .refused .beforeBegin := by
  simp only [serve, hb, hg, Bool.false_eq_true, if_true, if_false]

/-- Settles O24: every request but BEGIN and RGB is served, and serving refuses before BEGIN. -/
theorem requestsBeforeBeginAreRefused : Obligations.RequestsBeforeBeginAreRefused := by
  intro i s hk hnb hnr hb hg
  rcases request_cases hk with rfl | ⟨r, g, b, rfl⟩ | ⟨body, hs⟩
  · exact absurd rfl hnb
  · exact absurd rfl (hnr r g b)
  · exact (exec_served hs s).trans (serve_beforeBegin _ body hb hg)

-- RGB

/-- Each bit of a colour is the bit of the channel it is packed from (30_encoding.md R109). -/
def rgbBit (r g b : Byte) (i : Nat) : Bool :=
  if i < 5 then b.getLsbD (3 + i) else if i < 11 then g.getLsbD (2 + (i - 5)) else r.getLsbD (3 + (i - 11))

theorem upperBits_getLsbD (r g b : Byte) {i : Nat} (hi : i < 16) :
    (r.extractLsb' 3 5 ++ g.extractLsb' 2 6 ++ b.extractLsb' 3 5).getLsbD i = rgbBit r g b i := by
  rw [BitVec.getLsbD_append, BitVec.getLsbD_append, rgbBit]
  rcases Nat.lt_or_ge i 5 with h5 | h5
  · simp [h5]
  rcases Nat.lt_or_ge i 11 with h11 | h11
  · simp [h11, show ¬ i < 5 by omega, show i - 5 < 6 by omega]
  · simp [show ¬ i < 5 by omega, show ¬ i < 11 by omega, show ¬ i - 5 < 6 by omega, show i - 11 < 5 by omega,
      show i - 5 - 6 = i - 11 by omega]

/-- A channel is shifted past the bits it does not reach: above them `g` and `b` have none. -/
theorem packRgb_getLsbD (r g b : Byte) {i : Nat} (hi : i < 16) : (packRgb r g b).getLsbD i = rgbBit r g b i := by
  simp only [packRgb, rgbBit, BitVec.getLsbD_or, BitVec.getLsbD_shiftLeft, BitVec.getLsbD_ushiftRight,
    BitVec.truncate_eq_setWidth, BitVec.getLsbD_setWidth]
  rcases Nat.lt_or_ge i 5 with h5 | h5
  · simp [h5, hi, show i < 11 by omega, show 3 + i < 16 by omega]
  have hb : b.getLsbD (3 + i) = false := BitVec.getLsbD_of_ge _ _ (by omega)
  rcases Nat.lt_or_ge i 11 with h11 | h11
  · simp [hb, hi, h11, show ¬ i < 5 by omega, show 2 + (i - 5) < 16 by omega]
  have hg : g.getLsbD (2 + (i - 5)) = false := BitVec.getLsbD_of_ge _ _ (by omega)
  simp [hb, hg, hi, show ¬ i < 5 by omega, show ¬ i < 11 by omega, show 3 + (i - 11) < 16 by omega]

/-- The shifts of 42_raster.md R190 put the upper bits of the channels side by side (30_encoding.md R109). -/
theorem packRgb_eq_append (r g b : Byte) :
    packRgb r g b = (r.extractLsb' 3 5 ++ g.extractLsb' 2 6 ++ b.extractLsb' 3 5 : BitVec 16) :=
  BitVec.eq_of_getLsbD_eq fun _ hi => (packRgb_getLsbD r g b hi).trans (upperBits_getLsbD r g b hi).symm

/-- Settles O31: RGB loads its operands, completes with the packed colour, and writes nothing else. -/
theorem rgbPacksTheUpperBits : Obligations.RgbPacksTheUpperBits := by
  intro r g b s hb
  rw [exec_rgb r g b hb, packRgb_eq_append]
  show Host.Outcome.next { s with
    opnd := { s.opnd with op := 0xB#4, r8 := r, g8 := g, b8 := b }, busy := false, seq := .idle, respDone := true,
    respData := (r.extractLsb' 3 5 ++ g.extractLsb' 2 6 ++ b.extractLsb' 3 5 : BitVec 16) } = _
  rw [← hb]

-- The block's reset and the reset state

/-- Settles O10, by the values `State.blockReset` writes and the two laws about what it leaves. -/
theorem blockResetGivesTheResetValues : Obligations.BlockResetGivesTheResetValues := by
  intro s hr
  obtain ⟨htrace, hsink⟩ := s.blockReset_trace
  refine ⟨s.blockReset, step_blkRst hr, rfl, rfl, rfl, rfl, rfl, rfl, rfl, rfl, rfl, rfl, rfl, rfl, rfl, rfl,
    fun hb => ?_, fun hb => ?_, s.blockReset_outside⟩
  · rw [htrace, hsink, hb]
    exact ⟨rfl, rfl⟩
  · rw [htrace, hb]
    rfl

/-- Settles O11: each value is the one `State.reset` writes out. -/
theorem resetStateHasTheStatedValues : Obligations.ResetStateHasTheStatedValues :=
  ⟨rfl, rfl, rfl, rfl, rfl, rfl, rfl, rfl, rfl, rfl, rfl, rfl, rfl, rfl⟩

end Sys2Proof.Machine
end

section
/-! What the panel sink reads from frames that the machine sends (20_memory.md R89 to R95). A frame run alone on a free bus reaches
the sink as one frame; what each frame leaves there is said by the laws of the sink, and a stream that fills its window by
`Sink.Window.frame_memWrite`. -/
namespace Sys2Proof.Machine

-- Frames run alone

theorem aloneBody_of_frameParts {i : Instr} {f : Frame} (h : frameParts i = some f) : aloneBody i = some (txn f.1 f.2) := by
  cases i <;> cases h <;> rfl

/-- A frame run alone on a free bus is sent from first to last (40_bus_transport.md R143). -/
theorem exec_frame {i : Instr} {f : Frame} {s : State} (hf : frameParts i = some f) (hw : i.wf = true) (hs : s.BusReady) :
    exec i s = .next (s.sent [f]) := by
  rw [exec_alone (aloneBody_of_frameParts hf), if_pos hw, txn_ready _ _ hs]
  rfl

theorem State.BusReady.sent {s : State} (hs : s.BusReady) (fs : List Frame) : (s.sent fs).BusReady := hs

theorem Sink.frame_columnWords {k : Sink} (ended : Bool) (v u : Half) (hk : k.frameComplete = true) :
    k.frame ended 0x2A#8 (halfBytes v ++ halfBytes u) = { k with writing := false, expect := .nothing, winXS := v, winXE := u } := by
  rw [halfBytes, halfBytes, List.cons_append, List.cons_append, List.nil_append, Sink.frame_columns ended _ _ _ _ hk,
    halfOf_hi8_lo8, halfOf_hi8_lo8]

theorem Sink.frame_rowWords {k : Sink} (ended : Bool) (v u : Half) (hk : k.frameComplete = true) :
    k.frame ended 0x2B#8 (halfBytes v ++ halfBytes u) = { k with writing := false, expect := .nothing, winYS := v, winYE := u } := by
  rw [halfBytes, halfBytes, List.cons_append, List.cons_append, List.nil_append, Sink.frame_rows ended _ _ _ _ hk,
    halfOf_hi8_lo8, halfOf_hi8_lo8]

/-- A byte sent alone with `DC` low reaches a sink that listens as a command byte (20_memory.md R87, 40_bus_transport.md R140). -/
theorem exec_tx8_command {s : State} (c : Byte) (hb : s.begun = true) (hl : s.lock = true) (hn : s.sinkListens = true)
    (hd : s.pins.dc = false) : ∃ t, exec (.mopTx8 c) s = .next t ∧ t.sink = s.sink.command c := by
  refine ⟨s.tx8 c, ?_, ?_⟩
  · show execTx8 c s = _
    simp only [execTx8, hb, hl, Bool.true_eq_false, if_false]
  · simp only [State.tx8_eq, hn, hd, if_true, Sink.receive, Bool.false_eq_true, if_false]

/-- The command byte 0x2C starts a stream at the window's start corner (20_memory.md R89; log 24). -/
theorem Sink.command_2C {k : Sink} (hk : k.frameComplete = true) :
    k.command 0x2C#8 =
      { k with writing := true, ptrCol := k.winXS.toNat, ptrRow := k.winYS.toNat, expect := .pixelHi } := by
  rw [Sink.command_settled _ hk, Sink.decodeCommand_2C]

/-- Settles O29: each frame reaches the sink whole, which reads it as the law of its command says; the byte 0x2C reaches it alone. -/
theorem sinkReadsCommandAndArgumentFrames : Obligations.SinkReadsCommandAndArgumentFrames := by
  refine ⟨fun s a v u hs hk => ?_, fun s hb hl hn hd hk => ?_⟩
  · exact ⟨_, _, _, _, _, _, _, _, _, _, _, _,
      exec_frame rfl rfl hs, Sink.frame_softReset _ hk, exec_frame rfl rfl hs, Sink.frame_enterSleep _ hk,
      exec_frame rfl rfl hs, Sink.frame_exitSleep _ hk, exec_frame rfl rfl hs, Sink.frame_normalOn _ hk,
      exec_frame rfl rfl hs, Sink.frame_invertOff _ hk, exec_frame rfl rfl hs, Sink.frame_invertOn _ hk,
      exec_frame rfl rfl hs, Sink.frame_displayOff _ hk, exec_frame rfl rfl hs, Sink.frame_displayOn _ hk,
      exec_frame rfl rfl hs, Sink.frame_orient _ a hk, exec_frame rfl rfl hs, Sink.frame_colMode _ a hk,
      exec_frame rfl rfl hs, Sink.frame_columnWords _ v u hk, exec_frame rfl rfl hs, Sink.frame_rowWords _ v u hk⟩
  · obtain ⟨t, he, ht⟩ := exec_tx8_command 0x2C#8 hb hl hn hd
    exact ⟨t, he, ht.trans (Sink.command_2C hk)⟩

-- A stream that fills its window

/-- The window's registers hold these addresses, and no frame is open. -/
def Sink.setCorners (xs xe ys ye : Half) (k : Sink) : Sink :=
  { k with winXS := xs, winXE := xe, winYS := ys, winYE := ye, writing := false, expect := .nothing }

/-- The two address frames set the window (20_memory.md R90). -/
theorem Sink.frames_corners {k : Sink} (ended : Bool) (xs xe ys ye : Half) (hk : k.frameComplete = true) :
    k.frames ended [(0x2A#8, halfBytes xs ++ halfBytes xe), (0x2B#8, halfBytes ys ++ halfBytes ye)] =
      k.setCorners xs xe ys ye := by
  rw [Sink.frames_cons, Sink.frame_columnWords ended _ _ hk, Sink.frames_cons, Sink.frame_rowWords ended _ _ rfl,
    Sink.frames_nil]
  rfl

/-- A window in the part of the native memory that the spec is sure of (00_scope.md R10). -/
theorem Sink.setCorners_window {k : Sink} {xs xe ys ye : Half} (hm : k.colMode = 0x05#8) (hx : xs.toNat ≤ xe.toNat)
    (hxe : xe.toNat < 160) (hy : ys.toNat ≤ ye.toNat) (hye : ye.toNat < 104) :
    (k.setCorners xs xe ys ye).Window xs.toNat ys.toNat (xe.toNat - xs.toNat + 1) (ye.toNat - ys.toNat + 1) :=
  ⟨rfl, show xe.toNat = _ by omega, rfl, show ye.toNat = _ by omega, by omega, by omega, by omega, by omega, hm⟩

/-- The sink after a stream `px` of exactly the pixels of the window at `xs`, `ys`, of size `w` by `h`. -/
def Sink.filled (xs ys w h : Nat) (px : List Half) (ended : Bool) (k : Sink) : Sink :=
  { k with
    panel := Memory.putPixels xs ys w 0 px k.panel, writing := true, expect := if ended then .nothing else .pixelHi,
    ptrCol := xs, ptrRow := ys + h }

section
variable {k : Sink} {xs ys w h : Nat}

/-- The command byte 0x2C leaves the window as it is. -/
theorem Sink.Window.after_command_2C (hw : k.Window xs ys w h) (hk : k.frameComplete = true) :
    (k.command 0x2C#8).Window xs ys w h := by
  rw [Sink.command_2C hk]
  exact ⟨hw.left, hw.right, hw.top, hw.bottom, hw.wpos, hw.hpos, hw.wmax, hw.hmax, hw.mode⟩

/-- After the last pixel the pointer stands at the row below the window: the frame may end there. -/
theorem Sink.Window.filled_complete (hw : k.Window xs ys w h) (px : List Half) :
    (k.filled xs ys w h px false).frameComplete = true := by
  have wp := hw.wpos; have hp := hw.hpos
  show (k.filled xs ys w h px false).windowFull = true
  simp only [Sink.windowFull, Sink.windowValid, Sink.filled, hw.left, hw.right, hw.top, hw.bottom, Bool.and_eq_true,
    decide_eq_true_eq, and_true]
  omega

/-- A frame 0x2C of exactly the window's pixels (20_memory.md R91, R95). -/
theorem Sink.Window.frame_memWrite (hw : k.Window xs ys w h) (hk : k.frameComplete = true) {px : List Half}
    (hp : px.length = w * h) (ended : Bool) :
    k.frame ended 0x2C#8 (pixelBytes px) = k.filled xs ys w h px ended := by
  have hmod : (0 + px.length) % w = 0 := by rw [hp, Nat.zero_add, Nat.mul_mod_right]
  have hdiv : (0 + px.length) / w = h := by rw [hp, Nat.zero_add, Nat.mul_div_cancel_left _ hw.wpos]
  have hcmd := Sink.command_2C hk
  have hstream : (pixelBytes px).foldl Sink.data (k.command 0x2C#8) = k.filled xs ys w h px false := by
    rw [Sink.stream px (n := 0) (hw.after_command_2C hk) (by rw [hcmd]) (by simp [hcmd, hw.left]) (by simp [hcmd, hw.top]) (by omega),
      hmod, hdiv, hcmd]
    rfl
  rw [Sink.frame, hstream]
  cases ended with
  | false => rfl
  | true =>
    rw [if_pos rfl, Sink.endFrame_settled (hw.filled_complete px)]
    rfl

/-- Pixel `i` of the stream stands where row-major order puts it. -/
theorem Sink.filled_pixel_inside {px : List Half} (hw : 1 ≤ w) (hx : xs + w ≤ 65536) (ended : Bool) {i : Nat} {v : Half}
    (hi : px[i]? = some v) : (k.filled xs ys w h px ended).pixel (xs + i % w) (ys + i / w) = v := by
  have hlt : i % w < w := Nat.mod_lt _ hw
  obtain ⟨hlen, -⟩ := List.getElem?_eq_some_iff.1 hi
  have hindex : (ys + i / w - ys) * w + (xs + i % w - xs) = i := by
    rw [Nat.add_sub_cancel_left, Nat.add_sub_cancel_left, Nat.mul_comm, Nat.div_add_mod]
  simp only [Sink.pixel, Sink.filled, Memory.putPixels_get xs ys w 0 px k.panel hw hx (show xs + i % w < 65536 by omega), hindex]
  rw [if_pos ⟨Nat.le_add_right _ _, by omega, Nat.le_add_right _ _, Nat.zero_le _, by omega⟩, Nat.sub_zero, hi]
  rfl

/-- A pixel outside the window keeps its value. -/
theorem Sink.filled_pixel_outside {px : List Half} (hw : 1 ≤ w) (hx : xs + w ≤ 65536) (hp : px.length = w * h) (ended : Bool)
    {col row : Nat} (hc : col < 65536) (hout : ¬ (xs ≤ col ∧ col < xs + w ∧ ys ≤ row ∧ row < ys + h)) :
    (k.filled xs ys w h px ended).pixel col row = k.pixel col row := by
  simp only [Sink.pixel, Sink.filled, Memory.putPixels_get xs ys w 0 px k.panel hw hx hc]
  rw [if_neg]
  rintro ⟨hleft, hright, htop, -, hlast⟩
  have hrow : (row - ys) * w < h * w := by
    rw [hp, Nat.mul_comm w h] at hlast
    omega
  have := Nat.lt_of_mul_lt_mul_right hrow
  exact hout ⟨hleft, hright, htop, by omega⟩

end

/-- Settles O30: the two address frames set the window, and the third frame fills it. -/
theorem streamFillsExactlyTheWindow : Obligations.StreamFillsExactlyTheWindow := by
  intro s xs xe ys ye pixels hs hk hm hx hxe hy hye hp
  have hwf : (Instr.frmMemWrite pixels).wf = true := by
    cases pixels with
    | nil => exact absurd hp.symm (Nat.mul_ne_zero (Nat.succ_ne_zero _) (Nat.succ_ne_zero _))
    | cons v vs => rfl
  have hW := Sink.setCorners_window hm hx hxe hy hye
  have hsink : (((s.sent [(0x2A#8, halfBytes xs ++ halfBytes xe)]).sent [(0x2B#8, halfBytes ys ++ halfBytes ye)]).sent
      [(0x2C#8, pixelBytes pixels)]).sink = (s.sink.setCorners xs xe ys ye).filled xs.toNat ys.toNat
        (xe.toNat - xs.toNat + 1) (ye.toNat - ys.toNat + 1) pixels s.hasCs := by
    rw [← hW.frame_memWrite rfl hp, ← Sink.frames_corners s.hasCs xs xe ys ye hk]
    rfl
  refine ⟨_, _, _, exec_frame rfl rfl hs, exec_frame rfl rfl (hs.sent _), exec_frame rfl hwf ((hs.sent _).sent _), ?_, ?_⟩
  · intro i v hi
    rw [hsink]
    exact Sink.filled_pixel_inside hW.wpos (by omega) _ hi
  · intro col row hc hout
    rw [hsink, Sink.filled_pixel_outside hW.wpos (by omega) hp _ hc (by omega)]
    rfl

end Sys2Proof.Machine
end

section
/-! No step writes the straps, the glyph table or a host array: every elementary change leaves them, so every operation does, every
instruction and every step. -/
namespace Sys2Proof.Machine

/-- The straps, the glyph table and the host's arrays (10_state.md R29, 20_memory.md R60 to R63). -/
def State.surroundings (s : State) : Bool × Bool × Nat × ByteMemory × Memory 16 × ByteMemory × ByteMemory :=
  (s.hasCs, s.hasRst, s.glyphCount, s.rom, s.pix, s.bits, s.text)

/-- The surroundings are the same. -/
def SameSurroundings (s t : State) : Prop := t.surroundings = s.surroundings

theorem sameSurroundings_iff (s t : State) : SameSurroundings s t ↔
    t.hasCs = s.hasCs ∧ t.hasRst = s.hasRst ∧ t.glyphCount = s.glyphCount ∧ t.rom = s.rom ∧ t.pix = s.pix ∧ t.bits = s.bits ∧
      t.text = s.text := by
  simp only [SameSurroundings, State.surroundings, Prod.mk.injEq]

theorem tolerantReset_sameSurroundings : TolerantReset SameSurroundings where
  tolerant :=
    { refl := fun _ => rfl
      trans := fun _ _ _ h h' => h'.trans h
      sent := fun _ _ => rfl
      grants := fun _ _ => rfl
      waits := fun _ => rfl
      regs := fun _ _ _ _ => rfl }
  delay := fun _ _ => rfl
  rstPulse := fun _ => rfl
  setPstate := fun _ _ => rfl

theorem following_acquire_sameSurroundings : Following SameSurroundings acquire := by
  intro s
  rcases acquire_cases s with ⟨_, e⟩ | ⟨_, _, e⟩ | ⟨_, _, _, e⟩ | ⟨_, _, _, e⟩ | ⟨n, _, _, _, e⟩ <;> rw [e]
  · trivial
  · trivial
  all_goals rfl

theorem exec_request_sameSurroundings {i : Instr} {s t : State} (hk : i.kind = .request) (hb : s.busy = false)
    (h : exec i s = .next t) : SameSurroundings s t := by
  have hc : ∀ a u : State, SameSurroundings a u → SameSurroundings a u.complete := fun _ _ hu => hu
  rcases request_cases hk with rfl | ⟨r, g, b, rfl⟩ | ⟨body, hs⟩
  · exact request_rel (s := s.accept (loadOf .reqBegin))
      (following_beginAll tolerantReset_sameSurroundings fun _ => rfl) (hc _) ((exec_begin hb).symm.trans h)
  · cases (exec_rgb r g b hb).symm.trans h; rfl
  · exact serve_rel hb (following_servedBody tolerantReset_sameSurroundings hs) (hc _) ((exec_served hs s).symm.trans h)

theorem exec_alone_sameSurroundings {i : Instr} {f : State → Res} {s t : State} (ha : aloneBody i = some f)
    (hf : Following SameSurroundings f) (h : exec i s = .next t) : SameSurroundings s t := by
  rw [exec_alone ha] at h
  split at h
  · exact micro_rel hf (fun _ hu => hu) h
  · cases h

theorem exec_micro_sameSurroundings {i : Instr} {s t : State} (hk : i.kind = .micro) (h : exec i s = .next t) :
    SameSurroundings s t := by
  have tol := tolerantReset_sameSurroundings.tolerant
  cases i with
  | mopTx8 b => obtain ⟨-, rfl⟩ := execTx8_next h; rfl
  | mopTx16 v => obtain ⟨-, rfl⟩ := execTx16_next h; rfl
  | mopTxn | mopSendCmd0 | mopSendCmd1 | mopSendCmdN | mopSendData16 =>
    exact exec_alone_sameSurroundings rfl (following_txn tol _ _) h
  | mopAcquire => exact exec_alone_sameSurroundings rfl following_acquire_sameSurroundings h
  | mopSendDataRep v n => exact exec_alone_sameSurroundings rfl (following_sendDataRep tol v n) h
  | mopSelect x y w hh => exact exec_alone_sameSurroundings rfl (following_select tol x y w hh) h
  | mopRelease | mopDelay => cases h; rfl
  | mopSendData8 => cases h
  | mopRstPulse => obtain ⟨-, rfl⟩ := execRstPulse_next h; rfl
  | mopClip => obtain ⟨work, rfl⟩ := execClip_next h; rfl
  | _ => cases hk

theorem exec_sameSurroundings {i : Instr} {s t : State} (hb : s.busy = false) (h : exec i s = .next t) :
    SameSurroundings s t := by
  cases hk : i.kind with
  | request => exact exec_request_sameSurroundings hk hb h
  | frame =>
    obtain ⟨c, payload, ha⟩ := aloneBody_frame hk
    exact exec_alone_sameSurroundings ha (following_txn tolerantReset_sameSurroundings.tolerant c payload) h
  | micro => exact exec_micro_sameSurroundings hk h

theorem runCode_sameSurroundings {c : Code} {s t : State} (hb : s.busy = false) (h : runCode c s = .next t) :
    SameSurroundings s t := by
  rcases runCode_cases c s with ⟨i, _, e⟩ | ⟨_, e⟩ | ⟨_, _, _, e⟩
  · obtain ⟨o, d, hl⟩ := s.latch_eq c
    rw [e, hl] at h
    exact exec_sameSurroundings (s := { s with opnd := o, respDone := d }) hb h
  · cases e.symm.trans h; rfl
  · cases e.symm.trans h

/-- Settles O53, by the cases of a step; the instruction it runs leaves the surroundings by `exec_sameSurroundings`. -/
theorem noStepWritesWhatIsOutside : Obligations.NoStepWritesWhatIsOutside := by
  intro s t h
  rw [← sameSurroundings_iff]
  rcases step_cases s with ⟨_, e⟩ | ⟨_, _, e⟩ | ⟨_, _, _, e⟩ | ⟨c, rest, _, hb, _, e⟩
  · cases e.symm.trans h; rfl
  · cases e.symm.trans h; rfl
  · cases e.symm.trans h; rfl
  · exact runCode_sameSurroundings (s := { s with inputs := rest }) hb (e.symm.trans h)

end Sys2Proof.Machine
end

section
/-! The two encodings: the encoder and the decoder of a request word and of a frame are inverse to each other (30_encoding.md R100 to
R108), and which codes hold no operation (R112 to R115). -/
namespace Sys2Proof

-- What the encoder writes

theorem encode_of_encodeFields {i : Instr} {o : Operands} (h : encodeFields i = some o) : encode i = .request (pack o) := by
  simp only [encode, h]

/-- No instruction is both a request and a frame (30_encoding.md R112). -/
theorem encodeFields_of_frameParts {i : Instr} {f : Byte × List Byte} (h : frameParts i = some f) : encodeFields i = none := by
  cases i <;> cases h <;> rfl

theorem encode_of_frameParts {i : Instr} {c : Byte} {payload : List Byte} (h : frameParts i = some (c, payload)) :
    encode i = .frame (c :: payload) := by
  simp only [encode, encodeFields_of_frameParts h, h]

/-- Each kind of row has its own encoding (30_encoding.md R112, R113). -/
theorem encoding_cases (i : Instr) :
    (∃ o, encodeFields i = some o) ∨ (∃ c payload, frameParts i = some (c, payload)) ∨
      (i.kind = .micro ∧ encode i = .micro i) := by
  cases hk : i.kind with
  | request => cases i <;> cases hk <;> exact .inl ⟨_, rfl⟩
  | frame => cases i <;> cases hk <;> exact .inr (.inl ⟨_, _, rfl⟩)
  | micro => cases i <;> cases hk <;> exact .inr (.inr ⟨rfl, rfl⟩)

-- The decoder reads what the encoder writes

theorem decodeFields_encodeFields {i : Instr} {o : Operands} (h : encodeFields i = some o) : decodeFields o = .ok i := by
  cases i <;> cases h <;> rfl

theorem formatF4_halfBytes (f : Half → Half → Instr) (start stop : Half) :
    formatF4 f (halfBytes start ++ halfBytes stop) = .ok (f start stop) := by
  show Except.ok (f (halfOf (hi8 start) (lo8 start)) (halfOf (hi8 stop) (lo8 stop))) = _
  rw [halfOf_hi8_lo8, halfOf_hi8_lo8]

theorem formatFS_pixelBytes (f : List Half → Instr) {pixels : List Half} (h : streamDomain pixels = true) :
    formatFS f (pixelBytes pixels) = .ok (f pixels) := by
  cases pixels with
  | nil => cases h
  | cons v vs => simp only [formatFS, halvesOf_pixelBytes]

/-- A well-formed frame is read back from its command byte and payload (30_encoding.md R103, R104). -/
theorem decodeFrame_frameParts {i : Instr} {c : Byte} {payload : List Byte} (hw : i.wf = true)
    (h : frameParts i = some (c, payload)) : decodeFrame (c :: payload) = .ok i := by
  cases i with
  | frmSoftReset | frmExitSleep | frmEnterSleep | frmSetOrient | frmSetColMode | frmNormalOn | frmInvertOff | frmInvertOn
  | frmDisplayOn | frmDisplayOff => cases h; rfl
  | frmColAddrSet start stop => cases h; exact formatF4_halfBytes _ start stop
  | frmRowAddrSet start stop => cases h; exact formatF4_halfBytes _ start stop
  | frmMemWrite pixels => cases h; exact formatFS_pixelBytes _ hw
  | _ => cases h

/-- Settles O1: a request's fields are read back from the packed word, a frame from its bytes, and a micro-operation stands for
itself. -/
theorem decodeReadsWhatEncodeWrites : Obligations.DecodeReadsWhatEncodeWrites := by
  intro i hw
  rcases encoding_cases i with ⟨o, ho⟩ | ⟨c, payload, hf⟩ | ⟨hk, he⟩
  · rw [encode_of_encodeFields ho]
    show decodeFields (unpack (pack o)) = _
    rw [unpack_pack, decodeFields_encodeFields ho]
  · rw [encode_of_frameParts hf]
    exact decodeFrame_frameParts hw hf
  · rw [he]
    exact if_pos hk

theorem decode_of_encode {c : Code} {i : Instr} (hw : i.wf = true) (h : encode i = c) : decode c = .ok i :=
  h ▸ decodeReadsWhatEncodeWrites i hw

/-- Settles O4: each of the words written out is the one that the encoder writes for its instruction. -/
theorem writtenOutWordsDecode : Obligations.WrittenOutWordsDecode :=
  ⟨decode_of_encode rfl (by decide), decode_of_encode rfl (by decide), decode_of_encode rfl (by decide),
    decode_of_encode rfl (by decide), decode_of_encode rfl (by decide)⟩

-- What the decoder reads is what the encoder writes

/-- The bytes are those of the well-formed frame `i`. -/
def FrameOf (bytes : List Byte) (i : Instr) : Prop :=
  i.wf = true ∧ ∃ c payload, frameParts i = some (c, payload) ∧ bytes = c :: payload

/-- The bytes that are read as a stream of words are the bytes of those words (30_encoding.md R108). -/
theorem eq_pixelBytes_of_halvesOf {bytes : List Byte} {vs : List Half} (h : halvesOf bytes = some vs) : bytes = pixelBytes vs := by
  induction bytes using halvesOf.induct generalizing vs with
  | case1 => cases h; rfl
  | case2 a => cases h
  | case3 hi lo rest ih =>
    obtain ⟨us, hus, rfl⟩ := Option.map_eq_some_iff.1 h
    rw [pixelBytes_cons, hi8_halfOf, lo8_halfOf, ← ih hus]

theorem eq_halfBytes_halfOf (a b : Byte) : [a, b] = halfBytes (halfOf a b) := by
  rw [halfBytes, hi8_halfOf, lo8_halfOf]

section
variable {c : Byte} {n : Nat} {payload : List Byte} {j : Instr}

/-- The command byte is the whole opcode (30_encoding.md R113). -/
theorem FrameOf.of_command (hc : c.toNat = n) (hw : j.wf = true) (hf : frameParts j = some (BitVec.ofNat 8 n, payload)) :
    FrameOf (c :: payload) j := by
  subst hc
  rw [BitVec.ofNat_toNat, BitVec.setWidth_eq] at hf
  exact ⟨hw, c, payload, hf, rfl⟩

theorem frameOf_formatF0 {i : Instr} (hc : c.toNat = n) (hw : i.wf = true) (hf : frameParts i = some (BitVec.ofNat 8 n, []))
    (h : formatF0 i payload = .ok j) : FrameOf (c :: payload) j := by
  unfold formatF0 at h
  split at h <;> cases h
  exact .of_command hc hw hf

theorem frameOf_formatF1 {f : Byte → Instr} (hc : c.toNat = n) (hw : ∀ a, (f a).wf = true)
    (hf : ∀ a, frameParts (f a) = some (BitVec.ofNat 8 n, [a])) (h : formatF1 f payload = .ok j) :
    FrameOf (c :: payload) j := by
  unfold formatF1 at h
  split at h <;> cases h
  exact .of_command hc (hw _) (hf _)

theorem frameOf_formatF4 {f : Half → Half → Instr} (hc : c.toNat = n) (hw : ∀ v u, (f v u).wf = true)
    (hf : ∀ v u, frameParts (f v u) = some (BitVec.ofNat 8 n, halfBytes v ++ halfBytes u)) (h : formatF4 f payload = .ok j) :
    FrameOf (c :: payload) j := by
  unfold formatF4 at h
  split at h <;> cases h
  next a0 a1 a2 a3 =>
    have hp : [a0, a1, a2, a3] = halfBytes (halfOf a0 a1) ++ halfBytes (halfOf a2 a3) := by
      rw [← eq_halfBytes_halfOf, ← eq_halfBytes_halfOf]
      rfl
    exact .of_command hc (hw _ _) ((hf _ _).trans (by rw [hp]))

theorem frameOf_formatFS {f : List Half → Instr} (hc : c.toNat = n) (hw : ∀ vs, (f vs).wf = streamDomain vs)
    (hf : ∀ vs, frameParts (f vs) = some (BitVec.ofNat 8 n, pixelBytes vs)) (h : formatFS f payload = .ok j) :
    FrameOf (c :: payload) j := by
  unfold formatFS at h
  split at h <;> cases h
  next hv =>
    rw [eq_pixelBytes_of_halvesOf hv]
    exact .of_command hc (hw _) (hf _)

end

/-- Settles O2: the command byte names the frame, and a format that accepts a payload drops none of it. -/
theorem frameBytesAreThoseOfTheirFrame : Obligations.FrameBytesAreThoseOfTheirFrame := by
  intro bytes i h
  show FrameOf bytes i
  unfold decodeFrame at h
  split at h
  case h_1 => cases h
  case h_2 =>
    split at h
    case h_9 hc | h_10 hc => exact frameOf_formatF1 hc (fun _ => rfl) (fun _ => rfl) h
    case h_11 hc | h_12 hc => exact frameOf_formatF4 hc (fun _ _ => rfl) (fun _ _ => rfl) h
    case h_13 hc => exact frameOf_formatFS hc (fun _ => rfl) (fun _ => rfl) h
    case h_14 => cases h
    all_goals
      next hc => exact frameOf_formatF0 hc rfl rfl h

-- Which request codes are operations

/-- Either the code is one of 0x1 to 0xB and names an operation, or it is reserved (30_encoding.md R101, R114). -/
theorem decodeFields_cases (o : Operands) :
    ((1 ≤ o.op.toNat ∧ o.op.toNat ≤ 11) ∧ ∃ i, decodeFields o = .ok i) ∨
    (¬ (1 ≤ o.op.toNat ∧ o.op.toNat ≤ 11) ∧ decodeFields o = .error .reservedRequest) := by
  unfold decodeFields
  split
  case h_12 =>
    refine .inr ⟨?_, rfl⟩
    rintro ⟨hlow, hhigh⟩
    interval_cases o.op.toNat <;> contradiction
  all_goals exact .inl ⟨by omega, _, rfl⟩

/-- Settles O3: what a request word decodes to is decided by its code, and what it decodes to is a request. -/
theorem requestCodesOneToElevenAreOperations : Obligations.RequestCodesOneToElevenAreOperations := by
  intro w
  rcases decodeFields_cases (unpack w) with ⟨hr, i, hi⟩ | ⟨hr, he⟩
  · exact ⟨fun _ => ⟨i, hi, (Machine.loadOf_decodeFields hi).2⟩, fun hn => absurd hr hn⟩
  · exact ⟨fun hn => absurd hn hr, fun _ => he⟩

end Sys2Proof
end

section
/-! The thirteen frames run alone, the reserved request codes, and the frames that a granted request sends (30_encoding.md R103, R104,
R114, R115). -/
namespace Sys2Proof.Machine

/-- Settles O28: each frame is one transaction of the parts that the encoding gives it. -/
theorem everyFrameIsOneTransaction : Obligations.EveryFrameIsOneTransaction := by
  intro s hs
  refine ⟨exec_frame rfl rfl hs, exec_frame rfl rfl hs, exec_frame rfl rfl hs, exec_frame rfl rfl hs, exec_frame rfl rfl hs,
    exec_frame rfl rfl hs, exec_frame rfl rfl hs, exec_frame rfl rfl hs, fun _ => exec_frame rfl rfl hs,
    fun _ => exec_frame rfl rfl hs, fun _ _ => exec_frame rfl rfl hs, fun _ _ => exec_frame rfl rfl hs, fun pixels hne => ?_⟩
  cases pixels with
  | nil => exact absurd rfl hne
  | cons v vs => exact exec_frame rfl rfl hs

theorem runCode_reserved {c : Code} (hd : decode c = .error .reservedRequest) (s : State) :
    runCode c s = .next s.completeReserved := by
  simp only [runCode, hd]

/-- Settles O7: a reserved code writes only the response and takes one free value. -/
theorem reservedRequestCompletesWithoutEffect : Obligations.ReservedRequestCompletesWithoutEffect := by
  intro s w rest hr hb hi hd
  exact ⟨_, _, (step_takes hr hb hi).trans (runCode_reserved hd _)⟩

-- Frames that the block emits

theorem blockFrame_of_frameParts {i : Instr} {f : Frame} (hw : i.wf = true) (h : frameParts i = some f) : blockFrame f = true := by
  simp only [blockFrame, decodeFrame_frameParts hw h]

/-- The two address frames and a stream of at least one word are frames of the table. -/
theorem blockFrame_windowedWrite (x y w h : Nat) {px : List Half} (hp : px ≠ []) :
    ∀ f ∈ windowedWrite x y w h px, blockFrame f = true := by
  have hwf : (Instr.frmMemWrite px).wf = true := by
    cases px with
    | nil => exact absurd rfl hp
    | cons v vs => rfl
  simp only [windowedWrite, windowFrames, List.cons_append, List.nil_append, List.forall_mem_cons]
  exact ⟨rfl, rfl, blockFrame_of_frameParts hwf rfl, nofun⟩

theorem blockFrame_fillFrames (x y w h : Nat) (color : Half) : ∀ f ∈ fillFrames x y w h color, blockFrame f = true := by
  unfold fillFrames
  split
  · nofun
  · next wc hc hk =>
    obtain ⟨hw, hh, -⟩ := clip_eq_some hk
    have hpos : wc * hc ≠ 0 := Nat.mul_ne_zero (by omega) (by omega)
    exact blockFrame_windowedWrite _ _ _ _ (mt (List.replicate_eq_nil_iff _).1 hpos)

theorem blockFrame_rowFrames (x y w h : Nat) (g : Nat → Nat → Half) : ∀ f ∈ rowFrames x y w h g, blockFrame f = true := by
  unfold rowFrames
  split
  · nofun
  · next wc hc hk =>
    obtain ⟨hw, -⟩ := clip_eq_some hk
    intro f hf
    obtain ⟨r, -, hr⟩ := List.mem_flatMap.1 hf
    refine blockFrame_windowedWrite _ _ _ _ (fun he => ?_) f hr
    have hlen : wc = 0 := by simpa [rowPixels] using congrArg List.length he
    omega

theorem blockFrame_glyphFrames (x y : Nat) (bg : Half) (g : Nat → Nat → Half) :
    ∀ f ∈ glyphFrames x y bg g, blockFrame f = true :=
  List.forall_mem_append.2 ⟨blockFrame_rowFrames _ _ _ _ _, blockFrame_fillFrames _ _ _ _ _⟩

theorem blockFrame_resetFrames : ∀ f ∈ resetFrames, blockFrame f = true := by
  have hne : List.replicate 12800 (0x0000#16) ≠ [] := mt (List.replicate_eq_nil_iff _).1 (by decide)
  refine List.forall_mem_append.2 ⟨List.forall_mem_append.2 ⟨?_, blockFrame_windowedWrite _ _ _ _ hne⟩, ?_⟩
  · simp only [List.forall_mem_cons]
    exact ⟨rfl, rfl, rfl, nofun⟩
  · simp only [List.forall_mem_cons]
    exact ⟨rfl, nofun⟩

-- The frame view of what a request emits

/-- Every line of the view that is a frame is one of the thirteen. -/
def BlockLines (vs : List View) : Prop := ∀ c payload, View.frame c payload ∈ vs → blockFrame (c, payload) = true

theorem BlockLines.append {vs us : List View} (hv : BlockLines vs) (hu : BlockLines us) : BlockLines (vs ++ us) :=
  fun c payload h => (List.mem_append.1 h).elim (hv c payload) (hu c payload)

theorem blockLines_frames {fs : List Frame} (h : ∀ f ∈ fs, blockFrame f = true) :
    BlockLines (fs.map fun f => .frame f.1 f.2) := by
  intro c payload hm
  obtain ⟨f, hf, he⟩ := List.mem_map.1 hm
  cases he
  exact h f hf

/-- The events of frames of the table, then others. -/
theorem blockLines_framesEvents {hasCs : Bool} {fs : List Frame} (h : ∀ f ∈ fs, blockFrame f = true) {es : List Event}
    (hes : BlockLines (frameView es)) : BlockLines (frameView (framesEvents hasCs fs ++ es)) := by
  rw [frameView_frames]
  exact (blockLines_frames h).append hes

theorem BlockLines.cons {v : View} {vs : List View} (hv : ∀ c payload, v = .frame c payload → blockFrame (c, payload) = true)
    (hvs : BlockLines vs) : BlockLines (v :: vs) :=
  fun c payload h => (List.mem_cons.1 h).elim (fun he => hv c payload he.symm) (hvs c payload)

theorem blockLines_txn {hasCs : Bool} {c : Byte} {payload : List Byte} (h : blockFrame (c, payload) = true) {es : List Event}
    (hes : BlockLines (frameView es)) : BlockLines (frameView (txnEvents hasCs c payload ++ es)) := by
  rw [frameView_txn]
  exact .cons (fun _ _ he => by cases he; exact h) hes

/-- A delay and an edge of the reset line are lines of the view, but no frames (00_scope.md R16). -/
theorem blockLines_delay {n : Nat} {es : List Event} (hes : BlockLines (frameView es)) :
    BlockLines (frameView (.delay n :: es)) :=
  BlockLines.cons (v := .delay n) nofun hes

theorem blockLines_rst {l : Bool} {es : List Event} (hes : BlockLines (frameView es)) : BlockLines (frameView (.rst l :: es)) :=
  BlockLines.cons (v := .rst l) nofun hes

theorem blockLines_nil : BlockLines (frameView []) := nofun

theorem blockLines_resetEvents (hasCs hasRst : Bool) : BlockLines (frameView (resetEvents hasCs hasRst)) := by
  have hrest : BlockLines (frameView (txnEvents hasCs 0x11#8 [] ++ .delay 120 :: framesEvents hasCs resetFrames)) := by
    have hf := blockLines_framesEvents (hasCs := hasCs) blockFrame_resetFrames blockLines_nil
    rw [List.append_nil] at hf
    exact blockLines_txn rfl (blockLines_delay hf)
  unfold resetEvents
  cases hasRst <;> simp only [if_true, Bool.false_eq_true, if_false, List.append_assoc, List.cons_append, List.nil_append]
  · exact blockLines_txn rfl (blockLines_delay hrest)
  · exact blockLines_rst (blockLines_delay (blockLines_rst (blockLines_delay hrest)))

-- What the requests emit

/-- The operations end, and of the events they emit every frame is one of the thirteen. -/
def EmitsBlockFrames (s : State) (r : Res) : Prop :=
  ∃ t es, r = .done t ∧ t.trace = s.trace ++ es ∧ BlockLines (frameView es)

theorem emits_frames {s : State} {r : Res} {fs : List Frame} {work : Work} {line : Vector Half 160} {fc : Nat}
    (he : r = .done ((s.sent fs).withRegs work line fc)) (h : ∀ f ∈ fs, blockFrame f = true) : EmitsBlockFrames s r := by
  refine ⟨_, framesEvents s.hasCs fs, he, State.sent_trace fs s, ?_⟩
  have := blockLines_framesEvents (hasCs := s.hasCs) h blockLines_nil
  rwa [List.append_nil] at this

theorem emits_panelReset {s : State} (hs : s.BusReady) : EmitsBlockFrames s (panelReset s) :=
  ⟨_, _, panelReset_ready hs, s.afterReset_trace, blockLines_resetEvents _ _⟩

/-- Driving the lines is no line of the frame view (44_lifecycle.md R243, 00_scope.md R16). -/
theorem emits_beginAll {s : State} (hl : s.lock = false) (hg : s.grants = none) : EmitsBlockFrames s (beginAll s) := by
  refine ⟨_, [.pinCfg, .busInit] ++ resetEvents s.hasCs s.hasRst, beginAll_ready hl hg, ?_, blockLines_resetEvents s.hasCs s.hasRst⟩
  have h : ({ s.pinCfg.busInit with begun := true } : State).trace = s.trace ++ [.pinCfg, .busInit] := by
    simp [State.trace, State.busInit, State.pinCfg]
  rw [State.afterReset_trace, h, List.append_assoc]
  rfl

theorem emits_power {s : State} (hs : s.BusReady) (on : Bool) : EmitsBlockFrames s (power on s) := by
  cases on with
  | true =>
    refine ⟨_, txnEvents s.hasCs 0x11#8 [] ++ .delay 120 :: (txnEvents s.hasCs 0x29#8 [] ++ []), power_on_ready hs, ?_,
      blockLines_txn rfl (blockLines_delay (blockLines_txn rfl blockLines_nil))⟩
    simp [State.setPstate, State.trace, State.sent, State.delay, framesEvents]
  | false =>
    refine ⟨_, txnEvents s.hasCs 0x28#8 [] ++ (txnEvents s.hasCs 0x10#8 [] ++ .delay 120 :: []), power_off_ready hs, ?_,
      blockLines_txn rfl (blockLines_txn rfl (blockLines_delay blockLines_nil))⟩
    simp [State.setPstate, State.trace, State.sent, State.delay, framesEvents]

theorem emits_drawString {s : State} (hs : s.BusReady) (x y src len : Nat) (fg bg : Half) :
    EmitsBlockFrames s (drawString x y src len fg bg s) := by
  obtain ⟨ch, f, work, line, fc, he, -⟩ := drawChars_ready y src fg bg len 0 x (s := s.setCurx x) (by exact hs)
  refine emits_frames (s := s) he fun g hg => ?_
  obtain ⟨i, -, hi⟩ := List.mem_flatMap.1 hg
  exact blockFrame_glyphFrames _ _ _ _ g hi

/-- Each served request sends the frames that the law of its operation names. -/
theorem emits_servedBody {i : Instr} {body : State → Res} (h : servedBody i = some body) {s : State} (hs : s.BusReady) :
    EmitsBlockFrames s (body s) := by
  cases i with
  | reqReset => cases h; exact emits_panelReset hs
  | reqPower on => cases h; exact emits_power hs on
  | reqFlip on => cases h; exact emits_frames (flip_ready on hs) (by cases on <;> decide)
  | reqInverse on => cases h; exact emits_frames (inverse_ready on hs) (by cases on <;> decide)
  | reqFill => cases h; exact emits_frames (fill_ready _ _ _ _ _ hs) (blockFrame_fillFrames _ _ _ _ _)
  | reqBlit =>
    cases h
    obtain ⟨f, fc, he, -⟩ := blit_ready _ _ _ _ _ hs
    exact emits_frames he (blockFrame_rowFrames _ _ _ _ f)
  | reqMonoBlit =>
    cases h
    obtain ⟨f, fc, he, -⟩ := monoBlit_ready _ _ _ _ _ _ _ _ hs
    exact emits_frames he (blockFrame_rowFrames _ _ _ _ f)
  | reqDrawChar =>
    cases h
    obtain ⟨f, fc, he, -⟩ := drawChar_ready _ _ _ _ _ hs
    exact emits_frames he (blockFrame_glyphFrames _ _ _ f)
  | reqDrawString => cases h; exact emits_drawString hs _ _ _ _ _ _
  | _ => cases h

/-- Settles O56: BEGIN and the nine served requests send the frames of their operations, RGB sends none. -/
theorem requestsSendOnlyTheThirteenFrames : Obligations.RequestsSendOnlyTheThirteenFrames := by
  intro i s hk hs
  have ⟨hb, _, hl, hg⟩ := hs
  rcases request_cases hk with rfl | ⟨r, g, b, rfl⟩ | ⟨body, hbody⟩
  · obtain ⟨t, es, he, ht, hes⟩ := emits_beginAll (s := s.accept (loadOf .reqBegin)) hl hg
    exact ⟨t.complete, es, by rw [exec_begin hb, he]; rfl, ht, hes⟩
  · exact ⟨_, [], exec_rgb r g b hb, (List.append_nil _).symm, blockLines_nil⟩
  · obtain ⟨t, es, he, ht, hes⟩ := emits_servedBody hbody (accept_ready (loadOf i) hs)
    exact ⟨t.complete, es, (exec_served hbody s).trans (serve_ready _ _ hs he), ht, hes⟩

end Sys2Proof.Machine
end

section
/-! The transport micro-operations run alone (40_bus_transport.md R140 to R153): a byte on a held bus, the transactions, ACQUIRE and
RELEASE, the delay and the reset pulse, and where each stops by name. -/
namespace Sys2Proof.Machine

-- A byte on a held bus

theorem exec_tx8_held {s : State} (b : Byte) (hb : s.begun = true) (hl : s.lock = true) :
    exec (.mopTx8 b) s = .next (s.tx8 b) := by
  show execTx8 b s = _
  simp only [execTx8, hb, hl, Bool.true_eq_false, if_false]

theorem exec_tx16_held {s : State} (v : Half) (hb : s.begun = true) (hl : s.lock = true) :
    exec (.mopTx16 v) s = .next (s.tx16 v) := by
  show execTx16 v s = _
  simp only [execTx16, hb, hl, Bool.true_eq_false, if_false]

/-- Each bit has one rising edge of `SCK`, with the bit on `MOSI` (40_bus_transport.md R140). -/
theorem risingSamples_bitWave (v : Bool) (rest : List (Bool × Bool)) :
    risingSamples false (bitWave v ++ rest) = v :: risingSamples false rest := rfl

theorem risingSamples_bitWaves (vs : List Bool) : risingSamples false (vs.flatMap bitWave) = vs := by
  induction vs with
  | nil => rfl
  | cons v vs ih => rw [List.flatMap_cons, risingSamples_bitWave, ih]

theorem risingSamples_byteWave (b : Byte) :
    risingSamples false (byteWave b) = [7, 6, 5, 4, 3, 2, 1, 0].map b.getLsbD := by
  rw [← risingSamples_bitWaves ([7, 6, 5, 4, 3, 2, 1, 0].map b.getLsbD), List.flatMap_map]
  rfl

/-- Settles O12: TX8 in closed form, the samples bit by bit, and the receiver's byte. -/
theorem tx8ShiftsOneByteOut : Obligations.Tx8ShiftsOneByteOut := by
  intro b s hb hl
  refine ⟨?_, risingSamples_byteWave b, ?_, ?_, receivedByte_eq b⟩
  · rw [exec_tx8_held b hb hl, State.tx8_eq]
  · rw [Pins.follow_byteWave]
  · rw [Pins.follow_byteWave]

theorem State.tx16_trace (v : Half) (s : State) : (s.tx16 v).trace = s.trace ++ [.tx8 (hi8 v), .tx8 (lo8 v)] := by
  rw [State.tx16, State.tx8_trace, State.tx8_trace, List.append_assoc]
  rfl

/-- The low byte is the last on the lines, so `MOSI` keeps bit 0 of the word (40_bus_transport.md R141). -/
theorem State.tx16_pins (v : Half) (s : State) : (s.tx16 v).pins = { s.pins with mosi := v.getLsbD 0, sck := false } := by
  have hbit : (lo8 v).getLsbD 0 = v.getLsbD 0 := by simp [lo8]
  simp only [State.tx16, State.tx8_eq, hbit]

/-- Settles O13: TX16 is TX8 twice, and TX8 leaves the bus held. -/
theorem tx16ShiftsHighByteFirst : Obligations.Tx16ShiftsHighByteFirst := by
  intro v s hb hl
  exact ⟨s.tx8 (hi8 v), s.tx16 v, exec_tx8_held _ hb hl, exec_tx8_held _ hb hl, exec_tx16_held v hb hl, s.tx16_trace v,
    s.tx16_pins v, rfl, rfl, rfl, hl, rfl, rfl, rfl, rfl, rfl, rfl, rfl, rfl, rfl, rfl, rfl, rfl⟩

-- Transactions

/-- A sequence of bus operations run alone that is done. -/
theorem exec_alone_done {i : Instr} {f : State → Res} {s t : State} (hf : aloneBody i = some f) (hw : i.wf = true)
    (ht : f s = .done t) : exec i s = .next t := by
  rw [exec_alone hf, if_pos hw, ht]
  rfl

theorem exec_alone_outside {i : Instr} {f : State → Res} {s : State} (hf : aloneBody i = some f) (hw : i.wf = false) :
    exec i s = .refused .operandDomain := by
  rw [exec_alone hf, hw]
  rfl

theorem exec_txn_ready (c : Byte) (payload : List Byte) {s : State} (hs : s.BusReady) :
    exec (.mopTxn c payload) s = .next (s.sent [(c, payload)]) :=
  exec_alone_done rfl rfl (txn_ready c payload hs)

/-- The events of a transaction, piece by piece (40_bus_transport.md R143). -/
theorem txnEvents_eq_append (hasCs : Bool) (c : Byte) (payload : List Byte) :
    txnEvents hasCs c payload = [.acq] ++ (if hasCs then [.cs false] else []) ++ [.dc false, .tx8 c] ++
      (if payload = [] then [] else .dc true :: payload.map .tx8) ++ [.rel] ++ (if hasCs then [.cs true] else []) := by
  cases payload with
  | nil => cases hasCs <;> rfl
  | cons b bs => simp [txnEvents, csEvents, payloadEvents]

theorem State.sent_single_trace (c : Byte) (payload : List Byte) (s : State) :
    (s.sent [(c, payload)]).trace = s.trace ++ txnEvents s.hasCs c payload := by
  simp [framesEvents]

/-- Settles O14: each of the four is the transaction of its parts. -/
theorem transactionSendsOneFrame : Obligations.TransactionSendsOneFrame := by
  intro c a payload s hs
  exact ⟨exec_txn_ready c payload hs, exec_alone_done rfl rfl (sendCmd0_ready c hs),
    exec_alone_done rfl rfl (sendCmd1_ready c a hs), exec_alone_done rfl rfl (txn_ready c payload hs),
    by rw [State.sent_single_trace, txnEvents_eq_append]⟩

/-- The event sends a byte. -/
def Event.isTx8 : Event → Bool
  | .tx8 _ => true
  | _ => false

theorem countP_isTx8_txnEvents (hasCs : Bool) (c : Byte) (payload : List Byte) :
    (txnEvents hasCs c payload).countP Event.isTx8 = payload.length + 1 := by
  rw [txnEvents_eq_append]
  cases hasCs <;> by_cases hp : payload = [] <;>
    simp [hp, List.countP_append, List.countP_cons, Event.isTx8, Nat.add_comm]

/-- What a transaction emits beside its bytes (40_bus_transport.md R156). -/
theorem txnEvents_filter_not_isTx8 (hasCs : Bool) (c : Byte) (payload : List Byte) :
    (txnEvents hasCs c payload).filter (fun e => !e.isTx8) = [.acq] ++ (if hasCs then [.cs false] else []) ++ [.dc false] ++
      (if payload = [] then [] else [.dc true]) ++ [.rel] ++ (if hasCs then [.cs true] else []) := by
  have hbytes : (payload.map Event.tx8).filter (fun e => !e.isTx8) = [] := by
    simp [List.filter_eq_nil_iff, Event.isTx8]
  rw [txnEvents_eq_append, List.filter_append, List.filter_append, List.filter_append, List.filter_append, List.filter_append]
  cases hasCs <;> cases payload <;> simp_all [Event.isTx8]

/-- How often an event that is no byte occurs in a transaction (40_bus_transport.md R156). -/
theorem count_txnEvents (hasCs : Bool) (c : Byte) (payload : List Byte) {e : Event} (he : e.isTx8 = false) :
    (txnEvents hasCs c payload).count e = ([.acq, .dc false, .rel].count e) +
      (if hasCs then [.cs false, .cs true].count e else 0) + (if payload = [] then 0 else [.dc true].count e) := by
  rw [← List.count_filter (p := fun e => !e.isTx8) (by rw [he]; rfl), txnEvents_filter_not_isTx8]
  simp only [List.count_append, List.count_cons, List.count_nil]
  cases hasCs <;> by_cases hp : payload = [] <;>
    simp only [hp, if_true, if_false, Bool.false_eq_true, List.count_cons, List.count_nil] <;> omega

theorem frameView_txn_only (hasCs : Bool) (c : Byte) (payload : List Byte) :
    frameView (txnEvents hasCs c payload) = [.frame c payload] := by
  simpa [frameView, frameViewFrom] using frameView_txn hasCs c payload []

theorem dcBytes_txn_only (hasCs l : Bool) (c : Byte) (payload : List Byte) :
    dcBytes l (txnEvents hasCs c payload) = (false, c) :: payload.map (fun b => (true, b)) := by
  simpa [dcBytes] using dcBytes_txn hasCs l c payload []

/-- Settles O15: the laws of the frame view and of the selector level, and the counts of the events that are no bytes. -/
theorem transactionEventsAreThoseOfOneFrame : Obligations.TransactionEventsAreThoseOfOneFrame := by
  intro c payload s hs
  have hcount {e : Event} (he : e.isTx8 = false) := count_txnEvents s.hasCs c payload he
  have habsent {e : Event} (he : e.isTx8 = false) (h0 : [.acq, .dc false, .rel].count e = 0)
      (hc : [.cs false, .cs true].count e = 0) (hd : [.dc true].count e = 0) : e ∉ txnEvents s.hasCs c payload := by
    rw [← List.count_eq_zero, hcount he, h0, hc, hd, ite_self, ite_self]
  refine ⟨_, txnEvents s.hasCs c payload, exec_txn_ready c payload hs, s.sent_single_trace c payload,
    frameView_txn_only _ c payload, dcBytes_txn_only _ _ c payload, rfl, (hcount rfl).trans ?_, (hcount rfl).trans ?_, ?_,
    (hcount rfl).trans ?_, (hcount rfl).trans ?_, (hcount rfl).trans ?_, (hcount rfl).trans ?_,
    fun n => habsent rfl rfl rfl rfl, fun v => habsent rfl rfl rfl rfl⟩
  case refine_3 =>
    rw [← countP_isTx8_txnEvents s.hasCs c payload]
    rfl
  all_goals simp

/-- Settles O16: the three send operations are defined as the transaction. -/
theorem sendCommandsAreTransactions : Obligations.SendCommandsAreTransactions :=
  ⟨fun _ _ => rfl, fun _ _ _ => rfl, fun _ _ _ => rfl⟩

-- Pixel streams

theorem streamDomain_of_ne_nil {pixels : List Half} (hne : pixels ≠ []) : streamDomain pixels = true := by
  rw [streamDomain, List.isEmpty_eq_false_iff.2 hne]
  rfl

theorem repDomain_iff (n : Nat) : repDomain n = true ↔ 1 ≤ n ∧ n ≤ 12800 := by
  rw [repDomain, Bool.and_eq_true, decide_eq_true_iff, decide_eq_true_iff]
  rfl

theorem pixelBytes_replicate (v : Half) (n : Nat) :
    pixelBytes (List.replicate n v) = (List.replicate n [hi8 v, lo8 v]).flatten := by
  rw [pixelBytes, List.flatMap_replicate]
  rfl

/-- Settles O17: the bytes of the stream are those of its words in turn. -/
theorem sendData16StreamsItsPixels : Obligations.SendData16StreamsItsPixels := by
  intro pixels s hne hs
  exact exec_alone_done rfl (streamDomain_of_ne_nil hne) (txn_ready 0x2C#8 (pixelBytes pixels) hs)

/-- Settles O18: SENDDATAREP in its domain sends its frame and leaves `CNT` at 0. -/
theorem sendDataRepRepeatsOnePixel : Obligations.SendDataRepRepeatsOnePixel := by
  intro v n s h1 hn hs
  have he := exec_alone_done (i := .mopSendDataRep v n) rfl ((repDomain_iff n).2 ⟨h1, hn⟩) (sendDataRep_ready v n hs)
  rw [pixelBytes_replicate] at he
  exact he

-- The bus, delays and the reset pulse

theorem acquire_granted {s : State} {n : Nat} (hb : s.begun = true) (hl : s.lock = false) (hg : s.grants = some (n + 1)) :
    acquire s = .done (State.emit .acq { s with busReq := true, lock := true, grants := some n }) := by
  simp only [acquire, hb, hl, hg, Bool.true_eq_false, Bool.false_eq_true, if_false]

theorem acquire_waits {s : State} (hb : s.begun = true) (hl : s.lock = false) (hg : s.grants = some 0) :
    acquire s = .hung { s with busReq := true } := by
  simp only [acquire, hb, hl, hg, Bool.true_eq_false, Bool.false_eq_true, if_false]

theorem acquire_lockHeld {s : State} (hb : s.begun = true) (hl : s.lock = true) : acquire s = .refused .lockHeld := by
  simp only [acquire, hb, hl, Bool.true_eq_false, if_true, if_false]

theorem exec_acquire (s : State) : exec .mopAcquire s = (acquire s).micro := rfl

/-- Settles O19, by what is left of the grants. -/
theorem acquireTakesAGrantedBusOrWaits : Obligations.AcquireTakesAGrantedBusOrWaits := by
  intro s hb hl
  refine ⟨fun hg => ?_, fun n hg => ?_, fun hg => ?_⟩
  · rw [exec_acquire, acquire_ready ⟨hb, hl, hg⟩]
    rfl
  · rw [exec_acquire, acquire_granted hb hl hg]
    rfl
  · rw [exec_acquire, acquire_waits hb hl hg]
    rfl

/-- Settles O20: each is one update of the state and one event. -/
theorem releaseAndDelayAreOneEventEach : Obligations.ReleaseAndDelayAreOneEventEach :=
  ⟨fun _ => rfl, fun _ _ => rfl⟩

theorem exec_rstPulse {s : State} (hb : s.begun = true) (hr : s.hasRst = true) : exec .mopRstPulse s = .next s.rstPulse := by
  show execRstPulse s = _
  simp only [execRstPulse, hb, hr, Bool.true_eq_false, if_false]

theorem State.rstPulse_trace (s : State) :
    s.rstPulse.trace = s.trace ++ [.rst false, .delay 100, .rst true, .delay 120] := by
  simp [State.rstPulse, Config.tRstLow, Config.tRstHigh]

/-- Settles O21: the pulse writes the trace, the reset line, `DLY` and the panel, which it loses, and nothing else. -/
theorem rstPulseLowThenHigh : Obligations.RstPulseLowThenHigh := by
  intro s hb hr
  exact ⟨s.rstPulse, exec_rstPulse hb hr, s.rstPulse_trace, rfl, rfl, rfl, rfl, rfl, rfl, rfl, rfl, rfl, rfl, rfl, rfl, rfl,
    rfl, rfl, rfl, rfl, rfl, rfl, rfl, rfl, rfl, rfl⟩

-- Where the micro-operations stop

/-- Settles O22: the arm of SENDDATA8 is the refusal. -/
theorem sendData8IsRefused : Obligations.SendData8IsRefused := fun _ => rfl

theorem exec_tx8_lockNotHeld {s : State} (b : Byte) (hb : s.begun = true) (hl : s.lock = false) :
    exec (.mopTx8 b) s = .refused .lockNotHeld := by
  show execTx8 b s = _
  simp only [execTx8, hb, hl, Bool.true_eq_false, if_true, if_false]

theorem exec_tx16_lockNotHeld {s : State} (v : Half) (hb : s.begun = true) (hl : s.lock = false) :
    exec (.mopTx16 v) s = .refused .lockNotHeld := by
  show execTx16 v s = _
  simp only [execTx16, hb, hl, Bool.true_eq_false, if_true, if_false]

theorem exec_rstPulse_noResetLine {s : State} (hb : s.begun = true) (hr : s.hasRst = false) :
    exec .mopRstPulse s = .refused .noResetLine := by
  show execRstPulse s = _
  simp only [execRstPulse, hb, hr, Bool.true_eq_false, if_true, if_false]

/-- Settles O23: each precondition is a test of the operation, and the domains are those of `Instr.wf`. -/
theorem failedPreconditionsStop : Obligations.FailedPreconditionsStop := by
  intro s hb
  refine ⟨fun b v hl => ⟨exec_tx8_lockNotHeld b hb hl, exec_tx16_lockNotHeld v hb hl⟩, fun hl => ?_,
    exec_rstPulse_noResetLine hb, fun x y w h hd => ?_, exec_alone_outside rfl rfl, exec_alone_outside rfl rfl, fun v n hd => ?_⟩
  · rw [exec_acquire, acquire_lockHeld hb hl]
    rfl
  · exact exec_alone_outside rfl (Bool.eq_false_iff.2 (mt (selectDomain_iff x y w h).1 hd))
  · exact exec_alone_outside rfl (Bool.eq_false_iff.2 (mt (repDomain_iff n).1 hd))

end Sys2Proof.Machine
end

section
/-! A request that is granted only some acquisitions (60_exceptions.md R278, 40_bus_transport.md R144). Every request but RGB is a
metered sequence run from the state in which its first acquisition may come; so it ends as it does when every one is granted, or waits
where the grants end. -/
namespace Sys2Proof.Machine

-- What a request does before its first acquisition and after its last

/-- The state in which the request `i` begins its sequence of bus operations: accepted, in BEGIN with the lines configured, in BEGIN and
RESET with `PSTATE` uninitialised (44_lifecycle.md R243, R244). -/
def State.entered (i : Instr) (s : State) : State :=
  match i with
  | .reqBegin => State.setPstate .uninit { (s.accept (loadOf .reqBegin)).pinCfg.busInit with begun := true }
  | .reqReset => (s.accept (loadOf .reqReset)).setPstate .uninit
  | i => s.accept (loadOf i)

theorem State.entered_granting (i : Instr) (g : Option Nat) (s : State) :
    (s.granting g).entered i = (s.entered i).granting g := by
  cases i <;> rfl

/-- What the entry of a request leaves, whichever request it is. -/
structure Entered (i : Instr) (s a : State) : Prop where
  begun : a.begun = true
  lock : a.lock = s.lock
  busy : a.busy = true
  respDone : a.respDone = false
  pstate : a.pstate = if i = .reqBegin ∨ i = .reqReset then .uninit else s.pstate
  events : ∃ es, es.count .acq = 0 ∧ a.trace = s.trace ++ es

theorem entered_begin (s : State) : Entered .reqBegin s (s.entered .reqBegin) :=
  ⟨rfl, rfl, rfl, rfl, rfl, [.pinCfg, .busInit], rfl, by
    simp [State.trace, State.entered, State.setPstate, State.busInit, State.pinCfg]⟩

theorem entered_reset {s : State} (hb : s.begun = true) : Entered .reqReset s (s.entered .reqReset) :=
  ⟨hb, rfl, rfl, rfl, rfl, [], rfl, (List.append_nil _).symm⟩

theorem State.entered_eq_accept {i : Instr} (hb : i ≠ .reqBegin) (hr : i ≠ .reqReset) (s : State) :
    s.entered i = s.accept (loadOf i) := by
  unfold State.entered
  split
  · exact absurd rfl hb
  · exact absurd rfl hr
  · rfl

theorem entered_spec {i : Instr} {s : State} (hb : s.begun = true ∨ i = .reqBegin) : Entered i s (s.entered i) := by
  by_cases hi : i = .reqBegin
  · subst hi
    exact entered_begin s
  have hbegun : s.begun = true := hb.resolve_right hi
  by_cases hr : i = .reqReset
  · subst hr
    exact entered_reset hbegun
  rw [State.entered_eq_accept hi hr]
  exact ⟨hbegun, rfl, rfl, rfl, (if_neg (not_or.2 ⟨hi, hr⟩)).symm, [], rfl, (List.append_nil _).symm⟩

/-- A change at the end of a request: no event, no operand register, and no look at the grants. -/
structure Closing (post : State → State) : Prop where
  commutes : ∀ s g, post (s.granting g) = (post s).granting g
  trace : ∀ s, (post s).trace = s.trace
  opnd : ∀ s, (post s).opnd = s.opnd

theorem closing_id : Closing id := ⟨fun _ _ => rfl, fun _ => rfl, fun _ => rfl⟩

theorem closing_setPstate (p : PState) : Closing (State.setPstate p) := ⟨fun _ _ => rfl, fun _ => rfl, fun _ => rfl⟩

theorem Res.map_id (r : Res) : r.map id = r := by cases r <;> rfl

/-- The request `i` is the metered sequence `f` from its entry, then the change `post`, however many acquisitions are granted. -/
structure RunsMetered (i : Instr) (s : State) (f : State → Res) (post : State → State) : Prop where
  metered : Metered f
  closing : Closing post
  runs : ∀ g, exec i (s.granting g) = ((f ((s.entered i).granting g)).map post).request

theorem exec_served_entered {i : Instr} {body : State → Res} (hs : servedBody i = some body) {s : State} (hb : s.busy = false)
    (hg : s.begun = true) (g : Option Nat) : exec i (s.granting g) = (body ((s.granting g).accept (loadOf i))).request := by
  rw [exec_served hs]
  simp only [serve, State.granting, hb, hg, Bool.true_eq_false, Bool.false_eq_true, if_false]

/-- A request whose operation is metered from its acceptance on, up to a change at its end. -/
theorem runsMetered_of_accept {i : Instr} {f : State → Res} {post : State → State}
    (hs : servedBody i = some fun s => (f s).map post) (hr : i ≠ .reqReset) (hm : Metered f) (hp : Closing post) {s : State}
    (hb : s.busy = false) (hg : s.begun = true) : RunsMetered i s f post where
  metered := hm
  closing := hp
  runs g := by
    have hi : i ≠ .reqBegin := by rintro rfl; cases hs
    rw [exec_served_entered hs hb hg, ← State.entered_granting, State.entered_eq_accept hi hr]

/-- BEGIN after the lines are configured, and RESET, are one sequence (44_lifecycle.md R243, R244). -/
theorem runsMetered_begin {s : State} (hb : s.busy = false) : ∃ f post, RunsMetered .reqBegin s f post := by
  obtain ⟨f, hm, he⟩ := metered_panelReset
  refine ⟨f, State.setPstate .awake, hm, closing_setPstate _, fun g => ?_⟩
  rw [exec_begin (s := s.granting g) hb, beginAll, he]
  rfl

theorem runsMetered_reset {s : State} (hb : s.busy = false) (hg : s.begun = true) : ∃ f post, RunsMetered .reqReset s f post := by
  obtain ⟨f, hm, he⟩ := metered_panelReset
  refine ⟨f, State.setPstate .awake, hm, closing_setPstate _, fun g => ?_⟩
  rw [exec_served_entered (body := panelReset) rfl hb hg, he]
  rfl

theorem runsMetered_power (on : Bool) {s : State} (hb : s.busy = false) (hg : s.begun = true) :
    ∃ f post, RunsMetered (.reqPower on) s f post := by
  obtain ⟨f, hm, he⟩ := metered_power on
  have hs : servedBody (.reqPower on) = some fun s => (f s).map (State.setPstate (if on then .awake else .sleeping)) :=
    congrArg some he
  exact ⟨f, _, runsMetered_of_accept hs nofun hm (closing_setPstate _) hb hg⟩

/-- The requests that do not write `PSTATE` are metered as they stand. -/
theorem metered_servedBody {i : Instr} {body : State → Res} (hs : servedBody i = some body) (hr : i ≠ .reqReset)
    (hp : ∀ on, i ≠ .reqPower on) : Metered body := by
  cases i with
  | reqReset => exact absurd rfl hr
  | reqPower on => exact absurd rfl (hp on)
  | reqFlip on => cases hs; exact metered_flip on
  | reqInverse on => cases hs; exact metered_inverse on
  | reqFill => cases hs; exact metered_fill _ _ _ _ _
  | reqBlit => cases hs; exact metered_blit _ _ _ _ _
  | reqMonoBlit => cases hs; exact metered_monoBlit _ _ _ _ _ _ _ _
  | reqDrawChar => cases hs; exact metered_drawChar _ _ _ _ _
  | reqDrawString => cases hs; exact metered_drawString _ _ _ _ _ _
  | _ => cases hs

theorem runsMetered_served {i : Instr} {body : State → Res} (hs : servedBody i = some body) {s : State} (hb : s.busy = false)
    (hg : s.begun = true) : ∃ f post, RunsMetered i s f post := by
  by_cases hr : i = .reqReset
  · subst hr
    exact runsMetered_reset hb hg
  by_cases hp : ∃ on, i = .reqPower on
  · obtain ⟨on, rfl⟩ := hp
    exact runsMetered_power on hb hg
  have hm : Metered body := metered_servedBody hs hr (not_exists.1 hp)
  exact ⟨body, id, runsMetered_of_accept (by simpa only [Res.map_id] using hs) hr hm closing_id hb hg⟩

-- How a request ends, by the number of its acquisitions that are granted

/-- The request `i`, from `s`, waits in `u` for its acquisition after the first `n`, `es` the events it would emit in all
(60_exceptions.md R278; log 5). -/
structure WaitsInRequest (i : Instr) (s : State) (n : Nat) (es : List Event) (u : State) : Prop where
  trace : u.trace = s.trace ++ untilAcq n es
  busy : u.busy = true
  lock : u.lock = false
  request : u.busReq = true
  respDone : u.respDone = false
  grants : u.grants = some 0
  begun : u.begun = true
  pstate : u.pstate = if i = .reqBegin ∨ i = .reqReset then .uninit else s.pstate

/-- The request `i`, from `s`, ends in `t` with the events `es` if every acquisition is granted; with `n` of them it goes as far as they
reach. -/
structure EndsAsGranted (i : Instr) (s t : State) (es : List Event) : Prop where
  done : exec i (s.granting none) = .next t
  trace : t.trace = s.trace ++ es
  enough : ∀ n, es.count .acq ≤ n → exec i (s.granting (some n)) = .next (t.granting (some (n - es.count .acq)))
  short : ∀ n, n < es.count .acq → ∃ u, exec i (s.granting (some n)) = .next u ∧ u.opnd = t.opnd ∧ WaitsInRequest i s n es u

theorem RunsMetered.endsAsGranted {i : Instr} {s : State} {f : State → Res} {post : State → State} (h : RunsMetered i s f post)
    (he : Entered i s (s.entered i)) (hl : s.lock = false) : ∃ t es, EndsAsGranted i s t es := by
  obtain ⟨pre, hpre, htrace⟩ := he.events
  obtain ⟨t, es, hm⟩ := h.metered (s.entered i) he.begun (he.lock.trans hl)
  have hcount : (pre ++ es).count .acq = es.count .acq := by rw [List.count_append, hpre, Nat.zero_add]
  refine ⟨(post t).complete, pre ++ es, by rw [h.runs, hm.done]; rfl, ?_, fun n hn => ?_, fun n hn => ?_⟩
  · rw [← List.append_assoc, ← htrace, ← hm.trace, ← h.closing.trace t]
    rfl
  · rw [hcount] at hn ⊢
    rw [h.runs, hm.enough n hn, Res.map, h.closing.commutes]
    rfl
  · rw [hcount] at hn
    obtain ⟨u, hu, hw⟩ := hm.short n hn
    have hopnd : u.opnd = (post t).opnd := by rw [h.closing.opnd, hw.kept.opnd, hm.kept.opnd]
    refine ⟨u, by rw [h.runs, hu]; rfl, hopnd, ?_, hw.kept.busy.trans he.busy, hw.kept.lock.trans (he.lock.trans hl), hw.request,
      hw.kept.respDone.trans he.respDone, hw.grants, hw.kept.begun.trans he.begun, hw.kept.pstate.trans he.pstate⟩
    rw [untilAcq_append, hpre, if_neg (Nat.not_lt_zero n), Nat.sub_zero, hw.trace, htrace, List.append_assoc]

/-- RGB acquires nothing (42_raster.md R190). -/
theorem rgb_endsAsGranted (r g b : Byte) {s : State} (hb : s.busy = false) : ∃ t es, EndsAsGranted (.reqRgb r g b) s t es :=
  ⟨_, [], exec_rgb r g b (s := s.granting none) hb, (List.append_nil _).symm, fun n _ => exec_rgb r g b (s := s.granting (some n)) hb,
    fun n hn => absurd hn (Nat.not_lt_zero n)⟩

theorem request_endsAsGranted {i : Instr} {s : State} (hk : i.kind = .request) (hb : s.busy = false)
    (hg : s.begun = true ∨ i = .reqBegin) (hl : s.lock = false) : ∃ t es, EndsAsGranted i s t es := by
  have he := entered_spec hg
  rcases request_cases hk with rfl | ⟨r, g, b, rfl⟩ | ⟨body, hs⟩
  · obtain ⟨f, post, h⟩ := runsMetered_begin hb
    exact h.endsAsGranted he hl
  · exact rgb_endsAsGranted r g b hb
  · have hne : i ≠ .reqBegin := by rintro rfl; cases hs
    obtain ⟨f, post, h⟩ := runsMetered_served hs hb (hg.resolve_right hne)
    exact h.endsAsGranted he hl

-- FILL with fewer grants than its three frames

theorem untilAcq_zero_framesEvents (hasCs : Bool) (fs : List Frame) : untilAcq 0 (framesEvents hasCs fs) = [] := by
  cases fs with
  | nil => rfl
  | cons f fs => simp [framesEvents, txnEvents, untilAcq]

theorem framesEvents_cons (hasCs : Bool) (f : Frame) (fs : List Frame) :
    framesEvents hasCs (f :: fs) = txnEvents hasCs f.1 f.2 ++ framesEvents hasCs fs := rfl

/-- Each frame is one acquisition, so `n` grants reach `n` frames far (40_bus_transport.md R143, R144). -/
theorem untilAcq_framesEvents (hasCs : Bool) (n : Nat) (fs : List Frame) :
    untilAcq n (framesEvents hasCs fs) = framesEvents hasCs (fs.take n) := by
  induction n generalizing fs with
  | zero => exact untilAcq_zero_framesEvents hasCs fs
  | succ n ih =>
    cases fs with
    | nil => rfl
    | cons f fs =>
      rw [List.take_succ_cons, framesEvents_cons, framesEvents_cons, untilAcq_append, count_acq_txn, if_neg (by omega),
        Nat.add_sub_cancel, ih]

theorem count_acq_framesEvents (hasCs : Bool) (fs : List Frame) : (framesEvents hasCs fs).count .acq = fs.length := by
  induction fs with
  | nil => rfl
  | cons f fs ih => rw [framesEvents_cons, List.count_append, count_acq_txn, ih, List.length_cons, Nat.add_comm]

/-- FILL of a rectangle that begins on the panel is one windowed write, which is three frames (42_raster.md R192). -/
theorem fillFrames_length {x y w h : Nat} (color : Half) (hx : x < 160) (hy : y < 80) (hw : 1 ≤ w) (hh : 1 ≤ h) :
    (fillFrames x y w h color).length = 3 := by
  have hc : clip x y w h = some (min w (160 - x), min h (80 - y)) := by
    rw [clip, if_neg, if_neg]
    · rfl
    · omega
    · simp only [Config.panelW, Config.panelH]; omega
  simp only [fillFrames, hc]
  rfl

/-- What FILL emits if every acquisition is granted (42_raster.md R192). -/
theorem exec_fill_trace (x y w h color : Half) {s : State} (hs : s.Ready) : ∃ t, exec (.reqFill x y w h color) s = .next t ∧
    t.trace = s.trace ++ framesEvents s.hasCs (fillFrames x.toNat y.toNat w.toNat h.toNat color) := by
  have hbody := fill_ready x.toNat y.toNat w.toNat h.toNat color (accept_ready (loadOf (.reqFill x y w h color)) hs)
  exact ⟨_, (exec_served rfl s).trans (serve_ready _ _ hs hbody), (served _ hs _ _ _ _).trace⟩

theorem fill_waits (x y w h color : Half) {n : Nat} {s : State} (hb : s.busy = false) (hg : s.begun = true) (hl : s.lock = false)
    (hn : n < (fillFrames x.toNat y.toNat w.toNat h.toNat color).length) :
    ∃ u, exec (.reqFill x y w h color) (s.granting (some n)) = .next u ∧ WaitsInRequest (.reqFill x y w h color) s n
      (framesEvents s.hasCs (fillFrames x.toNat y.toNat w.toNat h.toNat color)) u := by
  obtain ⟨t, es, he⟩ := request_endsAsGranted (i := .reqFill x y w h color) rfl hb (.inl hg) hl
  obtain ⟨t', ht', htrace⟩ := exec_fill_trace x y w h color (s := s.granting none) ⟨hb, hg, hl, rfl⟩
  obtain rfl : t = t' := by
    rw [he.done] at ht'
    cases ht'
    rfl
  obtain rfl : es = framesEvents s.hasCs (fillFrames x.toNat y.toNat w.toNat h.toNat color) :=
    List.append_cancel_left (he.trace.symm.trans htrace)
  obtain ⟨u, hu, -, hw⟩ := he.short n (by rwa [count_acq_framesEvents])
  exact ⟨u, hu, hw⟩

/-- Settles O55: every request ends as granted, and the three frames of FILL are three acquisitions. -/
theorem requestsWaitWhereTheGrantsEnd : Obligations.RequestsWaitWhereTheGrantsEnd := by
  refine ⟨fun i n s hk hb hg hl hn => ?_, fun x y w h color n s hb hg hl hn h3 hx hy hw hh => ?_⟩
  · obtain ⟨t, es, he⟩ := request_endsAsGranted hk hb hg hl
    have henough := he.enough n
    have hshort := he.short n
    rw [State.granting_self hn] at henough hshort
    refine ⟨t, es, he.done, he.trace, henough, fun hlt => ?_⟩
    obtain ⟨u, hu, hopnd, hu'⟩ := hshort hlt
    exact ⟨u, hu, hu'.trace, hu'.busy, hu'.lock, hu'.request, hu'.respDone, hu'.grants, hu'.begun, hopnd, hu'.pstate⟩
  · obtain ⟨u, hu, hu'⟩ := fill_waits x y w h color hb hg hl (by rwa [fillFrames_length color hx hy hw hh])
    rw [State.granting_self hn] at hu
    have hne : ¬ (Instr.reqFill x y w h color = .reqBegin ∨ Instr.reqFill x y w h color = .reqReset) := by nofun
    exact ⟨u, hu, hu'.busy, hu'.lock, hu'.request, hu'.respDone, hu'.pstate.trans (if_neg hne),
      hu'.trace.trans (by rw [untilAcq_framesEvents])⟩

end Sys2Proof.Machine
end

section
/-! Clipping and the address window (41_addressing.md): the cases of CLIP, the two frames of SELECT, and that a run of requests never
leaves the sink in the middle of a frame. -/
namespace Sys2Proof.Machine

-- Clipping

/-- The two tests of CLIP as one: something is left if the corner is on the panel and neither side is zero (41_addressing.md R171,
R173). -/
theorem clip_eq_ite (x y w h : Nat) : clip x y w h =
    if x < 160 ∧ y < 80 ∧ 1 ≤ w ∧ 1 ≤ h then some (min w (160 - x), min h (80 - y)) else none := by
  unfold clip Config.panelW Config.panelH
  split
  · rw [if_neg (by omega)]
  · split
    · rw [if_neg (by omega)]
    · rw [if_pos (by omega)]

/-- Settles O25: CLIP writes `WC` and `HC` where something is left. -/
theorem clipCutsToThePanel : Obligations.ClipCutsToThePanel := by
  intro x y w h s
  show execClip x y w h s = _
  unfold execClip
  rw [clip_eq_ite]
  by_cases hin : x.toNat < 160 ∧ y.toNat < 80 ∧ 1 ≤ w.toNat ∧ 1 ≤ h.toNat
  · rw [if_pos hin, if_pos hin]
    rfl
  · rw [if_neg hin, if_neg hin]

/-- A size that reaches no further than the panel's edges is not cut. -/
theorem clip_of_fits {x y w h : Nat} (hw : 1 ≤ w) (hh : 1 ≤ h) (hx : x + w ≤ 160) (hy : y + h ≤ 80) :
    clip x y w h = some (w, h) := by
  rw [clip_eq_ite, if_pos (by omega), Nat.min_eq_left (by omega), Nat.min_eq_left (by omega)]

/-- Settles O26: a clipped size fits the panel, and one that fits is not cut again. -/
theorem clippedSizeStaysInThePanel : Obligations.ClippedSizeStaysInThePanel := by
  intro x y w h wc hc hk
  obtain ⟨hw1, hh1, hx, hy, hw, hh, -, -⟩ := clip_eq_some hk
  have hwc : wc ≤ 160 := by omega
  have hhc : hc ≤ 80 := by omega
  exact ⟨hw1, hwc, hh1, hhc, hw, hh, Nat.mul_le_mul hwc hhc, hx, hy, clip_of_fits hw1 hh1 hx hy⟩

-- The address window

/-- A logical address fits in one byte (30_encoding.md R107). -/
theorem toNat_addressByte {n : Nat} (hn : n < 256) : (BitVec.ofNat 8 n).toNat = n :=
  (BitVec.toNat_ofNat n 8).trans (Nat.mod_eq_of_lt hn)

/-- Settles O27: SELECT in its domain sends the two frames of its window, whose addresses are at most 159 and 103. -/
theorem selectProgramsTheWindow : Obligations.SelectProgramsTheWindow := by
  intro x y w h s hw hh hx hy hs
  refine ⟨BitVec.ofNat 8 x, BitVec.ofNat 8 (x + w - 1), BitVec.ofNat 8 (y + 24), BitVec.ofNat 8 (y + h + 23),
    toNat_addressByte (by omega), toNat_addressByte (by omega), toNat_addressByte (by omega), ?_, ?_⟩
  · rw [toNat_addressByte (by omega)]
    omega
  · exact exec_alone_done rfl ((selectDomain_iff x y w h).2 ⟨hw, hh, hx, hy⟩) (select_ready x y w h hs hh)

-- How a request ends

/-- Serving a request that the block accepts is running its body. -/
theorem serve_next {load : Operands → Operands} {body : State → Res} {s t : State} (hb : s.busy = false)
    (h : serve load body s = .next t) : (body (s.accept load)).request = .next t := by
  rcases serve_cases load body s with ⟨hb', _⟩ | ⟨_, _, e⟩ | ⟨u, _, _, eb, e⟩ | ⟨u, _, _, eb, e⟩ | ⟨r, _, _, _, e⟩
  · exact absurd (hb.symm.trans hb') nofun
  · cases e.symm.trans h
  · rw [eb]; exact e.symm.trans h
  · rw [eb]; exact e.symm.trans h
  · cases e.symm.trans h

/-- A request that takes a step is RGB, BEGIN, or one whose body was run. -/
theorem exec_request_next {i : Instr} {s t : State} (hk : i.kind = .request) (hb : s.busy = false) (h : exec i s = .next t) :
    (∃ v, t = (s.accept (loadOf i)).completeWith v) ∨
    ∃ body, (body = beginAll ∨ servedBody i = some body) ∧ (body (s.accept (loadOf i))).request = .next t := by
  rcases request_cases hk with rfl | ⟨r, g, b, rfl⟩ | ⟨body, hs⟩
  · exact .inr ⟨beginAll, .inl rfl, (exec_begin hb).symm.trans h⟩
  · cases (exec_rgb r g b hb).symm.trans h
    exact .inl ⟨_, rfl⟩
  · exact .inr ⟨body, .inr hs, serve_next hb ((exec_served hs s).symm.trans h)⟩

-- What is presented next

/-- What the host presents next is the same. -/
def SameInputs (s t : State) : Prop := t.inputs = s.inputs

theorem tolerantReset_sameInputs : TolerantReset SameInputs where
  tolerant :=
    { refl := fun _ => rfl
      trans := fun _ _ _ h h' => h'.trans h
      sent := fun _ _ => rfl
      grants := fun _ _ => rfl
      waits := fun _ => rfl
      regs := fun _ _ _ _ => rfl }
  delay := fun _ _ => rfl
  rstPulse := fun _ => rfl
  setPstate := fun _ _ => rfl

/-- A request takes nothing more from the port while it is served. -/
theorem exec_request_sameInputs {i : Instr} {s t : State} (hk : i.kind = .request) (hb : s.busy = false)
    (h : exec i s = .next t) : SameInputs s t := by
  rcases exec_request_next hk hb h with ⟨v, rfl⟩ | ⟨body, hbody, hr⟩
  · rfl
  · have hf : Following SameInputs body := by
      rcases hbody with rfl | hs
      · exact following_beginAll tolerantReset_sameInputs fun _ => rfl
      · exact following_servedBody tolerantReset_sameInputs hs
    exact request_rel (s := s.accept (loadOf i)) hf (fun _ hu => hu) hr

-- Whole frames

theorem ending_servedBody {i : Instr} {body : State → Res} (h : servedBody i = some body) :
    Ending SinkSettled SinkSettled body := by
  cases i with
  | reqReset => cases h; exact ending_panelReset
  | reqPower on => cases h; exact ending_power on
  | reqFlip on => cases h; exact ending_flip on
  | reqInverse on => cases h; exact ending_inverse on
  | reqFill => cases h; exact ending_fill _ _ _ _ _
  | reqBlit => cases h; exact ending_blit _ _ _ _ _
  | reqMonoBlit => cases h; exact ending_monoBlit _ _ _ _ _ _ _ _
  | reqDrawChar => cases h; exact ending_drawChar _ _ _ _ _
  | reqDrawString => cases h; exact ending_drawString _ _ _ _ _ _
  | _ => cases h

/-- Ending a request does not reach the sink, and a wait for a grant stands between two frames (60_exceptions.md R278). -/
theorem Ending.request {P : State → Prop} {f : State → Res} (hf : Ending P SinkSettled f) {s t : State} (hs : P s)
    (h : (f s).request = .next t) : SinkSettled t := by
  have hr := hf s hs
  cases e : f s with
  | done u => rw [e] at h hr; cases h; exact hr
  | hung u => rw [e] at h hr; cases h; exact hr
  | refused r => rw [e] at h; cases h

theorem exec_request_settled {i : Instr} {s t : State} (hk : i.kind = .request) (hb : s.busy = false) (hs : SinkSettled s)
    (h : exec i s = .next t) : SinkSettled t := by
  rcases exec_request_next hk hb h with ⟨v, rfl⟩ | ⟨body, hbody, hr⟩
  · exact hs
  · have hf : Ending SinkSettled SinkSettled body := by
      rcases hbody with rfl | hsb
      · exact ending_begin
      · exact ending_servedBody hsb
    exact hf.request (s := s.accept (loadOf i)) hs hr

/-- A request word that is taken, with an operation or a reserved code, leaves no frame open and takes nothing more. -/
theorem runCode_request_betweenFrames {w : BitVec 181} {s t : State} (hb : s.busy = false) (hs : BetweenFrames s)
    (h : runCode (.request w) s = .next t) : BetweenFrames t := by
  obtain ⟨hsink, hin⟩ := hs
  rcases runCode_cases (.request w) s with ⟨i, hd, e⟩ | ⟨_, e⟩ | ⟨_, _, _, e⟩
  · obtain ⟨-, hk⟩ := loadOf_decodeFields (show decodeFields (unpack w) = .ok i from hd)
    have hx : exec i (s.latch (.request w)) = .next t := e.symm.trans h
    have hti : t.inputs = s.inputs := exec_request_sameInputs (s := s.latch (.request w)) hk hb hx
    exact ⟨exec_request_settled (s := s.latch (.request w)) hk hb hsink hx, by rwa [hti]⟩
  · cases e.symm.trans h
    exact ⟨hsink, hin⟩
  · cases e.symm.trans h

/-- A reset in a wait loses the sink, which then expects nothing; else the sink is not reached (70_reset_and_hazards.md R302,
R304). -/
theorem blockReset_settled {s : State} (hs : SinkSettled s) : SinkSettled s.blockReset := by
  obtain ⟨-, hsink⟩ := s.blockReset_trace
  show s.blockReset.sink.frameComplete = true
  rw [hsink]
  split
  · rfl
  · exact hs

/-- Settles O60, by the cases of a step; a code that is taken is a request, which sends whole frames only. -/
theorem requestsNeverLeaveAFrameOpen : Obligations.RequestsNeverLeaveAFrameOpen := by
  intro s t hs h
  obtain ⟨hsink, hin⟩ := hs
  rcases step_cases s with ⟨_, e⟩ | ⟨_, _, e⟩ | ⟨_, _, _, e⟩ | ⟨c, rest, _, hb, hi, e⟩
  · cases e.symm.trans h; exact ⟨blockReset_settled hsink, hin⟩
  · cases e.symm.trans h; exact ⟨hsink, hin⟩
  · cases e.symm.trans h; exact ⟨hsink, hin⟩
  · rw [hi] at hin
    obtain ⟨w, rfl⟩ := hin c List.mem_cons_self
    have hrest : BetweenFrames { s with inputs := rest } := ⟨hsink, fun c' hc' => hin c' (List.mem_cons_of_mem _ hc')⟩
    exact runCode_request_betweenFrames (s := { s with inputs := rest }) hb hrest (e.symm.trans h)

end Sys2Proof.Machine
end

section
/-! The raster requests FILL, BLIT and MONOBLIT (42_raster.md): the frames and registers of each in a ready state, what those frames
leave in the panel, and how many pixel words they stream. Each operation's law gives its frames; the statements differ only in them. -/
namespace Sys2Proof.Machine

-- The requests in a ready state

/-- The request `i` completes in `t`: it sent the frames `fs` and left these working registers and this scratch line. -/
structure RequestSends (i : Instr) (s t : State) (fs : List Frame) (work : Work) (line : Vector Half 160) : Prop where
  next : exec i s = .next t
  served : Served s t (loadOf i s.opnd) fs
  work : t.work = work
  line : t.line = line

/-- A request whose operation sends frames on a free bus is served with them. -/
theorem requestSends_of_body {i : Instr} {body : State → Res} {s : State} {fs : List Frame} {work : Work}
    {line : Vector Half 160} {fc : Nat} (hi : servedBody i = some body) (hs : s.Ready)
    (he : body (s.accept (loadOf i)) = .done (((s.accept (loadOf i)).sent fs).withRegs work line fc)) :
    ∃ t, RequestSends i s t fs work line :=
  ⟨_, (exec_served hi s).trans (serve_ready _ _ hs he), served _ hs fs work line fc, rfl, rfl⟩

/-- FILL sends one window of its colour (42_raster.md R192). -/
theorem fill_sends (x y w h color : Half) {s : State} (hs : s.Ready) :
    ∃ t, RequestSends (.reqFill x y w h color) s t (fillFrames x.toNat y.toNat w.toNat h.toNat color)
      (fillWork x.toNat y.toNat w.toNat h.toNat s.work) s.line :=
  requestSends_of_body rfl hs (fill_ready _ _ _ _ color (accept_ready _ hs))

/-- BLIT sends one window a row of the array's elements (42_raster.md R195). -/
theorem blit_sends (x y w h : Half) (src : Word) {s : State} (hs : s.Ready) :
    ∃ t f, RequestSends (.reqBlit x y w h src) s t (rowFrames x.toNat y.toNat w.toNat h.toNat f)
      (rowsWork x.toNat y.toNat w.toNat h.toNat s.work) s.line ∧ BlitPixels s src.toNat w.toNat f := by
  obtain ⟨f, fc, he, hf⟩ := blit_ready x.toNat y.toNat w.toNat h.toNat src.toNat (accept_ready (loadOf (.reqBlit x y w h src)) hs)
  obtain ⟨t, ht⟩ := requestSends_of_body rfl hs he
  refine ⟨t, f, ht, fun r c hc => ?_⟩
  rw [← Nat.add_assoc] at hc ⊢
  exact hf r c hc

/-- Where the index is in range, the bitmap of a MONOBLIT request is the host's array (42_raster.md R198, 20_memory.md R61). -/
theorem State.bitmapAt_host (s : State) {src n : Nat} (hn : src + n < 2 ^ 32) :
    s.bitmapAt .host ((src : Int) + (n : Int)) = some (s.bitsAt (src + n)) :=
  if_pos hn

theorem MonoPixels.hostPixels {s : State} {src w : Nat} {fg bg : Half} {f : Nat → Nat → Half}
    (hf : MonoPixels s .host src w fg bg f) : HostPixels s src w fg bg f := by
  intro r c
  obtain ⟨hcolour, hbit⟩ := hf r c
  exact ⟨hcolour, fun hc => hbit _ (s.bitmapAt_host hc)⟩

/-- MONOBLIT sends one window a row of the bitmap's bits in two colours (42_raster.md R198). -/
theorem monoBlit_sends (x y w h : Half) (src : Word) (fg bg : Half) {s : State} (hs : s.Ready) :
    ∃ t f, RequestSends (.reqMonoBlit x y w h src fg bg) s t (rowFrames x.toNat y.toNat w.toNat h.toNat f)
      (rowsWork x.toNat y.toNat w.toNat h.toNat s.work) (monoLine x.toNat y.toNat w.toNat h.toNat f s.line) ∧
      HostPixels s src.toNat w.toNat fg bg f := by
  obtain ⟨f, fc, he, hf⟩ := monoBlit_ready .host src.toNat x.toNat y.toNat w.toNat h.toNat fg bg
    (accept_ready (loadOf (.reqMonoBlit x y w h src fg bg)) hs)
  obtain ⟨t, ht⟩ := requestSends_of_body rfl hs he
  exact ⟨t, f, ht, MonoPixels.hostPixels (s := s) hf⟩

-- The frames and the registers

/-- Settles O33: the frames and the registers are those of FILL's law. -/
theorem fillSendsOneWindowOfOneColour : Obligations.FillSendsOneWindowOfOneColour := by
  intro x y w h color s hs
  obtain ⟨t, ht⟩ := fill_sends x y w h color hs
  exact ⟨t, ht.next, ht.served, ht.work, ht.line⟩

/-- Settles O35: the frames and the registers are those of BLIT's law. -/
theorem blitSendsOneWindowARow : Obligations.BlitSendsOneWindowARow := by
  intro x y w h src s hs
  obtain ⟨t, f, ht, hf⟩ := blit_sends x y w h src hs
  exact ⟨t, f, ht.next, hf, ht.served, ht.work, ht.line⟩

/-- Settles O37: the frames, the registers and the scratch line are those of MONOBLIT's law. -/
theorem monoBlitExpandsBitsToTwoColours : Obligations.MonoBlitExpandsBitsToTwoColours := by
  intro x y w h src fg bg s hs
  obtain ⟨t, f, ht, hf⟩ := monoBlit_sends x y w h src fg bg hs
  exact ⟨t, f, ht.next, hf, ht.served, ht.work, ht.line⟩

-- What the frames leave in the panel

/-- A request whose frames draw a rectangle leaves the sink with that rectangle drawn (20_memory.md R95). -/
theorem RequestSends.draws {i : Instr} {s t : State} {fs : List Frame} {work : Work} {line : Vector Half 160}
    (ht : RequestSends i s t fs work line) {x y w h : Nat} {f : Nat → Nat → Half}
    (hd : s.sink.Draws (s.sink.frames s.hasCs fs) x y w h f) : s.sink.Draws t.sink x y w h f :=
  ht.served.sink ▸ hd

/-- Settles O34: the frames of FILL draw its rectangle. -/
theorem fillPaintsTheRectangle : Obligations.FillPaintsTheRectangle := by
  intro x y w h color s hs hk hm
  obtain ⟨t, ht⟩ := fill_sends x y w h color hs
  have hd := ht.draws (Sink.draws_fill s.sink s.hasCs _ _ _ _ color hk hm)
  exact ⟨t, ht.next, hd.settled, hd.settings, hd.pixels⟩

/-- Settles O36: the rows of BLIT draw its rectangle. -/
theorem blitPaintsTheVisiblePart : Obligations.BlitPaintsTheVisiblePart := by
  intro x y w h src s hs hk hm
  obtain ⟨t, f, ht, hf⟩ := blit_sends x y w h src hs
  have hd := ht.draws (Sink.draws_rowFrames s.sink s.hasCs _ _ _ _ f hk hm)
  exact ⟨t, f, ht.next, hf, hd.settled, hd.settings, hd.pixels⟩

/-- Settles O38: the rows of MONOBLIT draw its rectangle. -/
theorem monoBlitPaintsTheVisiblePart : Obligations.MonoBlitPaintsTheVisiblePart := by
  intro x y w h src fg bg s hs hk hm
  obtain ⟨t, f, ht, hf⟩ := monoBlit_sends x y w h src fg bg hs
  have hd := ht.draws (Sink.draws_rowFrames s.sink s.hasCs _ _ _ _ f hk hm)
  exact ⟨t, f, ht.next, hf, hd.settled, hd.settings, hd.pixels⟩

-- How many pixel words the frames stream

theorem pixelCount_framesEvents_append (hasCs : Bool) (fs gs : List Frame) :
    pixelCount (framesEvents hasCs (fs ++ gs)) = pixelCount (framesEvents hasCs fs) + pixelCount (framesEvents hasCs gs) := by
  rw [pixelCount_frames, pixelCount_frames, pixelCount_frames, List.map_append, List.sum_append]

/-- The two address frames of a windowed write stream no pixel word, its third frame streams each (30_encoding.md R108). -/
theorem pixelCount_windowedWrite (hasCs : Bool) (x y w h : Nat) (px : List Half) :
    pixelCount (framesEvents hasCs (windowedWrite x y w h px)) = px.length := by
  rw [pixelCount_frames]
  simp [windowedWrite, windowFrames]

theorem pixelCount_rows (hasCs : Bool) (x y wc n : Nat) (f : Nat → Nat → Half) :
    pixelCount (framesEvents hasCs ((List.range n).flatMap fun r => windowedWrite x (y + r) wc 1 (rowPixels wc (f r)))) = wc * n := by
  induction n with
  | zero => rfl
  | succ n ih =>
    rw [List.range_succ, List.flatMap_append, pixelCount_framesEvents_append, ih, List.flatMap_singleton, pixelCount_windowedWrite,
      rowPixels, List.length_map, List.length_range, Nat.mul_succ]

/-- A trace streams as many pixel words as the clipped rectangle has pixels, and is empty where nothing is left of it (42_raster.md
R202). -/
def StreamsClippedArea (x y w h : Nat) (es : List Event) : Prop :=
  if x < 160 ∧ y < 80 ∧ 1 ≤ w ∧ 1 ≤ h then pixelCount es = min w (160 - x) * min h (80 - y) else es = []

theorem streamsClippedArea_fillFrames (hasCs : Bool) (x y w h : Nat) (color : Half) :
    StreamsClippedArea x y w h (framesEvents hasCs (fillFrames x y w h color)) := by
  unfold StreamsClippedArea fillFrames
  rw [clip_eq_ite]
  split
  · exact (pixelCount_windowedWrite _ _ _ _ _ _).trans List.length_replicate
  · rfl

theorem streamsClippedArea_rowFrames (hasCs : Bool) (x y w h : Nat) (f : Nat → Nat → Half) :
    StreamsClippedArea x y w h (framesEvents hasCs (rowFrames x y w h f)) := by
  unfold StreamsClippedArea rowFrames
  rw [clip_eq_ite]
  split
  · exact pixelCount_rows _ _ _ _ _ f
  · rfl

/-- Settles O39: what each of the three appends to the trace are the events of its frames, whose pixel words are counted above. -/
theorem pixelWordsEqualTheClippedArea : Obligations.PixelWordsEqualTheClippedArea := by
  intro x y w h color fg bg src s hs
  simp only [List.forall_mem_cons]
  refine ⟨?fill, ?blit, ?mono, nofun⟩
  case fill =>
    obtain ⟨t, ht⟩ := fill_sends x y w h color hs
    exact ⟨t, _, ht.next, ht.served.trace, streamsClippedArea_fillFrames _ _ _ _ _ color⟩
  case blit =>
    obtain ⟨t, f, ht, -⟩ := blit_sends x y w h src hs
    exact ⟨t, _, ht.next, ht.served.trace, streamsClippedArea_rowFrames _ _ _ _ _ f⟩
  case mono =>
    obtain ⟨t, f, ht, -⟩ := monoBlit_sends x y w h src fg bg hs
    exact ⟨t, _, ht.next, ht.served.trace, streamsClippedArea_rowFrames _ _ _ _ _ f⟩

end Sys2Proof.Machine
end

section
/-! The text requests DRAWCHAR and DRAWSTRING (43_text.md): the frames and registers of each in a ready state, and what those frames
leave in the panel. What the laws of text say of the bitmap `ROM` is read here as the glyph table, and the number of characters that
DRAWSTRING draws as the characters that start left of the edge. -/
namespace Sys2Proof.Machine

-- The pixels of a glyph

/-- A glyph is two bands of seven bytes, so each of its pixels has its byte in the table (43_text.md R221, R222). -/
theorem MonoPixels.glyphPixels {s : State} {ch : Byte} {fg bg : Half} {f : Nat → Nat → Half}
    (hf : MonoPixels s .rom (glyphOffset ch) 7 fg bg f) : GlyphPixels s ch fg bg f := by
  refine ⟨fun r c => (hf r c).1, fun hv r c hr hc => ?_⟩
  obtain ⟨-, hbit⟩ := hf r c
  exact hbit _ (bitmapAt_glyph s ch (r / 8 * 7 + c) hv (by omega))

-- The requests in a ready state

/-- DRAWCHAR sends the rows of the glyph and the gap column (43_text.md R223). -/
theorem drawChar_sends (x y : Half) (ch : Byte) (fg bg : Half) {s : State} (hs : s.Ready) :
    ∃ t f, RequestSends (.reqDrawChar x y ch fg bg) s t (glyphFrames x.toNat y.toNat bg f)
      (charWork x.toNat y.toNat ch fg bg s.work) (monoLine x.toNat y.toNat 7 16 f s.line) ∧ GlyphPixels s ch fg bg f := by
  obtain ⟨f, fc, he, hf⟩ := drawChar_ready x.toNat y.toNat ch fg bg (accept_ready (loadOf (.reqDrawChar x y ch fg bg)) hs)
  obtain ⟨t, ht⟩ := requestSends_of_body rfl hs he
  exact ⟨t, f, ht, MonoPixels.glyphPixels (s := s) hf⟩

/-- DRAWSTRING on a free bus: its characters from the first one on, the cursor at `x` (43_text.md R226). -/
theorem drawString_ready (x y src len : Nat) (fg bg : Half) {s : State} (hs : s.BusReady) :
    ∃ (ch : Nat → Byte) (f : Nat → Nat → Nat → Half) (fc : Nat),
      drawString x y src len fg bg s =
        .done ((s.sent ((List.range (drawnChars x len)).flatMap fun k => glyphFrames (x + 8 * k) y bg (f k))).withRegs
          (stringWork x y len ch fg bg s.work) (stringLine x y (drawnChars x len) f s.line) fc) ∧
      TextPixels s src fg bg ch f := by
  obtain ⟨ch, f, work, line, fc, he, -, -, hwork, hline, hf⟩ := drawChars_ready y src fg bg len 0 x (s := s.setCurx x) (by exact hs)
  refine ⟨ch, f, fc, ?_, fun k => ⟨(hf k).1, MonoPixels.glyphPixels (s := s) (hf k).2⟩⟩
  have hw : work = stringWork x y len ch fg bg s.work := by
    rw [hwork, charsWorkFrom_zero, Nat.zero_add]
    rfl
  have hl : line = stringLine x y (drawnChars x len) f s.line := hline.trans (charsLineFrom_zero x y _ f s.line).symm
  simp only [Nat.zero_add] at he
  rw [drawString, he, hw, hl]
  rfl

/-- DRAWSTRING sends its characters one after the other (43_text.md R226). -/
theorem drawString_sends (x y : Half) (src : Word) (len fg bg : Half) {s : State} (hs : s.Ready) :
    ∃ t ch f, RequestSends (.reqDrawString x y src len fg bg) s t
      ((List.range (drawnChars x.toNat len.toNat)).flatMap fun k => glyphFrames (x.toNat + 8 * k) y.toNat bg (f k))
      (stringWork x.toNat y.toNat len.toNat ch fg bg s.work)
      (stringLine x.toNat y.toNat (drawnChars x.toNat len.toNat) f s.line) ∧ TextPixels s src.toNat fg bg ch f := by
  obtain ⟨ch, f, fc, he, hf⟩ := drawString_ready x.toNat y.toNat src.toNat len.toNat fg bg
    (accept_ready (loadOf (.reqDrawString x y src len fg bg)) hs)
  obtain ⟨t, ht⟩ := requestSends_of_body rfl hs he
  exact ⟨t, ch, f, ht, hf⟩

-- The cursor, and how many characters are drawn

/-- The cursor goes eight columns further with each character (43_text.md R226). -/
theorem charsWork_curx (x y : Nat) (ch : Nat → Byte) (fg bg : Half) (n : Nat) {k : Work} (hk : k.curx = BitVec.ofNat 16 x) :
    (charsWork x y ch fg bg n k).curx = BitVec.ofNat 16 (x + 8 * n) := by
  cases n with
  | zero => exact hk
  | succ n => rw [charsWork, List.range_succ, List.foldl_append]; rfl

theorem stringWork_curx (x y len : Nat) (ch : Nat → Byte) (fg bg : Half) (k : Work) :
    (stringWork x y len ch fg bg k).curx = BitVec.ofNat 16 (x + 8 * drawnChars x len) := by
  have hc := charsWork_curx x y ch fg bg (drawnChars x len) (k := { k with curx := BitVec.ofNat 16 x }) rfl
  unfold stringWork
  split
  · exact hc
  · exact hc

/-- The characters drawn are those whose cursor is left of the edge (43_text.md R227). -/
theorem lt_drawnChars_iff (x len k : Nat) : k < drawnChars x len ↔ k < len ∧ x + 8 * k < 160 := by
  unfold drawnChars Config.ceilDiv
  split
  · omega
  · omega

/-- A row of the panel has room for the starts of twenty cells of eight columns (43_text.md R227). -/
theorem drawnChars_le (x len : Nat) : drawnChars x len ≤ 20 := by
  have h20 : ¬ 20 < drawnChars x len := fun h => by
    obtain ⟨-, hleft⟩ := (lt_drawnChars_iff x len 20).1 h
    omega
  omega

-- The frames and the registers

/-- Settles O41: the frames, the registers and the scratch line are those of DRAWCHAR's law. -/
theorem drawCharSendsGlyphThenGap : Obligations.DrawCharSendsGlyphThenGap := by
  intro x y ch fg bg s hs
  obtain ⟨t, f, ht, hf⟩ := drawChar_sends x y ch fg bg hs
  exact ⟨t, f, ht.next, hf, ht.served, ht.work, ht.line⟩

/-- Settles O43: the frames, the registers and the scratch line are those of the characters that start left of the edge. -/
theorem drawStringDrawsUntilTheEdge : Obligations.DrawStringDrawsUntilTheEdge := by
  refine ⟨fun x y src len fg bg s hs => ?_, fun x len => ⟨drawnChars_le x len, lt_drawnChars_iff x len⟩⟩
  obtain ⟨t, ch, f, ht, hf⟩ := drawString_sends x y src len fg bg hs
  have hcurx : t.work.curx = BitVec.ofNat 16 (x.toNat + 8 * drawnChars x.toNat len.toNat) := by rw [ht.work, stringWork_curx]
  exact ⟨t, ch, f, ht.next, hf, ht.served, hcurx, ht.work, ht.line⟩

-- What the frames leave in the panel

/-- Settles O42: the glyph and the gap column draw one cell. -/
theorem drawCharPaintsOneCell : Obligations.DrawCharPaintsOneCell := by
  intro x y ch fg bg s hs hk hm
  obtain ⟨t, f, ht, hf⟩ := drawChar_sends x y ch fg bg hs
  have hd := ht.draws (Sink.draws_glyph s.sink s.hasCs _ _ bg f hk hm)
  exact ⟨t, f, ht.next, hf, hd.settled, hd.settings, hd.pixels⟩

/-- Settles O44: the characters draw their cells, and the cells that are not drawn lie off the panel. -/
theorem drawStringPaintsItsCells : Obligations.DrawStringPaintsItsCells := by
  intro x y src len fg bg s hs hk hm
  obtain ⟨t, ch, f, ht, hf⟩ := drawString_sends x y src len fg bg hs
  have hd := ht.draws (Sink.draws_chars s.hasCs _ _ bg f _ hk hm)
  exact ⟨t, ch, f, ht.next, hf, hd.settled, hd.settings, fun col row hcol =>
    (hd.pixels col row hcol).trans (paintedPixel_drawn s.sink _ _ _ _ col row)⟩

end Sys2Proof.Machine
end

section
/-! The lifecycle requests BEGIN, RESET, POWER, FLIP and INVERSE (44_lifecycle.md) on a free bus: the events, the lines, the registers
and the panel that each leaves; and that no other instruction writes `PSTATE`. -/
namespace Sys2Proof.Machine

-- FLIP and INVERSE

/-- Settles O50: FLIP is served with the frame of its law. -/
theorem flipSendsOneOrientationFrame : Obligations.FlipSendsOneOrientationFrame := by
  intro on s hs
  have he := flip_ready on (accept_ready (loadOf (.reqFlip on)) hs)
  obtain ⟨t, ht⟩ := requestSends_of_body (work := s.work) (line := s.line) (fc := s.freeCtr) rfl hs he
  exact ⟨t, ht.next, ht.served, ht.work, ht.line⟩

/-- Settles O51: INVERSE is served with the frame of its law. -/
theorem inverseSendsOneInversionFrame : Obligations.InverseSendsOneInversionFrame := by
  intro on s hs
  have he := inverse_ready on (accept_ready (loadOf (.reqInverse on)) hs)
  obtain ⟨t, ht⟩ := requestSends_of_body (work := s.work) (line := s.line) (fc := s.freeCtr) rfl hs he
  exact ⟨t, ht.next, ht.served, ht.work, ht.line⟩

-- POWER

/-- Of two frames sent one after the other, the second decides how the pins rest. -/
theorem Pins.afterFrame_afterFrame (hasCs : Bool) (p : Pins) (f g : Frame) :
    (p.afterFrame hasCs f).afterFrame hasCs g = p.afterFrame hasCs g := by
  simp only [Pins.afterFrame, Bool.or_self_left]

/-- The state in which POWER ends (44_lifecycle.md R246). -/
def State.powered (on : Bool) (s : State) : State :=
  if on then (((s.sent [(0x11#8, [])]).delay 120).sent [(0x29#8, [])]).setPstate .awake
  else ((s.sent [(0x28#8, []), (0x10#8, [])]).delay 120).setPstate .sleeping

theorem power_ready (on : Bool) {s : State} (hs : s.BusReady) : power on s = .done (s.powered on) := by
  cases on with
  | true => exact power_on_ready hs
  | false => exact power_off_ready hs

theorem State.powered_trace (on : Bool) (s : State) : (s.powered on).trace =
    s.trace ++ (if on then txnEvents s.hasCs 0x11#8 [] ++ [.delay 120] ++ txnEvents s.hasCs 0x29#8 []
      else txnEvents s.hasCs 0x28#8 [] ++ txnEvents s.hasCs 0x10#8 [] ++ [.delay 120]) := by
  cases on <;> simp [State.powered, State.setPstate, State.trace, State.sent, State.delay, framesEvents]

/-- The frames that POWER sends (44_lifecycle.md R246). -/
def powerFrames (on : Bool) : List Frame := if on then [(0x11#8, []), (0x29#8, [])] else [(0x28#8, []), (0x10#8, [])]

/-- A delay and `PSTATE` reach neither the sink nor the pins: these are as after the frames. -/
theorem State.powered_lines (on : Bool) (s : State) :
    (s.powered on).sink = s.sink.frames s.hasCs (powerFrames on) ∧
      (s.powered on).pins = (powerFrames on).foldl (Pins.afterFrame s.hasCs) s.pins := by
  cases on <;> exact ⟨rfl, rfl⟩

theorem powerFrames_pins (on hasCs : Bool) (p : Pins) :
    (powerFrames on).foldl (Pins.afterFrame hasCs) p =
      { p with csN := hasCs || p.csN, dc := false, sck := false, mosi := on } := by
  cases on <;> exact Pins.afterFrame_afterFrame hasCs p _ _

theorem State.powered_pstate (on : Bool) (s : State) : (s.powered on).pstate = if on then .awake else .sleeping := by
  cases on <;> rfl

/-- Besides the events, the lines, the panel and `PSTATE`, POWER writes `DLY` and `bus_req` only. -/
theorem State.powered_rest (on : Bool) (s : State) :
    (s.powered on).opnd = s.opnd ∧ (s.powered on).work = s.work ∧ (s.powered on).line = s.line ∧
      (s.powered on).begun = s.begun ∧ (s.powered on).lock = s.lock ∧ (s.powered on).busReq = false ∧ (s.powered on).dly = 0 ∧
      SameOutside s (s.powered on) := by
  have hreq : (s.powered on).busReq = false := by
    cases on <;> exact Bool.and_false _
  cases on <;> exact ⟨rfl, rfl, rfl, rfl, rfl, hreq, rfl, rfl, rfl, rfl, rfl, rfl, rfl, rfl, rfl, rfl, rfl⟩

/-- Settles O49: POWER completes in the state of its law, whose parts are said above. -/
theorem powerSendsSleepOrWake : Obligations.PowerSendsSleepOrWake := by
  intro on s hs
  have ⟨_, hbegun, hlock, _⟩ := hs
  let a := s.accept (loadOf (.reqPower on))
  have hx : exec (.reqPower on) s = .next (a.powered on).complete :=
    (exec_served rfl s).trans (serve_ready _ _ hs (power_ready on (accept_ready _ hs)))
  obtain ⟨hsink, hpins⟩ := a.powered_lines on
  obtain ⟨hopnd, hwork, hline, hg, hl, hreq, hdly, hout⟩ := a.powered_rest on
  exact ⟨_, hx, a.powered_trace on, hsink, a.powered_pstate on, hpins.trans (powerFrames_pins on _ _), hopnd, hwork, hline,
    hg.trans hbegun, rfl, rfl, rfl, hl.trans hlock, hreq, hdly, hout⟩

-- RESET and BEGIN

theorem exec_reset_ready {s : State} (hs : s.Ready) :
    exec .reqReset s = .next (s.accept (loadOf .reqReset)).afterReset.complete :=
  (exec_served rfl s).trans (serve_ready _ _ hs (panelReset_ready (accept_ready _ hs)))

/-- The state in which BEGIN starts what RESET does too: the lines are driven, `BEGUN` is 1 (44_lifecycle.md R243). -/
def State.configured (s : State) : State := { s.pinCfg.busInit with begun := true }

theorem exec_begin_free {s : State} (hb : s.busy = false) (hl : s.lock = false) (hg : s.grants = none) :
    exec .reqBegin s = .next (s.accept (loadOf .reqBegin)).configured.afterReset.complete := by
  rw [exec_begin hb, beginAll_ready (s := s.accept (loadOf .reqBegin)) hl hg]
  rfl

theorem State.configured_trace (s : State) : s.configured.trace = s.trace ++ [.pinCfg, .busInit] := by
  simp [State.configured, State.trace, State.busInit, State.pinCfg]

/-- After the lines are configured, no pin rests at a level from before (44_lifecycle.md R243, R244). -/
theorem State.configured_reset_pins (s : State) :
    s.configured.afterReset.pins = {
      csN := true, dc := false, rstN := true, sck := false, mosi := true,
      csNOe := s.hasCs, dcOe := true, rstNOe := s.hasRst, sckOe := true, mosiOe := true } := by
  rw [State.afterReset_pins]
  simp only [State.configured, State.busInit, State.pinCfg, State.emit_fields, Bool.or_true]

/-- Settles O45: RESET completes in the state of its law. -/
theorem resetRunsTheBringUpSequence : Obligations.ResetRunsTheBringUpSequence := by
  intro s hs
  have ⟨_, hbegun, hlock, _⟩ := hs
  let a := s.accept (loadOf .reqReset)
  obtain ⟨hpstate, hg, hopnd, hwork, hline, hl, hreq, hdly, hout⟩ := a.afterReset_rest hlock
  exact ⟨_, exec_reset_ready hs, a.afterReset_trace, hpstate, hg.trans hbegun, hopnd, hwork, hline, a.afterReset_pins, rfl, rfl, rfl,
    hl, hreq, hdly, hout⟩

/-- Settles O47: BEGIN completes in the state in which RESET ends from the configured lines. -/
theorem beginConfiguresTheLinesAndResets : Obligations.BeginConfiguresTheLinesAndResets := by
  intro s hb hlock hgrants
  let a := s.accept (loadOf .reqBegin)
  have htrace : a.configured.afterReset.trace = a.trace ++ [.pinCfg, .busInit] ++ resetEvents a.hasCs a.hasRst := by
    rw [← State.configured_trace]
    exact a.configured.afterReset_trace
  obtain ⟨hpstate, hg, hopnd, hwork, hline, hl, hreq, hdly, hout⟩ := a.configured.afterReset_rest hlock
  exact ⟨_, exec_begin_free hb hlock hgrants, htrace, hpstate, hg, hopnd, hwork, hline, a.configured_reset_pins, rfl, rfl, rfl,
    hl, hreq, hdly, hout⟩

-- The frame view of RESET

theorem frameView_delay (n : Nat) (es : List Event) : frameView (.delay n :: es) = .delay n :: frameView es := rfl

theorem frameView_rst (l : Bool) (es : List Event) : frameView (.rst l :: es) = .rst l :: frameView es := rfl

/-- A stream of black pixels is a stream of zero bytes, two a pixel. -/
theorem pixelBytes_replicate_zero (n : Nat) : pixelBytes (List.replicate n 0x0000#16) = List.replicate (n * 2) 0x00#8 := by
  rw [pixelBytes_replicate, show [hi8 0x0000#16, lo8 0x0000#16] = List.replicate 2 0x00#8 from rfl,
    List.flatten_replicate_replicate]

/-- The frames after the wait for the panel to wake, line by line (44_lifecycle.md R245). -/
theorem resetFrames_view : resetFrames.map (fun f => View.frame f.1 f.2) =
    [.frame 0x36#8 [0x68#8], .frame 0x3A#8 [0x05#8], .frame 0x13#8 [],
      .frame 0x2A#8 [0x00#8, 0x00#8, 0x00#8, 0x9F#8], .frame 0x2B#8 [0x00#8, 0x18#8, 0x00#8, 0x67#8],
      .frame 0x2C#8 (List.replicate 25600 0x00#8), .frame 0x29#8 []] := by
  rw [resetFrames, windowedWrite, pixelBytes_replicate_zero]
  rfl

theorem frameView_resetEvents (hasCs hasRst : Bool) : frameView (resetEvents hasCs hasRst) =
    (if hasRst then [.rst false, .delay 100, .rst true, .delay 120] else [.frame 0x01#8 [], .delay 120]) ++
      .frame 0x11#8 [] :: .delay 120 :: resetFrames.map (fun f => View.frame f.1 f.2) := by
  have hframes : frameView (framesEvents hasCs resetFrames) = resetFrames.map (fun f => View.frame f.1 f.2) := by
    have h := frameView_frames hasCs resetFrames []
    rwa [List.append_nil, show frameView [] = [] from rfl, List.append_nil] at h
  have hwake : frameView (txnEvents hasCs 0x11#8 [] ++ .delay 120 :: framesEvents hasCs resetFrames) =
      .frame 0x11#8 [] :: .delay 120 :: resetFrames.map (fun f => View.frame f.1 f.2) := by
    rw [frameView_txn, frameView_delay, hframes]
  unfold resetEvents
  cases hasRst with
  | true =>
    simp only [if_true, List.append_assoc, List.cons_append, List.nil_append]
    rw [frameView_rst, frameView_delay, frameView_rst, frameView_delay, hwake]
  | false =>
    simp only [Bool.false_eq_true, if_false, List.append_assoc, List.cons_append, List.nil_append]
    rw [frameView_txn, frameView_delay, hwake]

/-- Settles O46: the view of the events that RESET's law gives. -/
theorem resetFrameViewIsTheListedOne : Obligations.ResetFrameViewIsTheListedOne := by
  intro s hs
  refine ⟨_, _, exec_reset_ready hs, (s.accept (loadOf .reqReset)).afterReset_trace, ?_⟩
  rw [frameView_resetEvents, resetFrames_view]
  rfl

-- The panel after BEGIN and RESET

/-- The sink is awake, in normal orientation, 16-bit colour and normal mode, the display on, the window the whole surface and all of it
black, and no frame is open (44_lifecycle.md R252). -/
def Sink.BroughtUp (k : Sink) : Prop :=
  k.sleep = false ∧ k.orient = 0x68#8 ∧ k.colMode = 0x05#8 ∧ k.normal = true ∧ k.dispOn = true ∧
    k.winXS.toNat = 0 ∧ k.winXE.toNat = 159 ∧ k.winYS.toNat = 24 ∧ k.winYE.toNat = 103 ∧ k.frameComplete = true ∧
    ∀ col row, col ≤ 159 → 24 ≤ row → row ≤ 103 → k.pixel col row = 0x0000#16

/-- Whatever the first action of RESET leaves in the sink, the frames after it bring the panel up. -/
theorem State.afterReset_broughtUp (s : State) : s.afterReset.sink.BroughtUp := by
  obtain ⟨k, hk, hsink⟩ := s.afterReset_sink
  rw [hsink]
  exact Sink.frames_reset k s.hasCs hk

/-- Settles O48: both end with RESET's frames. -/
theorem bringUpLeavesABlackPanel : Obligations.BringUpLeavesABlackPanel := by
  intro s hb hl hg i hi
  rcases hi with rfl | ⟨rfl, hbegun⟩
  · exact ⟨_, exec_begin_free hb hl hg, State.afterReset_broughtUp _⟩
  · exact ⟨_, exec_reset_ready ⟨hb, hbegun, hl, hg⟩, State.afterReset_broughtUp _⟩

-- Which instructions write `PSTATE`

/-- The power state is the same. -/
def SamePstate (s t : State) : Prop := t.pstate = s.pstate

theorem tolerant_samePstate : Tolerant SamePstate where
  refl := fun _ => rfl
  trans := fun _ _ _ h h' => h'.trans h
  sent := fun _ _ => rfl
  grants := fun _ _ => rfl
  waits := fun _ => rfl
  regs := fun _ _ _ _ => rfl

/-- The body of a served request that never sets `PSTATE` consists of the elementary changes of a drawing. -/
theorem following_servedBody_drawing {ρ : State → State → Prop} (t : Tolerant ρ) {i : Instr} {body : State → Res}
    (hs : servedBody i = some body) (hr : i ≠ .reqReset) (hp : ∀ on, i ≠ .reqPower on) : Following ρ body := by
  cases i with
  | reqReset => exact absurd rfl hr
  | reqPower on => exact absurd rfl (hp on)
  | reqFlip on => cases hs; exact following_flip t on
  | reqInverse on => cases hs; exact following_inverse t on
  | reqFill => cases hs; exact following_fill t _ _ _ _ _
  | reqBlit => cases hs; exact following_blit t _ _ _ _ _
  | reqMonoBlit => cases hs; exact following_monoBlit t _ _ _ _ _ _ _ _
  | reqDrawChar => cases hs; exact following_drawChar t _ _ _ _ _
  | reqDrawString => cases hs; exact following_drawString t _ _ _ _ _ _
  | _ => cases hs

/-- A request that is presented to a busy block is ignored (60_exceptions.md R276). -/
theorem exec_request_busy {i : Instr} (hk : i.kind = .request) {s : State} (hb : s.busy = true) : exec i s = .next s := by
  rcases request_cases hk with rfl | ⟨r, g, b, rfl⟩ | ⟨body, hs⟩
  · exact if_pos hb
  · exact if_pos hb
  · exact (exec_served hs s).trans (if_pos hb)

theorem exec_request_samePstate {i : Instr} {s t : State} (hk : i.kind = .request) (hnb : i ≠ .reqBegin) (hr : i ≠ .reqReset)
    (hp : ∀ on, i ≠ .reqPower on) (h : exec i s = .next t) : SamePstate s t := by
  rcases Bool.eq_false_or_eq_true s.busy with hb | hb
  · cases (exec_request_busy hk hb).symm.trans h; rfl
  rcases request_cases hk with rfl | ⟨r, g, b, rfl⟩ | ⟨body, hs⟩
  · exact absurd rfl hnb
  · cases (exec_rgb r g b hb).symm.trans h; rfl
  · exact serve_rel hb (following_servedBody_drawing tolerant_samePstate hs hr hp) (fun _ hu => hu) ((exec_served hs s).symm.trans h)

/-- A relation that the elementary changes of frames and micro-operations run alone respect. -/
structure TolerantAlone (ρ : State → State → Prop) : Prop where
  tolerant : Tolerant ρ
  acquires : ∀ s g, ρ s (State.emit .acq { s with busReq := true, lock := true, grants := g })
  busy : ∀ s t, ρ s t → ρ s { t with busy := true }
  tx8 : ∀ s b, ρ s (s.tx8 b)
  release : ∀ s, ρ s s.release
  delay : ∀ s n, ρ s (s.delay n)
  rstPulse : ∀ s, ρ s s.rstPulse

theorem tolerantAlone_samePstate : TolerantAlone SamePstate where
  tolerant := tolerant_samePstate
  acquires := fun _ _ => rfl
  busy := fun _ _ h => h
  tx8 := fun _ _ => rfl
  release := fun _ => rfl
  delay := fun _ _ => rfl
  rstPulse := fun _ => rfl

section
variable {ρ : State → State → Prop} {i : Instr} {s t : State}

theorem following_acquire (hρ : TolerantAlone ρ) : Following ρ acquire := by
  intro s
  rcases acquire_cases s with ⟨_, e⟩ | ⟨_, _, e⟩ | ⟨_, _, _, e⟩ | ⟨_, _, _, e⟩ | ⟨n, _, _, _, e⟩ <;> rw [e]
  · trivial
  · trivial
  · exact hρ.acquires s s.grants
  · exact hρ.tolerant.waits s
  · exact hρ.acquires s (some n)

theorem exec_alone_rel (hρ : TolerantAlone ρ) {f : State → Res} (ha : aloneBody i = some f) (hf : Following ρ f)
    (h : exec i s = .next t) : ρ s t := by
  rw [exec_alone ha] at h
  split at h
  · exact micro_rel hf (fun u hu => hρ.busy s u hu) h
  · cases h

theorem exec_micro_rel (hρ : TolerantAlone ρ) (hk : i.kind = .micro) (h : exec i s = .next t) : ρ s t := by
  have tol := hρ.tolerant
  cases i with
  | mopTx8 b => obtain ⟨-, rfl⟩ := execTx8_next h; exact hρ.tx8 s b
  | mopTx16 v => obtain ⟨-, rfl⟩ := execTx16_next h; exact tol.trans _ _ _ (hρ.tx8 s (hi8 v)) (hρ.tx8 _ (lo8 v))
  | mopTxn | mopSendCmd0 | mopSendCmd1 | mopSendCmdN | mopSendData16 => exact exec_alone_rel hρ rfl (following_txn tol _ _) h
  | mopAcquire => exact exec_alone_rel hρ rfl (following_acquire hρ) h
  | mopSendDataRep v n => exact exec_alone_rel hρ rfl (following_sendDataRep tol v n) h
  | mopSelect x y w hh => exact exec_alone_rel hρ rfl (following_select tol x y w hh) h
  | mopRelease => cases h; exact hρ.release s
  | mopDelay n => cases h; exact hρ.delay s n
  | mopSendData8 => cases h
  | mopRstPulse => obtain ⟨-, rfl⟩ := execRstPulse_next h; exact hρ.rstPulse s
  | mopClip => obtain ⟨work, rfl⟩ := execClip_next h; exact tol.regs s work s.line s.freeCtr
  | _ => cases hk

/-- A frame or a micro-operation that takes a step goes by the elementary changes. -/
theorem exec_rel_of_not_request (hρ : TolerantAlone ρ) (hk : i.kind ≠ .request) (h : exec i s = .next t) : ρ s t := by
  cases hkind : i.kind with
  | request => exact absurd hkind hk
  | frame =>
    obtain ⟨c, payload, ha⟩ := aloneBody_frame hkind
    exact exec_alone_rel hρ ha (following_txn hρ.tolerant c payload) h
  | micro => exact exec_micro_rel hρ hkind h

end

/-- Settles O52: of the elementary changes only setting `PSTATE` writes it, and only BEGIN, RESET and POWER have that one. -/
theorem onlyLifecycleRequestsChangeThePowerState : Obligations.OnlyLifecycleRequestsChangeThePowerState := by
  intro i s t hnb hr hp h
  by_cases hk : i.kind = .request
  · exact exec_request_samePstate hk hnb hr hp h
  · exact exec_rel_of_not_request tolerantAlone_samePstate hk h

end Sys2Proof.Machine
end

section
/-! Exceptions (60_exceptions.md): there is none. A block that waits for a grant ignores what is presented; every step but the block's
reset keeps the emitted events and `BEGUN`; a drawing that begins off the panel completes with nothing sent; and every granted request
completes. -/
namespace Sys2Proof.Machine

-- A block that waits

/-- Settles O9: a busy block steps to itself, and each of the eleven requests tests `BUSY` first. -/
theorem waitingBlockIgnoresRequests : Obligations.WaitingBlockIgnoresRequests :=
  ⟨fun _ hr hb => step_busy hr hb, fun _ _ hk hb => exec_request_busy hk hb⟩

-- Relations that every step but the block's reset respects

/-- The state with other values at the request port: the handshake, the sequencer, the operand registers, `resp_data` with the count of
free values, and the codes still presented. -/
def State.withPort (busy : Bool) (seq : Seq) (respDone : Bool) (respData : Half) (opnd : Operands) (freeCtr : Nat)
    (inputs : List Code) (s : State) : State :=
  { s with busy := busy, seq := seq, respDone := respDone, respData := respData, opnd := opnd, freeCtr := freeCtr, inputs := inputs }

/-- A relation that the elementary changes of every instruction respect, and the changes at the request port around it. -/
structure TolerantStep (ρ : State → State → Prop) : Prop where
  alone : TolerantAlone ρ
  setPstate : ∀ s p, ρ s (s.setPstate p)
  configures : ∀ s : State, ρ s s.configured
  port : ∀ (s : State) busy seq respDone respData opnd freeCtr inputs,
    ρ s (s.withPort busy seq respDone respData opnd freeCtr inputs)

section
variable {ρ : State → State → Prop} {s t : State}

theorem TolerantStep.reset (h : TolerantStep ρ) : TolerantReset ρ :=
  ⟨h.alone.tolerant, h.alone.delay, h.alone.rstPulse, h.setPstate⟩

theorem exec_request_rel (h : TolerantStep ρ) {i : Instr} (hk : i.kind = .request) (hb : s.busy = false)
    (he : exec i s = .next t) : ρ s t := by
  have trans := h.alone.tolerant.trans
  rcases exec_request_next hk hb he with ⟨v, rfl⟩ | ⟨body, hbody, hr⟩
  · exact h.port s _ _ _ _ _ _ _
  · have hf : Following ρ body := by
      rcases hbody with rfl | hs
      · exact following_beginAll h.reset h.configures
      · exact following_servedBody h.reset hs
    have haccept : ρ s (s.accept (loadOf i)) := h.port s _ _ _ _ _ _ _
    have hcomplete : ∀ u : State, ρ u u.complete := fun u => h.port u _ _ _ _ _ _ _
    exact trans _ _ _ haccept (request_rel hf (fun u hu => trans _ _ _ hu (hcomplete u)) hr)

theorem exec_rel (h : TolerantStep ρ) {i : Instr} (hb : s.busy = false) (he : exec i s = .next t) : ρ s t := by
  by_cases hk : i.kind = .request
  · exact exec_request_rel h hk hb he
  · exact exec_rel_of_not_request h.alone hk he

theorem runCode_rel (h : TolerantStep ρ) {c : Code} (hb : s.busy = false) (hr : runCode c s = .next t) : ρ s t := by
  rcases runCode_cases c s with ⟨i, _, e⟩ | ⟨_, e⟩ | ⟨_, _, _, e⟩
  · obtain ⟨o, d, hl⟩ := s.latch_eq c
    have hlatch : ρ s (s.latch c) := hl ▸ h.port s _ _ d _ o _ _
    have hbusy : (s.latch c).busy = false := by rw [hl]; exact hb
    exact h.alone.tolerant.trans _ _ _ hlatch (exec_rel h hbusy (e.symm.trans hr))
  · cases e.symm.trans hr
    exact h.port s _ _ _ _ _ _ _
  · cases e.symm.trans hr

/-- A step other than the block's reset waits, idles, or runs a code. -/
theorem step_rel (h : TolerantStep ρ) (hr : s.blkRst = false) (hs : step s = .next t) : ρ s t := by
  rcases step_cases s with ⟨hr', _⟩ | ⟨_, _, e⟩ | ⟨_, _, _, e⟩ | ⟨c, rest, _, hb, _, e⟩
  · cases hr.symm.trans hr'
  · cases e.symm.trans hs
    exact h.alone.tolerant.refl s
  · cases e.symm.trans hs
    exact h.port s _ _ _ _ _ _ _
  · have htaken : ρ s { s with inputs := rest } := h.port s _ _ _ _ _ _ _
    exact h.alone.tolerant.trans _ _ _ htaken (runCode_rel h hb (e.symm.trans hs))

end

-- Emitted events and `BEGUN`

/-- What `t` has emitted begins with what `s` has, and `BEGUN` is not cleared (10_state.md R28, R39). -/
structure Extends (s t : State) : Prop where
  trace : s.trace <+: t.trace
  begun : s.begun = true → t.begun = true

theorem Extends.of_append {s t : State} (es : List Event) (ht : t.trace = s.trace ++ es) (hb : t.begun = s.begun) :
    Extends s t :=
  ⟨⟨es, ht.symm⟩, hb.trans⟩

theorem Extends.of_same {s t : State} (ht : t.trace = s.trace) (hb : t.begun = s.begun) : Extends s t :=
  .of_append [] (ht.trans (List.append_nil _).symm) hb

theorem tolerant_extends : Tolerant Extends where
  refl := fun _ => .of_same rfl rfl
  trans := fun _ _ _ h h' => ⟨h.trace.trans h'.trace, h'.begun ∘ h.begun⟩
  sent := fun s fs => .of_append _ (s.sent_trace fs) rfl
  grants := fun _ _ => .of_same rfl rfl
  waits := fun _ => .of_same rfl rfl
  regs := fun _ _ _ _ => .of_same rfl rfl

theorem tolerantAlone_extends : TolerantAlone Extends where
  tolerant := tolerant_extends
  acquires := fun _ _ => .of_append _ (State.emit_trace _ _) rfl
  busy := fun _ _ h => ⟨h.trace, h.begun⟩
  tx8 := fun s b => .of_append _ (s.tx8_trace b) rfl
  release := fun s => .of_append _ s.release_trace rfl
  delay := fun s n => .of_append _ (s.delay_trace n) rfl
  rstPulse := fun s => .of_append _ s.rstPulse_trace rfl

theorem tolerantStep_extends : TolerantStep Extends where
  alone := tolerantAlone_extends
  setPstate := fun _ _ => .of_same rfl rfl
  configures := fun s => ⟨⟨_, s.configured_trace.symm⟩, fun _ => rfl⟩
  port := fun _ _ _ _ _ _ _ _ => .of_same rfl rfl

/-- Settles O54: every elementary change only appends to the trace and keeps `BEGUN`. -/
theorem emittedEventsStayEmitted : Obligations.EmittedEventsStayEmitted := by
  intro s t hr hs
  obtain ⟨⟨es, htrace⟩, hbegun⟩ := step_rel tolerantStep_extends hr hs
  exact ⟨⟨es, htrace.symm⟩, hbegun⟩

-- Drawings off the panel

/-- The first column or the first row of a drawing is off the panel (41_addressing.md R171). -/
abbrev OffPanel (x y : Nat) : Prop := 160 ≤ x ∨ 80 ≤ y

section
variable {x y : Nat}

/-- What lies further right is off the panel too. -/
theorem OffPanel.add (h : OffPanel x y) (n : Nat) : OffPanel (x + n) y := h.imp_left (Nat.le_add_right_of_le ·)

theorem clip_offPanel (h : OffPanel x y) (w hh : Nat) : clip x y w hh = none := by
  rw [clip_eq_ite, if_neg (by omega)]

theorem fillFrames_offPanel (h : OffPanel x y) (w hh : Nat) (color : Half) : fillFrames x y w hh color = [] := by
  simp only [fillFrames, clip_offPanel h]

theorem rowFrames_offPanel (h : OffPanel x y) (w hh : Nat) (f : Nat → Nat → Half) : rowFrames x y w hh f = [] := by
  simp only [rowFrames, clip_offPanel h]

theorem monoLine_offPanel (h : OffPanel x y) (w hh : Nat) (f : Nat → Nat → Half) (line : Vector Half 160) :
    monoLine x y w hh f line = line := by
  simp only [monoLine, clip_offPanel h]

/-- The glyph and the gap column right of it (43_text.md R223). -/
theorem glyphFrames_offPanel (h : OffPanel x y) (bg : Half) (f : Nat → Nat → Half) : glyphFrames x y bg f = [] := by
  rw [glyphFrames, rowFrames_offPanel h, fillFrames_offPanel (h.add 7), List.append_nil]

/-- Below the panel characters are drawn, but none of them sends a frame (43_text.md R226). -/
theorem charFrames_offPanel (h : OffPanel x y) (n : Nat) (bg : Half) (f : Nat → Nat → Nat → Half) :
    ((List.range n).flatMap fun k => glyphFrames (x + 8 * k) y bg (f k)) = [] :=
  List.flatMap_eq_nil_iff.2 fun k _ => glyphFrames_offPanel (h.add (8 * k)) bg (f k)

theorem stringLine_offPanel (h : OffPanel x y) (n : Nat) (f : Nat → Nat → Nat → Half) (line : Vector Half 160) :
    stringLine x y n f line = line :=
  List.foldl_fixed' (fun k => monoLine_offPanel (h.add (8 * k)) 7 16 (f k) line) _

end

/-- The request completes in `t` and touched neither the trace, the lines, the scratch line nor the panel (60_exceptions.md R271). -/
def CompletesUntouched (i : Instr) (s t : State) : Prop :=
  exec i s = .next t ∧ t.trace = s.trace ∧ t.pins = s.pins ∧ t.line = s.line ∧ t.sink = s.sink ∧ t.respDone = true ∧
    t.busy = false ∧ t.pstate = s.pstate

/-- A request that sends no frame and leaves the scratch line. -/
theorem RequestSends.untouched {i : Instr} {s t : State} {fs : List Frame} {work : Work} {line : Vector Half 160}
    (ht : RequestSends i s t fs work line) (hfs : fs = []) (hline : line = s.line) : CompletesUntouched i s t := by
  subst hfs
  obtain ⟨hbusy, -, hdone⟩ := ht.served.ended
  obtain ⟨hpstate, -, -⟩ := ht.served.same
  exact ⟨ht.next, ht.served.trace.trans (List.append_nil _), ht.served.pins, ht.line.trans hline, ht.served.sink, hdone, hbusy,
    hpstate⟩

/-- Settles O40: off the panel the frames of each drawing are none, and the scratch line is the one from before. -/
theorem offPanelDrawingEmitsNothing : Obligations.OffPanelDrawingEmitsNothing := by
  intro x y w h color fg bg len ch src s hs hoff
  simp only [List.forall_mem_cons]
  refine ⟨?fill, ?blit, ?mono, ?char, ?string, nofun⟩
  case fill =>
    obtain ⟨t, ht⟩ := fill_sends x y w h color hs
    exact ⟨t, ht.untouched (fillFrames_offPanel hoff _ _ color) rfl⟩
  case blit =>
    obtain ⟨t, f, ht, -⟩ := blit_sends x y w h src hs
    exact ⟨t, ht.untouched (rowFrames_offPanel hoff _ _ f) rfl⟩
  case mono =>
    obtain ⟨t, f, ht, -⟩ := monoBlit_sends x y w h src fg bg hs
    exact ⟨t, ht.untouched (rowFrames_offPanel hoff _ _ f) (monoLine_offPanel hoff _ _ f _)⟩
  case char =>
    obtain ⟨t, f, ht, -⟩ := drawChar_sends x y ch fg bg hs
    exact ⟨t, ht.untouched (glyphFrames_offPanel hoff bg f) (monoLine_offPanel hoff _ _ f _)⟩
  case string =>
    obtain ⟨t, _, f, ht, -⟩ := drawString_sends x y src len fg bg hs
    exact ⟨t, ht.untouched (charFrames_offPanel hoff _ bg f) (stringLine_offPanel hoff _ f _)⟩

-- Granted requests

/-- The request completes and gives the bus back, and what is outside the block is as before (10_state.md R25, R26, R32). -/
def Completes (i : Instr) (s : State) : Prop :=
  ∃ t, exec i s = .next t ∧ t.busy = false ∧ t.seq = .idle ∧ t.respDone = true ∧ t.lock = false ∧ SameOutside s t

theorem Served.completes {i : Instr} {s t : State} {o : Operands} {fs : List Frame} (h : Served s t o fs)
    (he : exec i s = .next t) : Completes i s := by
  obtain ⟨hbusy, hseq, hdone⟩ := h.ended
  obtain ⟨hlock, -⟩ := h.bus
  exact ⟨t, he, hbusy, hseq, hdone, hlock, h.outside⟩

theorem RequestSends.completes {i : Instr} {s t : State} {fs : List Frame} {work : Work} {line : Vector Half 160}
    (h : RequestSends i s t fs work line) : Completes i s :=
  h.served.completes h.next

theorem completes_begin {s : State} (hs : s.Ready) : Completes .reqBegin s := by
  obtain ⟨hb, -, hl, hg⟩ := hs
  obtain ⟨t, he, -, -, -, -, -, -, -, hbusy, hseq, hdone, hlock, -, -, hout⟩ := beginConfiguresTheLinesAndResets s hb hl hg
  exact ⟨t, he, hbusy, hseq, hdone, hlock, hout⟩

theorem completes_reset {s : State} (hs : s.Ready) : Completes .reqReset s := by
  obtain ⟨t, he, -, -, -, -, -, -, -, hbusy, hseq, hdone, hlock, -, -, hout⟩ := resetRunsTheBringUpSequence s hs
  exact ⟨t, he, hbusy, hseq, hdone, hlock, hout⟩

theorem completes_power (on : Bool) {s : State} (hs : s.Ready) : Completes (.reqPower on) s := by
  obtain ⟨t, he, -, -, -, -, -, -, -, -, hbusy, hseq, hdone, hlock, -, -, hout⟩ := powerSendsSleepOrWake on s hs
  exact ⟨t, he, hbusy, hseq, hdone, hlock, hout⟩

theorem completes_rgb (r g b : Byte) {s : State} (hs : s.Ready) : Completes (.reqRgb r g b) s := by
  obtain ⟨hb, -, hl, -⟩ := hs
  exact ⟨_, exec_rgb r g b hb, rfl, rfl, rfl, hl, rfl, rfl, rfl, rfl, rfl, rfl, rfl, rfl, rfl, rfl⟩

/-- Settles O32, request by request: each completes by the law of what it does. -/
theorem everyRequestCompletesWhenGranted : Obligations.EveryRequestCompletesWhenGranted := by
  intro i s hk hs
  show Completes i s
  cases i with
  | reqBegin => exact completes_begin hs
  | reqReset => exact completes_reset hs
  | reqPower on => exact completes_power on hs
  | reqFlip on =>
    obtain ⟨t, he, hserved, -, -⟩ := flipSendsOneOrientationFrame on s hs
    exact hserved.completes he
  | reqInverse on =>
    obtain ⟨t, he, hserved, -, -⟩ := inverseSendsOneInversionFrame on s hs
    exact hserved.completes he
  | reqFill x y w h color =>
    obtain ⟨t, ht⟩ := fill_sends x y w h color hs
    exact ht.completes
  | reqBlit x y w h src =>
    obtain ⟨t, f, ht, -⟩ := blit_sends x y w h src hs
    exact ht.completes
  | reqMonoBlit x y w h src fg bg =>
    obtain ⟨t, f, ht, -⟩ := monoBlit_sends x y w h src fg bg hs
    exact ht.completes
  | reqDrawChar x y ch fg bg =>
    obtain ⟨t, f, ht, -⟩ := drawChar_sends x y ch fg bg hs
    exact ht.completes
  | reqDrawString x y src len fg bg =>
    obtain ⟨t, ch, f, ht, -⟩ := drawString_sends x y src len fg bg hs
    exact ht.completes
  | reqRgb r g b => exact completes_rgb r g b hs
  | _ => cases hk

end Sys2Proof.Machine
end

section
/-! The block with nothing presented, and the settling times in what a granted request emits (70_reset_and_hazards.md R303, R312). The
frames of the drawings, FLIP and INVERSE ask for no wait; BEGIN, RESET and POWER put the waits behind the commands that do. -/
namespace Sys2Proof.Machine

-- The idle block

/-- Settles O8: with nothing presented the step is the idle step, which writes `resp_done` only. -/
theorem idleBlockDoesNothing : Obligations.IdleBlockDoesNothing := fun _ hr hb hi => step_idle hr hb hi

-- Frames after which no wait is needed

/-- The command is none of the three that a wait must follow (70_reset_and_hazards.md R312). -/
abbrev Unhurried (c : Byte) : Prop := c ≠ 0x01#8 ∧ c ≠ 0x11#8 ∧ c ≠ 0x10#8

/-- Whatever follows a frame of such a command, its settling time is kept. -/
theorem Unhurried.settledBy {c : Byte} (hc : Unhurried c) (payload : List Byte) :
    ∀ vs, settledBy (.frame c payload) vs = true
  | [] | .frame _ _ :: _ | .rst _ :: _ => decide_eq_true hc
  | .delay _ :: _ => Bool.or_eq_true_iff.2 (.inl (decide_eq_true hc))

theorem settleTimes_unhurried {fs : List Frame} (h : ∀ f ∈ fs, Unhurried f.1) :
    settleTimes (fs.map fun f => .frame f.1 f.2) = true := by
  induction fs with
  | nil => rfl
  | cons f fs ih =>
    obtain ⟨hf, hfs⟩ := List.forall_mem_cons.1 h
    rw [List.map_cons, settleTimes, hf.settledBy f.2, ih hfs, Bool.and_self]

/-- A windowed write consists of the commands 0x2A, 0x2B and 0x2C (41_addressing.md R175). -/
theorem unhurried_windowedWrite (x y w h : Nat) (px : List Half) : ∀ f ∈ windowedWrite x y w h px, Unhurried f.1 := by
  simp only [windowedWrite, windowFrames, List.cons_append, List.nil_append, List.forall_mem_cons]
  exact ⟨by decide, by decide, by decide, nofun⟩

theorem unhurried_fillFrames (x y w h : Nat) (color : Half) : ∀ f ∈ fillFrames x y w h color, Unhurried f.1 := by
  unfold fillFrames
  split
  · nofun
  · exact unhurried_windowedWrite _ _ _ _ _

theorem unhurried_rowFrames (x y w h : Nat) (g : Nat → Nat → Half) : ∀ f ∈ rowFrames x y w h g, Unhurried f.1 := by
  unfold rowFrames
  split
  · nofun
  · intro f hf
    obtain ⟨r, -, hr⟩ := List.mem_flatMap.1 hf
    exact unhurried_windowedWrite _ _ _ _ _ f hr

theorem unhurried_glyphFrames (x y : Nat) (bg : Half) (g : Nat → Nat → Half) : ∀ f ∈ glyphFrames x y bg g, Unhurried f.1 :=
  List.forall_mem_append.2 ⟨unhurried_rowFrames _ _ _ _ _, unhurried_fillFrames _ _ _ _ _⟩

/-- After the wait for the panel to wake, RESET sends no command that asks for another (44_lifecycle.md R244). -/
theorem unhurried_resetFrames : ∀ f ∈ resetFrames, Unhurried f.1 := by
  refine List.forall_mem_append.2 ⟨List.forall_mem_append.2 ⟨by decide, unhurried_windowedWrite _ _ _ _ _⟩, by decide⟩

-- The views of the lifecycle requests

/-- The reset pulse, or SOFT_RESET, and EXIT_SLEEP are each followed by their waits (44_lifecycle.md R245, R249). -/
theorem settleTimes_resetEvents (hasCs hasRst : Bool) : settleTimes (frameView (resetEvents hasCs hasRst)) = true := by
  have hframes := settleTimes_unhurried unhurried_resetFrames
  rw [frameView_resetEvents]
  cases hasRst <;> simp [settleTimes, settledBy, hframes]

/-- The events of POWER (44_lifecycle.md R246). -/
def powerEvents (hasCs on : Bool) : List Event :=
  if on then txnEvents hasCs 0x11#8 [] ++ [.delay 120] ++ txnEvents hasCs 0x29#8 []
  else txnEvents hasCs 0x28#8 [] ++ txnEvents hasCs 0x10#8 [] ++ [.delay 120]

theorem frameView_powerEvents (hasCs on : Bool) : frameView (powerEvents hasCs on) =
    if on then [.frame 0x11#8 [], .delay 120, .frame 0x29#8 []] else [.frame 0x28#8 [], .frame 0x10#8 [], .delay 120] := by
  cases on with
  | true =>
    simp only [powerEvents, if_true, List.append_assoc, List.cons_append, List.nil_append]
    rw [frameView_txn, frameView_delay, frameView_txn_only]
  | false =>
    simp only [powerEvents, Bool.false_eq_true, if_false, List.append_assoc]
    rw [frameView_txn, frameView_txn]
    rfl

/-- POWER waits behind EXIT_SLEEP and behind ENTER_SLEEP (44_lifecycle.md R249). -/
theorem settleTimes_powerEvents (hasCs on : Bool) : settleTimes (frameView (powerEvents hasCs on)) = true := by
  rw [frameView_powerEvents]
  cases on <;> rfl

-- The granted requests

/-- The request completes, and the events it emits keep the settling times. -/
def KeepsSettlingTimes (i : Instr) (s : State) : Prop :=
  ∃ t es, exec i s = .next t ∧ t.trace = s.trace ++ es ∧ settleTimes (frameView es) = true

theorem Served.keepsSettlingTimes {i : Instr} {s t : State} {o : Operands} {fs : List Frame} (h : Served s t o fs)
    (he : exec i s = .next t) (hfs : ∀ f ∈ fs, Unhurried f.1) : KeepsSettlingTimes i s := by
  refine ⟨t, framesEvents s.hasCs fs, he, h.trace, ?_⟩
  have hview : frameView (framesEvents s.hasCs fs) = fs.map fun f => .frame f.1 f.2 := by
    simpa [frameView, frameViewFrom] using frameView_frames s.hasCs fs []
  rw [hview]
  exact settleTimes_unhurried hfs

theorem RequestSends.keepsSettlingTimes {i : Instr} {s t : State} {fs : List Frame} {work : Work} {line : Vector Half 160}
    (h : RequestSends i s t fs work line) (hfs : ∀ f ∈ fs, Unhurried f.1) : KeepsSettlingTimes i s :=
  h.served.keepsSettlingTimes h.next hfs

/-- Configuring the lines is no line of the frame view (44_lifecycle.md R243, 00_scope.md R16). -/
theorem begin_keepsSettlingTimes {s : State} (hs : s.Ready) : KeepsSettlingTimes .reqBegin s := by
  obtain ⟨hb, -, hl, hg⟩ := hs
  obtain ⟨t, he, htrace, -⟩ := beginConfiguresTheLinesAndResets s hb hl hg
  exact ⟨t, [.pinCfg, .busInit] ++ resetEvents s.hasCs s.hasRst, he, htrace.trans (List.append_assoc _ _ _),
    settleTimes_resetEvents _ _⟩

theorem reset_keepsSettlingTimes {s : State} (hs : s.Ready) : KeepsSettlingTimes .reqReset s := by
  obtain ⟨t, he, htrace, -⟩ := resetRunsTheBringUpSequence s hs
  exact ⟨t, _, he, htrace, settleTimes_resetEvents _ _⟩

theorem power_keepsSettlingTimes (on : Bool) {s : State} (hs : s.Ready) : KeepsSettlingTimes (.reqPower on) s := by
  obtain ⟨t, he, htrace, -⟩ := powerSendsSleepOrWake on s hs
  exact ⟨t, powerEvents s.hasCs on, he, htrace, settleTimes_powerEvents _ _⟩

/-- RGB emits nothing (42_raster.md R190). -/
theorem rgb_keepsSettlingTimes (r g b : Byte) {s : State} (hs : s.Ready) : KeepsSettlingTimes (.reqRgb r g b) s := by
  obtain ⟨hb, -⟩ := hs
  exact ⟨_, [], exec_rgb r g b hb, (List.append_nil _).symm, rfl⟩

theorem drawString_keepsSettlingTimes (x y : Half) (src : Word) (len fg bg : Half) {s : State} (hs : s.Ready) :
    KeepsSettlingTimes (.reqDrawString x y src len fg bg) s := by
  obtain ⟨t, ch, f, ht, -⟩ := drawString_sends x y src len fg bg hs
  refine ht.keepsSettlingTimes fun g hg => ?_
  obtain ⟨k, -, hk⟩ := List.mem_flatMap.1 hg
  exact unhurried_glyphFrames _ _ bg (f k) g hk

/-- Settles O57, request by request: BEGIN, RESET and POWER by their events, the others because no frame of theirs asks for a wait. -/
theorem requestsKeepTheSettlingTimes : Obligations.RequestsKeepTheSettlingTimes := by
  intro i s hk hs
  show KeepsSettlingTimes i s
  cases i with
  | reqBegin => exact begin_keepsSettlingTimes hs
  | reqReset => exact reset_keepsSettlingTimes hs
  | reqPower on => exact power_keepsSettlingTimes on hs
  | reqFlip on =>
    obtain ⟨t, he, hserved, -, -⟩ := flipSendsOneOrientationFrame on s hs
    exact hserved.keepsSettlingTimes he (by cases on <;> decide)
  | reqInverse on =>
    obtain ⟨t, he, hserved, -, -⟩ := inverseSendsOneInversionFrame on s hs
    exact hserved.keepsSettlingTimes he (by cases on <;> decide)
  | reqFill x y w h color =>
    obtain ⟨t, ht⟩ := fill_sends x y w h color hs
    exact ht.keepsSettlingTimes (unhurried_fillFrames _ _ _ _ color)
  | reqBlit x y w h src =>
    obtain ⟨t, f, ht, -⟩ := blit_sends x y w h src hs
    exact ht.keepsSettlingTimes (unhurried_rowFrames _ _ _ _ f)
  | reqMonoBlit x y w h src fg bg =>
    obtain ⟨t, f, ht, -⟩ := monoBlit_sends x y w h src fg bg hs
    exact ht.keepsSettlingTimes (unhurried_rowFrames _ _ _ _ f)
  | reqDrawChar x y ch fg bg =>
    obtain ⟨t, f, ht, -⟩ := drawChar_sends x y ch fg bg hs
    exact ht.keepsSettlingTimes (unhurried_glyphFrames _ _ bg f)
  | reqDrawString x y src len fg bg => exact drawString_keepsSettlingTimes x y src len fg bg hs
  | reqRgb r g b => exact rgb_keepsSettlingTimes r g b hs
  | _ => cases hk

end Sys2Proof.Machine
end
